-- ==== Sys2Proof/Word.lean ====
section
/-! DEFINITION. The plain data types of the block: bytes and taps, the names of tones, channels and FIR paths, and a
value for each of two tones, channels or paths. -/

namespace Sys2Proof

/-- A byte of the register port (00_scope R6: REG_W is 8 bits). -/
abbrev Byte := BitVec 8

/-- The 16-bit pattern of a tap (00_scope R6: TAP_W is 16 bits, two's complement). -/
abbrev Tap := BitVec 16

/-- The two DDS tones (00_scope R6, NTONES; R10). -/
inductive Tone where
  | one
  | two
  deriving DecidableEq, Repr, Inhabited

/-- The two channels of a tone (00_scope R6). -/
inductive Chan where
  | i
  | q
  deriving DecidableEq, Repr, Inhabited

/-- The two FIR paths (00_scope R6). -/
inductive Path where
  | tx
  | rx
  deriving DecidableEq, Repr, Inhabited

/-- The sideband sign of a tone: +1 or -1 (10_state R20, register SB). -/
inductive Sideband where
  | plus
  | minus
  deriving DecidableEq, Repr, Inhabited

/-- One value for each tone. -/
structure PerTone (α : Type) where
  one : α
  two : α
  deriving DecidableEq, Repr, Inhabited

/-- One value for each channel of a tone. -/
structure PerChan (α : Type) where
  i : α
  q : α
  deriving DecidableEq, Repr, Inhabited

/-- One value for each FIR path. -/
structure PerPath (α : Type) where
  tx : α
  rx : α
  deriving DecidableEq, Repr, Inhabited

variable {α : Type}

def PerTone.get (x : PerTone α) : Tone → α
  | .one => x.one
  | .two => x.two

def PerTone.set (x : PerTone α) : Tone → α → PerTone α
  | .one, a => { x with one := a }
  | .two, a => { x with two := a }

def PerChan.get (x : PerChan α) : Chan → α
  | .i => x.i
  | .q => x.q

def PerChan.set (x : PerChan α) : Chan → α → PerChan α
  | .i, a => { x with i := a }
  | .q, a => { x with q := a }

def PerPath.get (x : PerPath α) : Path → α
  | .tx => x.tx
  | .rx => x.rx

def PerPath.set (x : PerPath α) : Path → α → PerPath α
  | .tx, a => { x with tx := a }
  | .rx, a => { x with rx := a }

/-- The integer a host names a tone by (30_encoding R71, type T). -/
def Tone.index : Tone → Int
  | .one => 1
  | .two => 2

/-- The sign as a number: +1 or -1. -/
def Sideband.sign : Sideband → Rat
  | .plus => 1
  | .minus => -1

end Sys2Proof
end

