-- ==== Sys2Proof/Syntax.lean ====
section
/-! DEFINITION. What crosses the command port (30_encoding R70, R71): a header byte with typed operand values, and the
24 commands of the opcode map R77, one constructor per row; and the pseudo-instructions of R80. -/

namespace Sys2Proof

/-- A symbol operand (R71: types CH, SW and PATH). The legal symbols are constructors; `other` is any symbol that is
none of these six, which decode accepts and the command's own rule turns away. -/
inductive Symbol where
  | I
  | Q
  | on
  | off
  | TX
  | RX
  | other (spelling : String)
  deriving DecidableEq, Repr, Inhabited

/-- One operand value as it stands in the operand record of a command, before its type is checked (R70, R71). A
number is an exact rational; it is an integer when its denominator is 1 (log entry 4). `absent` is the `None` of type OQ. -/
inductive Operand where
  | num (value : Rat)
  | absent
  | sym (s : Symbol)
  | vec (values : List Rat)
  | name (s : String)
  deriving DecidableEq, Repr, Inhabited

/-- A command as the host issues it: the header's opcode byte and the operand record (R70). -/
structure RawCommand where
  opc : Byte
  operands : List Operand
  deriving DecidableEq, Repr, Inhabited

/-- The commands of the opcode map (R77), one constructor per row of opcode_table.json, in the table's order. -/
inductive Instr where
  | toneGetFs (t : Int)
  | toneSetFreq (t : Int) (f : Rat)
  | toneGetFreq (t : Int)
  | toneSetPhase (t : Int) (phi : Rat)
  | toneGetPhase (t : Int) (ch : Symbol)
  | toneSetAmp (t : Int) (a : Rat)
  | toneGetAmp (t : Int)
  | toneState (t : Int) (sw : Symbol)
  | toneStatus (t : Int)
  | ddsSetAmp (d1 d2 : Option Rat)
  | ddsSetFreq (f1 : Rat) (f2 : Option Rat)
  | ddsSetPhase (p1 : Rat) (p2 : Option Rat)
  | ddsIsOff
  | ddsStatus (k : Int)
  | ddsState (sw : Symbol)
  | firEncode (v : Int)
  | firDecode (hi lo : Int)
  | firSetBit (i w : Int) (sw : Symbol)
  | firBuildCfg (path : Symbol) (taps : Int) (gain : Rat)
  | firWriteTx (c : List Int) (taps : Int) (gain : Rat)
  | firWriteRx (c : List Int) (taps : Int) (gain : Rat)
  | firReadTx
  | firReadRx
  | firLoadFile (name : String)
  deriving DecidableEq, Repr, Inhabited

/-- The pseudo-instructions of R80; each expands to exactly one command (`Pseudo.expand`). `firWrite` takes the tap
count and gain it was given, or none for the defaults 128 and 0. -/
inductive Pseudo where
  | toneOn (t : Int)
  | toneOff (t : Int)
  | toneGetPhase (t : Int)
  | ddsSetFreq (f1 : Rat)
  | ddsSetPhase (p1 : Rat)
  | ddsSetAmp (d1 : Option Rat)
  | ddsMute
  | ddsOn
  | ddsOff
  | firWriteTx (c : List Int)
  | firWriteRx (c : List Int)
  | firWrite (p : Path) (c : List Int) (params : Option (Int × Rat))
  | firRead (p : Path)
  deriving DecidableEq, Repr, Inhabited

end Sys2Proof
end

