-- ==== Sys2Proof/WellFormed.lean ====
section
/-! DEFINITION. The legal operand values of 30_encoding R71 for the operand types that have a list of them (T, CH, SW,
PATH). Decode accepts a well-typed operand with an illegal value and the command's own rule raises its error (R71), so
a command need not be well formed to be decoded and run. -/

namespace Sys2Proof

/-- T: "Legal values are 1 and 2". -/
def legalTone (t : Int) : Bool := t = 1 || t = 2

/-- CH: "Legal values are I and Q". -/
def legalChannel (ch : Symbol) : Bool := ch = .I || ch = .Q

/-- SW: "Legal values are on and off". -/
def legalSwitch (sw : Symbol) : Bool := sw = .on || sw = .off

/-- PATH: "Legal values are TX and RX". -/
def legalPath (p : Symbol) : Bool := p = .TX || p = .RX

/-- Every operand of the command has a legal value of its type (R71). -/
def Instr.wellFormed : Instr → Bool
  | .toneGetFs t => legalTone t
  | .toneSetFreq t _ => legalTone t
  | .toneGetFreq t => legalTone t
  | .toneSetPhase t _ => legalTone t
  | .toneGetPhase t ch => legalTone t && legalChannel ch
  | .toneSetAmp t _ => legalTone t
  | .toneGetAmp t => legalTone t
  | .toneState t sw => legalTone t && legalSwitch sw
  | .toneStatus t => legalTone t
  | .ddsSetAmp _ _ => true
  | .ddsSetFreq _ _ => true
  | .ddsSetPhase _ _ => true
  | .ddsIsOff => true
  | .ddsStatus k => legalTone k
  | .ddsState sw => legalSwitch sw
  | .firEncode _ => true
  | .firDecode _ _ => true
  | .firSetBit _ _ sw => legalSwitch sw
  | .firBuildCfg path _ _ => legalPath path
  | .firWriteTx _ _ _ => true
  | .firWriteRx _ _ _ => true
  | .firReadTx => true
  | .firReadRx => true
  | .firLoadFile _ => true

end Sys2Proof
end

