-- ==== Sys2Proof/Decode.lean ====
section
/-! DEFINITION. The command decoder and encoder (30_encoding R70, R71, R77, R78), total on every header byte and every
operand record, the pseudo-instructions of R80, and the table word of the host's question. -/

namespace Sys2Proof

/-- Why a command is illegal (R78). The block answers each with err(IllegalCommand, OPC). -/
inductive DecodeError where
  /-- An opcode not in R77. -/
  | reservedOpcode
  /-- A listed opcode with the wrong number of operands. -/
  | wrongArity
  /-- An operand of the wrong type (R71). -/
  | wrongType
  deriving DecidableEq, Repr, Inhabited

/-- The integer a rational is, when its denominator is 1. -/
def asInteger (q : Rat) : Option Int := if q.den = 1 then some q.num else none

/-- Types T and Z: an integer. -/
def Operand.toInt? : Operand → Option Int
  | .num q => asInteger q
  | _ => none

/-- Type Q: an exact rational. -/
def Operand.toRat? : Operand → Option Rat
  | .num q => some q
  | _ => none

/-- Type OQ: a rational or `None`. -/
def Operand.toOptRat? : Operand → Option (Option Rat)
  | .num q => some (some q)
  | .absent => some none
  | _ => none

/-- Types CH, SW and PATH: a symbol, legal or not. -/
def Operand.toSymbol? : Operand → Option Symbol
  | .sym s => some s
  | _ => none

/-- Type VEC: a finite list of integers. -/
def Operand.toVec? : Operand → Option (List Int)
  | .vec l => l.mapM asInteger
  | _ => none

/-- Type NAME: a string. -/
def Operand.toName? : Operand → Option String
  | .name s => some s
  | _ => none

/-- A command without operands. -/
def take0 (i : Instr) : List Operand → Except DecodeError Instr
  | [] => .ok i
  | _ => .error .wrongArity

/-- A command with one operand of the type `a` reads. -/
def take1 {α : Type} (a : Operand → Option α) (f : α → Instr) : List Operand → Except DecodeError Instr
  | [x] =>
    match a x with
    | some u => .ok (f u)
    | none => .error .wrongType
  | _ => .error .wrongArity

/-- A command with two operands. -/
def take2 {α β : Type} (a : Operand → Option α) (b : Operand → Option β) (f : α → β → Instr) :
    List Operand → Except DecodeError Instr
  | [x, y] =>
    match a x, b y with
    | some u, some v => .ok (f u v)
    | _, _ => .error .wrongType
  | _ => .error .wrongArity

/-- A command with three operands. -/
def take3 {α β γ : Type} (a : Operand → Option α) (b : Operand → Option β) (c : Operand → Option γ)
    (f : α → β → γ → Instr) : List Operand → Except DecodeError Instr
  | [x, y, z] =>
    match a x, b y, c z with
    | some u, some v, some w => .ok (f u v w)
    | _, _, _ => .error .wrongType
  | _ => .error .wrongArity

/-- The opcode map of R77; every opcode not listed is reserved (R78). -/
def decode (c : RawCommand) : Except DecodeError Instr :=
  match c.opc.toNat with
  | 0x01 => take1 Operand.toInt? .toneGetFs c.operands
  | 0x02 => take2 Operand.toInt? Operand.toRat? .toneSetFreq c.operands
  | 0x03 => take1 Operand.toInt? .toneGetFreq c.operands
  | 0x04 => take2 Operand.toInt? Operand.toRat? .toneSetPhase c.operands
  | 0x05 => take2 Operand.toInt? Operand.toSymbol? .toneGetPhase c.operands
  | 0x06 => take2 Operand.toInt? Operand.toRat? .toneSetAmp c.operands
  | 0x07 => take1 Operand.toInt? .toneGetAmp c.operands
  | 0x08 => take2 Operand.toInt? Operand.toSymbol? .toneState c.operands
  | 0x09 => take1 Operand.toInt? .toneStatus c.operands
  | 0x10 => take2 Operand.toOptRat? Operand.toOptRat? .ddsSetAmp c.operands
  | 0x11 => take2 Operand.toRat? Operand.toOptRat? .ddsSetFreq c.operands
  | 0x12 => take2 Operand.toRat? Operand.toOptRat? .ddsSetPhase c.operands
  | 0x13 => take0 .ddsIsOff c.operands
  | 0x14 => take1 Operand.toInt? .ddsStatus c.operands
  | 0x15 => take1 Operand.toSymbol? .ddsState c.operands
  | 0x20 => take1 Operand.toInt? .firEncode c.operands
  | 0x21 => take2 Operand.toInt? Operand.toInt? .firDecode c.operands
  | 0x22 => take3 Operand.toInt? Operand.toInt? Operand.toSymbol? .firSetBit c.operands
  | 0x23 => take3 Operand.toSymbol? Operand.toInt? Operand.toRat? .firBuildCfg c.operands
  | 0x30 => take3 Operand.toVec? Operand.toInt? Operand.toRat? .firWriteTx c.operands
  | 0x31 => take3 Operand.toVec? Operand.toInt? Operand.toRat? .firWriteRx c.operands
  | 0x32 => take0 .firReadTx c.operands
  | 0x33 => take0 .firReadRx c.operands
  | 0x34 => take1 Operand.toName? .firLoadFile c.operands
  | _ => .error .reservedOpcode

/-- The opcode byte of a command (R77). -/
def Instr.opcode : Instr → Byte
  | .toneGetFs _ => 0x01
  | .toneSetFreq _ _ => 0x02
  | .toneGetFreq _ => 0x03
  | .toneSetPhase _ _ => 0x04
  | .toneGetPhase _ _ => 0x05
  | .toneSetAmp _ _ => 0x06
  | .toneGetAmp _ => 0x07
  | .toneState _ _ => 0x08
  | .toneStatus _ => 0x09
  | .ddsSetAmp _ _ => 0x10
  | .ddsSetFreq _ _ => 0x11
  | .ddsSetPhase _ _ => 0x12
  | .ddsIsOff => 0x13
  | .ddsStatus _ => 0x14
  | .ddsState _ => 0x15
  | .firEncode _ => 0x20
  | .firDecode _ _ => 0x21
  | .firSetBit _ _ _ => 0x22
  | .firBuildCfg _ _ _ => 0x23
  | .firWriteTx _ _ _ => 0x30
  | .firWriteRx _ _ _ => 0x31
  | .firReadTx => 0x32
  | .firReadRx => 0x33
  | .firLoadFile _ => 0x34

/-- An integer operand. -/
def Operand.ofInt (z : Int) : Operand := .num z

/-- An optional rational operand. -/
def Operand.ofOptRat : Option Rat → Operand
  | some q => .num q
  | none => .absent

/-- A tap vector operand. -/
def Operand.ofVec (c : List Int) : Operand := .vec (c.map fun (z : Int) => (z : Rat))

/-- The operand record of a command, in the order of R77. -/
def Instr.operands : Instr → List Operand
  | .toneGetFs t => [.ofInt t]
  | .toneSetFreq t f => [.ofInt t, .num f]
  | .toneGetFreq t => [.ofInt t]
  | .toneSetPhase t phi => [.ofInt t, .num phi]
  | .toneGetPhase t ch => [.ofInt t, .sym ch]
  | .toneSetAmp t a => [.ofInt t, .num a]
  | .toneGetAmp t => [.ofInt t]
  | .toneState t sw => [.ofInt t, .sym sw]
  | .toneStatus t => [.ofInt t]
  | .ddsSetAmp d1 d2 => [.ofOptRat d1, .ofOptRat d2]
  | .ddsSetFreq f1 f2 => [.num f1, .ofOptRat f2]
  | .ddsSetPhase p1 p2 => [.num p1, .ofOptRat p2]
  | .ddsIsOff => []
  | .ddsStatus k => [.ofInt k]
  | .ddsState sw => [.sym sw]
  | .firEncode v => [.ofInt v]
  | .firDecode hi lo => [.ofInt hi, .ofInt lo]
  | .firSetBit i w sw => [.ofInt i, .ofInt w, .sym sw]
  | .firBuildCfg path taps gain => [.sym path, .ofInt taps, .num gain]
  | .firWriteTx c taps gain => [.ofVec c, .ofInt taps, .num gain]
  | .firWriteRx c taps gain => [.ofVec c, .ofInt taps, .num gain]
  | .firReadTx => []
  | .firReadRx => []
  | .firLoadFile name => [.name name]

/-- The command's header byte and operand record (R70, R77). -/
def encode (i : Instr) : RawCommand := ⟨i.opcode, i.operands⟩

/-- The one command each pseudo-instruction of R80 stands for. -/
def Pseudo.expand : Pseudo → Instr
  | .toneOn t => .toneState t .on
  | .toneOff t => .toneState t .off
  | .toneGetPhase t => .toneGetPhase t .I
  | .ddsSetFreq f1 => .ddsSetFreq f1 none
  | .ddsSetPhase p1 => .ddsSetPhase p1 none
  | .ddsSetAmp d1 => .ddsSetAmp d1 none
  | .ddsMute => .ddsSetAmp none none
  | .ddsOn => .ddsState .on
  | .ddsOff => .ddsState .off
  | .firWriteTx c => .firWriteTx c 128 0
  | .firWriteRx c => .firWriteRx c 128 0
  | .firWrite .tx c params => .firWriteTx c (params.map Prod.fst |>.getD 128) (params.map Prod.snd |>.getD 0)
  | .firWrite .rx c params => .firWriteRx c (params.map Prod.fst |>.getD 128) (params.map Prod.snd |>.getD 0)
  | .firRead .tx => .firReadTx
  | .firRead .rx => .firReadRx

/-- The operand record that stands for zero operand words, for a table row whose word gives the header byte only:
the number 0 for T, Z, Q and OQ, the first legal symbol for CH, SW and PATH, the empty vector and the empty name
(log entry 2, DESIGN CHOICE). -/
def zeroOperands : Nat → List Operand
  | 0x01 => [.num 0]
  | 0x02 => [.num 0, .num 0]
  | 0x03 => [.num 0]
  | 0x04 => [.num 0, .num 0]
  | 0x05 => [.num 0, .sym .I]
  | 0x06 => [.num 0, .num 0]
  | 0x07 => [.num 0]
  | 0x08 => [.num 0, .sym .on]
  | 0x09 => [.num 0]
  | 0x10 => [.num 0, .num 0]
  | 0x11 => [.num 0, .num 0]
  | 0x12 => [.num 0, .num 0]
  | 0x14 => [.num 0]
  | 0x15 => [.sym .on]
  | 0x20 => [.num 0]
  | 0x21 => [.num 0, .num 0]
  | 0x22 => [.num 0, .num 0, .sym .on]
  | 0x23 => [.sym .TX, .num 0, .num 0]
  | 0x30 => [.vec [], .num 0, .num 0]
  | 0x31 => [.vec [], .num 0, .num 0]
  | 0x34 => [.name ""]
  | _ => []

/-- The command a table word stands for: its low 8 bits are the header byte (R70), with a zero operand record. A
word with a bit above the header byte is no command: the operand record has no bits. -/
def tableCommand (nbits w : Nat) : Option RawCommand :=
  let v := w % 2 ^ nbits
  if v < 256 then some ⟨BitVec.ofNat 8 v, zeroOperands v⟩ else none

/-- The instruction this decoder reads from a table word (see `tableCommand`). -/
def decodeTableWord (nbits w : Nat) : Option Instr :=
  match tableCommand nbits w with
  | some c =>
    match decode c with
    | .ok i => some i
    | .error _ => none
  | none => none

end Sys2Proof
end

