-- ==== Sys2Proof/Config/Decibel.lean ====
section
/-! DEFINITION. The decibel conversions of the spec's rule R11 as a lawful open parameter: the laws a model may
assume, and a proof that some pair of rational functions obeys them (so that assuming them is consistent). Nothing of
the model evaluates the pair built here: `Config.dbToLin` and `Config.linToDb` are opaque. -/

namespace Sys2Proof.Config

/-- The properties rule R11 and decision D4 let a model assume of `dbToLin` (10^(d/10), for d ≤ 0) and `linToDb`
(10·log10 a, for 0 < a ≤ 1). "It is the inverse of dbToLin within 1e-9" is read both ways round: a level converted and
back, and an amplitude converted and back, are kept within 1e-9 (log entry 11). -/
structure DecibelLaws (toLin toDb : ℚ → ℚ) : Prop where
  lin_zero : toLin 0 = 1
  lin_minus_ten : toLin (-10) = 1 / 10
  lin_minus_twenty : toLin (-20) = 1 / 100
  lin_strict : ∀ d e : ℚ, d < e → e ≤ 0 → toLin d < toLin e
  lin_pos : ∀ d : ℚ, d ≤ 0 → 0 < toLin d
  lin_le_one : ∀ d : ℚ, d ≤ 0 → toLin d ≤ 1
  lin_close : ∀ d : ℚ, d ≤ 0 → |(toLin d : ℝ) - (10 : ℝ) ^ ((d : ℝ) / 10)| ≤ 1 / 10 ^ 9
  db_one : toDb 1 = 0
  db_tenth : toDb (1 / 10) = -10
  db_hundredth : toDb (1 / 100) = -20
  db_mono : ∀ a b : ℚ, 0 < a → a ≤ b → b ≤ 1 → toDb a ≤ toDb b
  db_nonpos : ∀ a : ℚ, 0 < a → a ≤ 1 → toDb a ≤ 0
  db_close : ∀ a : ℚ, 0 < a → a ≤ 1 → |(toDb a : ℝ) - 10 * Real.logb 10 a| ≤ 1 / 10 ^ 9
  db_lin : ∀ d : ℚ, d ≤ 0 → |toDb (toLin d) - d| ≤ 1 / 10 ^ 9
  lin_db : ∀ a : ℚ, 0 < a → a ≤ 1 → |toLin (toDb a) - a| ≤ 1 / 10 ^ 9

/-- A pair of conversions with the laws of rule R11. -/
structure Decibels where
  toLin : ℚ → ℚ
  toDb : ℚ → ℚ
  laws : DecibelLaws toLin toDb

namespace DecibelWitness

/-! A pair with the laws: `lin` is built on one decade and carried down by powers of ten, which keeps it accurate in
proportion to its value; `db` rounds the real logarithm down to a multiple of 10^-10. -/

/-- The greatest k ≤ 10^12 with k / 10^12 ≤ 10^(d/10), by integer arithmetic. -/
def grid (d : ℚ) : ℕ :=
  Nat.findGreatest (fun k => k ^ (10 * d.den) * 10 ^ d.num.natAbs ≤ (10 ^ 12) ^ (10 * d.den)) (10 ^ 12)

/-- A strictly increasing line through (-10, 1/10) and (0, 1). -/
def tilt (d : ℚ) : ℚ := 1 / 10 + (d + 10) * (9 / 100)

/-- The weight of one grid step. -/
def share : ℚ := (1 - 1 / 10 ^ 13) / 10 ^ 12

/-- The conversion on one decade, -10 < r ≤ 0. -/
def decade (r : ℚ) : ℚ := share * grid r + tilt r / 10 ^ 13

/-- How many decades a level lies below 0 dB. -/
def decades (d : ℚ) : ℕ := ⌊-d / 10⌋₊

def lin (d : ℚ) : ℚ := decade (d + 10 * decades d) / 10 ^ decades d

theorem grid_bounds {d : ℚ} (hd : d ≤ 0) :
    (grid d : ℝ) ≤ 10 ^ 12 * (10 : ℝ) ^ ((d : ℝ) / 10) ∧
      10 ^ 12 * (10 : ℝ) ^ ((d : ℝ) / 10) < (grid d : ℝ) + 1 := by
  have hq : 0 < 10 * d.den := by have := d.den_pos; omega
  have hpow : ((10 : ℝ) ^ ((d : ℝ) / 10)) ^ (10 * d.den) * 10 ^ d.num.natAbs = 1 := by
    rw [← Real.rpow_natCast, ← Real.rpow_mul (by norm_num), ← Real.rpow_natCast (10 : ℝ) d.num.natAbs,
      ← Real.rpow_add (by norm_num)]
    have h1 : (d : ℝ) * d.den = d.num := by exact_mod_cast Rat.mul_den_eq_num d
    have h2 : ((d.num.natAbs : ℕ) : ℝ) = -(d.num : ℝ) := by
      have : ((d.num.natAbs : ℕ) : ℤ) = -d.num := by
        have := Rat.num_nonpos.mpr hd; omega
      rw [← Int.cast_natCast, this, Int.cast_neg]
    rw [h2]
    have : (d : ℝ) / 10 * ((10 * d.den : ℕ) : ℝ) + -(d.num : ℝ) = 0 := by
      push_cast; rw [← h1]; ring
    rw [this, Real.rpow_zero]
  have key : ∀ k : ℕ, k ^ (10 * d.den) * 10 ^ d.num.natAbs ≤ (10 ^ 12) ^ (10 * d.den) ↔
      (k : ℝ) ≤ 10 ^ 12 * (10 : ℝ) ^ ((d : ℝ) / 10) := by
    intro k
    have hg : (0 : ℝ) < (10 : ℝ) ^ ((d : ℝ) / 10) := Real.rpow_pos_of_pos (by norm_num) _
    rw [← pow_le_pow_iff_left₀ (a := (k : ℝ)) (Nat.cast_nonneg k) (by positivity) hq.ne']
    have hp : (0 : ℝ) < 10 ^ d.num.natAbs := by positivity
    rw [← mul_le_mul_iff_left₀ hp, mul_pow, mul_assoc, hpow, mul_one]
    exact_mod_cast Iff.rfl
  constructor
  · exact (key _).mp (Nat.findGreatest_spec (P := fun k => k ^ (10 * d.den) * 10 ^ d.num.natAbs ≤
      (10 ^ 12) ^ (10 * d.den)) (Nat.zero_le _) (by simp [zero_pow hq.ne']))
  · by_cases h : grid d + 1 ≤ 10 ^ 12
    · have := mt (key (grid d + 1)).mpr (Nat.findGreatest_is_greatest
        (P := fun k => k ^ (10 * d.den) * 10 ^ d.num.natAbs ≤ (10 ^ 12) ^ (10 * d.den)) (Nat.lt_succ_self _) h)
      push_cast at this
      linarith [not_le.mp this]
    · have h1 : (10 : ℝ) ^ ((d : ℝ) / 10) ≤ 1 := by
        have hd' : (d : ℝ) ≤ 0 := by exact_mod_cast hd
        exact Real.rpow_le_one_of_one_le_of_nonpos (by norm_num) (by linarith)
      have h2 : (10 : ℝ) ^ 12 < (grid d : ℝ) + 1 := by exact_mod_cast not_le.mp h
      linarith

theorem grid_mono {d e : ℚ} (h : d ≤ e) (he : e ≤ 0) : grid d ≤ grid e := by
  have h1 := (grid_bounds (h.trans he)).1
  have h2 := (grid_bounds he).2
  have h3 : (10 : ℝ) ^ ((d : ℝ) / 10) ≤ (10 : ℝ) ^ ((e : ℝ) / 10) := by
    have : (d : ℝ) ≤ e := by exact_mod_cast h
    exact Real.rpow_le_rpow_of_exponent_le (by norm_num) (by linarith)
  have : (grid d : ℝ) < (grid e : ℝ) + 1 := by linarith
  exact Nat.lt_succ_iff.mp (by exact_mod_cast this)

theorem grid_le {d : ℚ} : grid d ≤ 10 ^ 12 := Nat.findGreatest_le _

/-- Where 10^(d/10) is a multiple of 10^-12 the grid holds it exactly. -/
theorem grid_exact {d : ℚ} {k : ℕ} (hd : d ≤ 0) (h : 10 ^ 12 * (10 : ℝ) ^ ((d : ℝ) / 10) = k) : grid d = k := by
  have h1 := (grid_bounds hd).1
  have h2 := (grid_bounds hd).2
  rw [h] at h1 h2
  have h1' : grid d ≤ k := by exact_mod_cast h1
  have h2' : k < grid d + 1 := by exact_mod_cast h2
  omega


/-- The place of a level in its decade. -/
theorem place {d : ℚ} (hd : d ≤ 0) : -10 < d + 10 * decades d ∧ d + 10 * decades d ≤ 0 := by
  have h1 := Nat.floor_le (a := -d / 10) (by linarith)
  have h2 := Nat.lt_floor_add_one (-d / 10)
  change (decades d : ℚ) ≤ -d / 10 at h1
  change -d / 10 < (decades d : ℚ) + 1 at h2
  constructor <;> linarith

theorem decades_anti {d e : ℚ} (h : d ≤ e) : decades e ≤ decades d := Nat.floor_le_floor (by linarith)

theorem share_pos : 0 < share := by norm_num [share]

theorem decade_zero : decade 0 = 1 := by
  have : grid 0 = 10 ^ 12 := grid_exact le_rfl (by norm_num)
  norm_num [decade, this, share, tilt]

theorem decade_low : decade (-10) = 1 / 10 := by
  have : grid (-10) = 10 ^ 11 := grid_exact (by norm_num) (by
    push_cast; rw [show (-10 : ℝ) / 10 = -1 by norm_num, Real.rpow_neg_one]; norm_num)
  norm_num [decade, this, share, tilt]

theorem decade_strict {r q : ℚ} (h : r < q) (hq : q ≤ 0) : decade r < decade q := by
  have h1 : (grid r : ℚ) ≤ grid q := by exact_mod_cast grid_mono h.le hq
  have h3 := mul_le_mul_of_nonneg_left h1 share_pos.le
  unfold decade tilt; linarith

theorem decade_gt {r : ℚ} (h : -10 < r) (hr : r ≤ 0) : 1 / 10 < decade r := decade_low ▸ decade_strict h hr

theorem decade_le {r : ℚ} (hr : r ≤ 0) : decade r ≤ 1 := by
  rcases hr.lt_or_eq with h | rfl
  · exact (decade_strict h le_rfl).le.trans decade_zero.le
  · exact decade_zero.le

theorem decade_close {r : ℚ} (h : -10 < r) (hr : r ≤ 0) :
    |(decade r : ℝ) - (10 : ℝ) ^ ((r : ℝ) / 10)| ≤ 2 / 10 ^ 12 := by
  obtain ⟨h1, h2⟩ := grid_bounds hr
  have h3 : (-10 : ℝ) < r := by exact_mod_cast h
  have h4 : (r : ℝ) ≤ 0 := by exact_mod_cast hr
  have h5 : (grid r : ℝ) ≤ 10 ^ 12 := by exact_mod_cast grid_le
  have h6 : (0 : ℝ) ≤ grid r := Nat.cast_nonneg _
  have : (decade r : ℝ) = (1 - 1 / 10 ^ 13) / 10 ^ 12 * grid r + (1 / 10 + (r + 10) * (9 / 100)) / 10 ^ 13 := by
    simp only [decade, share, tilt]; push_cast; ring
  rw [this, abs_le]
  constructor <;> linarith

theorem lin_at {d r : ℚ} {n : ℕ} (h : decades d = n) (hr : d + 10 * n = r) : lin d = decade r / 10 ^ n := by
  rw [lin, h, hr]

theorem lin_zero : lin 0 = 1 := by
  rw [lin_at (n := 0) (r := 0) (by simp [decades]) (by norm_num), decade_zero]; norm_num

theorem lin_minus_ten : lin (-10) = 1 / 10 := by
  rw [lin_at (n := 1) (r := 0) (by norm_num [decades]) (by norm_num), decade_zero]; norm_num

theorem lin_minus_twenty : lin (-20) = 1 / 100 := by
  rw [lin_at (n := 2) (r := 0) (by norm_num [decades]) (by norm_num), decade_zero]; norm_num

theorem lin_pos {d : ℚ} (hd : d ≤ 0) : 0 < lin d := by
  have := decade_gt (place hd).1 (place hd).2
  exact div_pos (by linarith) (by positivity)

theorem lin_strict {d e : ℚ} (h : d < e) (he : e ≤ 0) : lin d < lin e := by
  have hd := place (h.le.trans he)
  have hp := place he
  unfold lin
  rcases (decades_anti h.le).lt_or_eq with hn | hn
  · calc decade (d + 10 * decades d) / 10 ^ decades d ≤ 1 / 10 ^ decades d := by
          gcongr; exact decade_le hd.2
      _ ≤ 1 / 10 ^ (decades e + 1) := by
          apply one_div_le_one_div_of_le (by positivity)
          exact pow_le_pow_right₀ (by norm_num) hn
      _ = 1 / 10 / 10 ^ decades e := by rw [pow_succ]; field_simp
      _ < decade (e + 10 * decades e) / 10 ^ decades e := by
          gcongr; exact decade_gt hp.1 hp.2
  · rw [hn] at hp ⊢
    have := decade_strict (r := d + 10 * decades d) (q := e + 10 * decades d) (by linarith) hp.2
    gcongr

theorem lin_le_one {d : ℚ} (hd : d ≤ 0) : lin d ≤ 1 := by
  rcases hd.lt_or_eq with h | rfl
  · exact (lin_strict h le_rfl).le.trans lin_zero.le
  · exact lin_zero.le

/-- `lin` is close to 10^(d/10) in proportion to it. -/
theorem lin_near {d : ℚ} (hd : d ≤ 0) :
    |(lin d : ℝ) - (10 : ℝ) ^ ((d : ℝ) / 10)| ≤ 2 / 10 ^ 11 * (10 : ℝ) ^ ((d : ℝ) / 10) := by
  obtain ⟨h1, h2⟩ := place hd
  have hc := decade_close h1 h2
  have hg := decade_gt h1 h2
  set n := decades d
  set r : ℚ := d + 10 * n with hr
  have hsplit : (10 : ℝ) ^ ((d : ℝ) / 10) = (10 : ℝ) ^ ((r : ℝ) / 10) / 10 ^ n := by
    rw [← Real.rpow_natCast 10 n, ← Real.rpow_sub (by norm_num)]
    congr 1; rw [hr]; push_cast; ring
  have hlow : (1 : ℝ) / 10 ≤ (10 : ℝ) ^ ((r : ℝ) / 10) := by
    rw [show (1 : ℝ) / 10 = (10 : ℝ) ^ (-1 : ℝ) by rw [Real.rpow_neg_one]; norm_num]
    have : (-10 : ℝ) < r := by exact_mod_cast h1
    exact Real.rpow_le_rpow_of_exponent_le (by norm_num) (by linarith)
  have hlin : (lin d : ℝ) = (decade r : ℝ) / 10 ^ n := by
    rw [lin_at (r := r) rfl rfl]; push_cast; rfl
  have hp : (0 : ℝ) < 10 ^ n := by positivity
  rw [hsplit, hlin, ← sub_div, abs_div, abs_of_pos hp, ← mul_div_assoc]
  gcongr
  linarith

theorem power_le_one {d : ℚ} (hd : d ≤ 0) : (10 : ℝ) ^ ((d : ℝ) / 10) ≤ 1 := by
  have : (d : ℝ) ≤ 0 := by exact_mod_cast hd
  exact Real.rpow_le_one_of_one_le_of_nonpos (by norm_num) (by linarith)

/-- The steps of `db` in one decade of amplitude. -/
def steps : ℕ := 10 ^ 11

theorem steps_cast : (steps : ℝ) = 10 ^ 11 := by norm_num [steps]

/-- Some power of ten brings the amplitude's power to 1. -/
theorem reach {a : ℚ} (ha : 0 < a) : ∃ k : ℕ, 1 ≤ 10 ^ k * a ^ steps := by
  have hp : (0 : ℚ) < a ^ steps := pow_pos ha _
  obtain ⟨k, hk⟩ := pow_unbounded_of_one_lt ((a ^ steps)⁻¹) (by norm_num : (1 : ℚ) < 10)
  exact ⟨k, by rw [← inv_mul_cancel₀ hp.ne']; gcongr⟩

/-- 10·log10 a, rounded down to a multiple of 10^-10. -/
def db (a : ℚ) : ℚ := if h : 0 < a then -(Nat.find (reach h) : ℚ) / 10 ^ 10 else 0

theorem reach_iff {a : ℚ} (ha : 0 < a) (k : ℕ) :
    1 ≤ 10 ^ k * a ^ steps ↔ -(k : ℝ) ≤ 10 ^ 11 * Real.logb 10 a := by
  have ha' : (0 : ℝ) < a := by exact_mod_cast ha
  have hp : (0 : ℝ) < (a : ℝ) ^ steps := pow_pos ha' _
  have h1 : (1 ≤ 10 ^ k * a ^ steps) ↔ (1 : ℝ) ≤ 10 ^ k * (a : ℝ) ^ steps := by
    rw [← Rat.cast_le (K := ℝ)]; push_cast; exact Iff.rfl
  rw [h1, ← Real.logb_nonneg_iff (b := 10) (by norm_num) (by positivity), Real.logb_mul (by positivity) hp.ne',
    Real.logb_pow, Real.logb_pow, Real.logb_self_eq_one (by norm_num)]
  rw [steps_cast]
  constructor <;> intro h <;> linarith

/-- `db` lies at most 10^-10 below the real logarithm. -/
theorem db_bounds {a : ℚ} (ha : 0 < a) (h1 : a ≤ 1) :
    (db a : ℝ) ≤ 10 * Real.logb 10 a ∧ 10 * Real.logb 10 a ≤ (db a : ℝ) + 1 / 10 ^ 10 := by
  have hs := (reach_iff ha _).mp (Nat.find_spec (reach ha))
  have hdb : (db a : ℝ) = -(Nat.find (reach ha) : ℝ) / 10 ^ 10 := by
    rw [db, dif_pos ha]; push_cast; rfl
  have hl : Real.logb 10 a ≤ 0 := by
    have : (0 : ℝ) ≤ a := by exact_mod_cast ha.le
    exact Real.logb_nonpos (by norm_num) this (by exact_mod_cast h1)
  rw [hdb]
  refine ⟨by linarith, ?_⟩
  cases hk : Nat.find (reach ha) with
  | zero => push_cast; linarith
  | succ k =>
    have := mt (reach_iff ha k).mpr (Nat.find_min (reach ha) (by omega))
    push_cast
    linarith [not_le.mp this]

/-- Where 10^11·log10 a is a whole number the rounding is exact. -/
theorem db_exact {a : ℚ} (ha : 0 < a) {k : ℕ} (h : 10 ^ 11 * Real.logb 10 a = -(k : ℝ)) :
    db a = -(k : ℚ) / 10 ^ 10 := by
  have : Nat.find (reach ha) = k := by
    rw [Nat.find_eq_iff]
    refine ⟨(reach_iff ha k).mpr h.ge, fun m hm hc => ?_⟩
    have := (reach_iff ha m).mp hc
    rw [h, neg_le_neg_iff] at this
    exact absurd (by exact_mod_cast this : k ≤ m) (by omega)
  rw [db, dif_pos ha, this]

theorem db_mono {a b : ℚ} (ha : 0 < a) (h : a ≤ b) : db a ≤ db b := by
  have hb := ha.trans_le h
  have : Nat.find (reach hb) ≤ Nat.find (reach ha) := by
    apply Nat.find_mono
    intro k hk
    exact hk.trans (by gcongr)
  have : (Nat.find (reach hb) : ℚ) ≤ Nat.find (reach ha) := by exact_mod_cast this
  rw [db, db, dif_pos ha, dif_pos hb]
  gcongr

theorem db_nonpos (a : ℚ) : db a ≤ 0 := by
  unfold db
  split
  · rw [neg_div]; exact neg_nonpos.mpr (by positivity)
  · exact le_rfl

/-- A value within 2·10^-11 of a power, in proportion, has its exponent within 4·10^-10 as a level. -/
theorem level_near {x y : ℝ} (hy : 0 < y) (h : |x - y| ≤ 2 / 10 ^ 11 * y) :
    |10 * Real.logb 10 x - 10 * Real.logb 10 y| ≤ 4 / 10 ^ 10 := by
  obtain ⟨h1, h2⟩ := abs_le.mp h
  have hx : 0 < x := by nlinarith
  have hl : (1 : ℝ) ≤ Real.log 10 := by
    rw [Real.le_log_iff_exp_le (by norm_num)]
    linarith [Real.exp_one_lt_d9]
  have up : Real.log x - Real.log y ≤ 2 / 10 ^ 11 := by
    rw [← Real.log_div hx.ne' hy.ne']
    have := Real.log_le_sub_one_of_pos (div_pos hx hy)
    have : x / y ≤ 1 + 2 / 10 ^ 11 := by rw [div_le_iff₀ hy]; linarith
    linarith
  have down : Real.log y - Real.log x ≤ 4 / 10 ^ 11 := by
    rw [← Real.log_div hy.ne' hx.ne']
    have := Real.log_le_sub_one_of_pos (div_pos hy hx)
    have : y / x ≤ 1 + 4 / 10 ^ 11 := by rw [div_le_iff₀ hx]; nlinarith
    linarith
  have hlog : |Real.log x - Real.log y| ≤ 4 / 10 ^ 11 := abs_le.mpr ⟨by linarith, by linarith⟩
  rw [Real.logb, Real.logb, ← mul_sub, ← sub_div, abs_mul, abs_div, abs_of_pos (by norm_num : (0 : ℝ) < 10),
    abs_of_pos (by linarith : 0 < Real.log 10)]
  have : |Real.log x - Real.log y| / Real.log 10 ≤ 4 / 10 ^ 11 := by
    rw [div_le_iff₀ (by linarith)]; nlinarith
  linarith

theorem db_lin {d : ℚ} (hd : d ≤ 0) : |db (lin d) - d| ≤ 1 / 10 ^ 9 := by
  have hb := db_bounds (lin_pos hd) (lin_le_one hd)
  have hn := level_near (Real.rpow_pos_of_pos (by norm_num) _) (lin_near hd)
  rw [Real.logb_rpow (by norm_num) (by norm_num), show 10 * ((d : ℝ) / 10) = d by ring] at hn
  obtain ⟨h1, h2⟩ := abs_le.mp hn
  have : |(db (lin d) : ℝ) - d| ≤ 1 / 10 ^ 9 := abs_le.mpr ⟨by linarith [hb.2], by linarith [hb.1]⟩
  rw [← Rat.cast_le (K := ℝ)]
  push_cast
  exact this

theorem lin_db {a : ℚ} (ha : 0 < a) (h1 : a ≤ 1) : |lin (db a) - a| ≤ 1 / 10 ^ 9 := by
  have hb := db_bounds ha h1
  have ha' : (0 : ℝ) < a := by exact_mod_cast ha
  have ha1 : (a : ℝ) ≤ 1 := by exact_mod_cast h1
  have hn := lin_near (db_nonpos a)
  have hle := power_le_one (db_nonpos a)
  have hpow : (10 : ℝ) ^ (Real.logb 10 a) = a := Real.rpow_logb (by norm_num) (by norm_num) ha'
  have up : (10 : ℝ) ^ ((db a : ℝ) / 10) ≤ a := by
    refine le_of_le_of_eq ?_ hpow
    exact Real.rpow_le_rpow_of_exponent_le (by norm_num) (by linarith [hb.1])
  have down : (a : ℝ) - 9 / 10 ^ 11 ≤ (10 : ℝ) ^ ((db a : ℝ) / 10) := by
    obtain ⟨e, he⟩ : ∃ e : ℝ, e = 1 / 10 ^ 11 := ⟨_, rfl⟩
    have h2 : (10 : ℝ) ^ (Real.logb 10 a + -e) ≤ (10 : ℝ) ^ ((db a : ℝ) / 10) :=
      Real.rpow_le_rpow_of_exponent_le (by norm_num) (by rw [he]; linarith [hb.2])
    have h3 : 1 - 9 * e ≤ (10 : ℝ) ^ (-e) := by
      have hl : Real.log 10 ≤ 9 := by
        have := Real.log_le_sub_one_of_pos (by norm_num : (0 : ℝ) < 10); linarith
      have := Real.add_one_le_exp (Real.log 10 * -e)
      have h0 : 0 ≤ e := by rw [he]; positivity
      rw [Real.rpow_def_of_pos (by norm_num)]
      nlinarith
    rw [Real.rpow_add (by norm_num), hpow] at h2
    have h0 : (9 : ℝ) / 10 ^ 11 = 9 * e := by rw [he]; ring
    have : 0 ≤ e := by rw [he]; positivity
    rw [h0]
    nlinarith
  obtain ⟨h4, h5⟩ := abs_le.mp hn
  have : |(lin (db a) : ℝ) - a| ≤ 1 / 10 ^ 9 := abs_le.mpr ⟨by linarith, by linarith⟩
  rw [← Rat.cast_le (K := ℝ)]
  push_cast
  exact this

theorem laws : DecibelLaws lin db where
  lin_zero := lin_zero
  lin_minus_ten := lin_minus_ten
  lin_minus_twenty := lin_minus_twenty
  lin_strict _ _ := lin_strict
  lin_pos _ := lin_pos
  lin_le_one _ := lin_le_one
  lin_close d hd := by
    have := lin_near hd
    have := power_le_one hd
    linarith
  db_one := by
    rw [db_exact (k := 0) one_pos (by simp)]; norm_num
  db_tenth := by
    rw [db_exact (k := 10 ^ 11) (by norm_num)]
    · norm_num
    · rw [show (((1 / 10 : ℚ)) : ℝ) = 10⁻¹ by norm_num, Real.logb_inv, Real.logb_self_eq_one (by norm_num)]; norm_num
  db_hundredth := by
    rw [db_exact (k := 2 * 10 ^ 11) (by norm_num)]
    · norm_num
    · rw [show (((1 / 100 : ℚ)) : ℝ) = ((10 : ℝ) ^ (2 : ℕ))⁻¹ by norm_num, Real.logb_inv, Real.logb_pow,
        Real.logb_self_eq_one (by norm_num)]
      norm_num
  db_mono _ _ ha h _ := db_mono ha h
  db_nonpos a _ _ := db_nonpos a
  db_close a ha h1 := by
    have hb := db_bounds ha h1
    exact abs_le.mpr ⟨by linarith [hb.2], by linarith [hb.1]⟩
  db_lin _ := db_lin
  lin_db _ := lin_db

def pair : Decibels := ⟨lin, db, laws⟩

end DecibelWitness

end Sys2Proof.Config
end

