-- ==== Sys2Proof/Machine/Ports.lean ====
section
/-! DEFINITION. The types of the block's ports and registers: the transactions of the two downstream ports, the
responses of the command port, the device-side registers, the controller registers and the launch parameters. -/

namespace Sys2Proof.Machine

/-! ## Downstream ports -/

/-- A DDS channel (t, I) or (t, Q) (00_scope R10). -/
structure ChanId where
  tone : Tone
  chan : Chan
  deriving DecidableEq, Repr, Inhabited

/-- The attributes of a DDS channel (10_state R30). Their names on the port are open (00_scope R7). -/
inductive Attr where
  | freq
  | phase
  | scale
  | fs
  deriving DecidableEq, Repr, Inhabited

/-- The string-valued FIR attributes FIR_EN_ATTR and FIR_BLOB_ATTR (10_state R34, R35). -/
inductive FirAttr where
  | enable
  | blob
  deriving DecidableEq, Repr, Inhabited

/-- The registers the block writes (20_memory R52, 10_state R32). -/
inductive WriteReg where
  | coeffAddr (p : Path)
  | writeLo (p : Path)
  | writeHi (p : Path)
  | firConfig (p : Path)
  | firGain
  deriving DecidableEq, Repr, Inhabited

/-- The registers the block reads (20_memory R52, 10_state R32). -/
inductive ReadReg where
  | readLo (p : Path)
  | readHi (p : Path)
  deriving DecidableEq, Repr, Inhabited

/-- One downstream transaction (00_scope R10). -/
inductive Transaction where
  | attrGet (ch : ChanId) (a : Attr)
  | attrSet (ch : ChanId) (a : Attr) (v : Rat)
  | attrSetS (a : FirAttr) (v : String)
  | regRead (r : ReadReg)
  | regWrite (r : WriteReg) (v : Byte)
  deriving DecidableEq, Repr, Inhabited

/-- What the transport makes of one transaction (60_exceptions R205): it is done, or it fails, and then a write may
or may not have taken effect. -/
inductive Draw where
  | done
  | failed (tookEffect : Bool)
  deriving DecidableEq, Repr, Inhabited

/-- What must be present on the platform when the block is constructed (70_reset R232, 60_exceptions R203). -/
inductive Handle where
  | ddsDevice
  | channel (ch : ChanId)
  | transceiver
  | channelAttr (ch : ChanId) (a : Attr)
  | firAttribute (a : FirAttr)
  deriving DecidableEq, Repr, Inhabited

/-! ## Responses -/

/-- The error kinds (60_exceptions R200). -/
inductive ErrKind where
  | range
  | validation
  | notFound
  | transport
  | illegalCommand
  deriving DecidableEq, Repr, Inhabited

/-- What an error carries (60_exceptions R201 to R205). -/
inductive Info where
  /-- A bound: Fs/2 in MHz, or the level 0 dB. -/
  | bound (q : Rat)
  /-- A closed interval of legal values. -/
  | interval (lo hi : Rat)
  /-- The legal values, listed. -/
  | legal (qs : List Rat)
  /-- The offending integer. -/
  | int (z : Int)
  /-- The offending symbol. -/
  | symbol (s : Symbol)
  /-- The name that is absent. -/
  | name (s : String)
  /-- The transaction that failed. -/
  | transaction (x : Transaction)
  /-- The opcode of an illegal command. -/
  | opcode (b : Byte)
  deriving DecidableEq, Repr, Inhabited

/-- A command's result (10_state R24). -/
inductive Value where
  | unit
  | num (q : Rat)
  | bool (b : Bool)
  | int (z : Int)
  | byte (b : Byte)
  | bytes (hi lo : Byte)
  /-- FIR.BUILDCFG: the configuration word and, on RX, the gain code (42_fir_codec R153). -/
  | config (cfg : Byte) (gain : Option (BitVec 2))
  | taps (c : List Int)
  /-- TONE.STATUS: amplitude, frequency, phase (40_dds_tone R109). -/
  | status (amplitude frequency phase : Rat)
  /-- DDS.STATUS: frequency, unit, phase, level, unit (41_dual_tone R134). -/
  | report (frequency : Rat) (frequencyUnit : String) (phase : Rat) (level : Rat) (levelUnit : String)
  deriving DecidableEq, Repr, Inhabited

/-- What RESP holds after a command (10_state R24). -/
inductive Response where
  | ok (v : Value)
  | err (kind : ErrKind) (info : Info)
  deriving DecidableEq, Repr, Inhabited

/-! ## Device-side registers (10_state section 2) -/

/-- The attributes of one DDS channel (R30). -/
structure Channel where
  freq : Rat
  phase : Rat
  scale : Rat
  fs : Rat
  deriving DecidableEq, Repr, Inhabited

/-- The DDS core: two tones of two channels (R30). -/
abbrev Dds := PerTone (PerChan Channel)

/-- The registers and the bank of one FIR path (R32, R33; 20_memory R58 names them). READ_REG is not here: it shows
the selected slot. -/
structure FirPath where
  addr : Byte
  wlo : Byte
  whi : Byte
  cfg : Byte
  bank : Vector Tap 128
  deriving DecidableEq, Repr, Inhabited

/-- The registers of both paths and FIR_GAIN, which RX alone has (R32). -/
structure FirRegs where
  paths : PerPath FirPath
  gain : Byte
  deriving DecidableEq, Repr, Inhabited

/-- The FIR device with its two attributes (R34, R35). -/
structure Fir where
  regs : FirRegs
  enable : String
  blob : String
  deriving DecidableEq, Repr, Inhabited

/-- Everything on the device side (10_state section 2): the launch value DEV0 is one of these. -/
structure Device where
  dds : Dds
  fir : Fir
  deriving DecidableEq, Repr, Inhabited

/-! ## Controller registers (10_state section 1) -/

/-- The controller registers of one tone (R20). -/
structure ToneRegs where
  sb : Sideband
  muted : Bool
  cache : Rat
  deriving DecidableEq, Repr, Inhabited

/-- SEQ, the position of the FIR sequencer (R25). -/
inductive Seq where
  | idle
  | disabled
  | clockRunning
  | writeEnabled
  | loop (i : Fin 128)
  | writeDisabled
  | clockStopped
  | enabled
  | readTrigger
  | readLoop (i : Fin 128)
  deriving DecidableEq, Repr, Inhabited

/-- How the construction of the block ended (70_reset R232, U20). -/
inductive Boot where
  /-- Reset completed: the block accepts commands. -/
  | ready
  /-- Reset ended with TransportError: no guarantee until a new reset completes. -/
  | failed
  /-- Reset ended with NotFoundError for this handle: the block accepts no command. -/
  | absent (h : Handle)
  deriving DecidableEq, Repr, Inhabited

/-! ## Launch parameters (00_scope R7) -/

/-- The DDS's coercion of written values: the ideal instance of 10_state R31, or the open functions of R7. -/
inductive Coercion where
  | ideal
  | device
  deriving DecidableEq, Repr, Inhabited

/-- The FIR device: FIRDEV_ref of 20_memory R58, or another FIRDEV (R7, D30). -/
inductive FirDevice where
  | reference
  | other
  deriving DecidableEq, Repr, Inhabited

/-- The launch parameters that the spec gives a named instance of, or that are plain data. No step changes them. -/
structure Setup where
  coercion : Coercion
  firDevice : FirDevice
  /-- The file store that FIR.LOADFILE reads: names with their blobs (R7, D28). -/
  files : List (String × String)
  /-- What the platform lacks (70_reset R232). -/
  absent : List Handle
  deriving DecidableEq, Repr, Inhabited

/-! ## Inputs of the block -/

/-- What can arrive at the block from outside. -/
inductive Input where
  /-- The host issues a command (R70). -/
  | command (c : RawCommand)
  /-- The block is constructed anew (70_reset R230). -/
  | reset
  /-- An agent outside the block changes a channel's sampling frequency (70_reset R242). -/
  | samplingRate (ch : ChanId) (fs : Rat)
  /-- A second agent issues a command or a transaction to the device (60_exceptions R211). -/
  | secondAgent
  deriving DecidableEq, Repr, Inhabited

/-- What is unknown after a reset that ended with TransportError (70_reset R232 item 2, U20). -/
structure Unknown where
  tones : PerTone ToneRegs
  resp : Option Response
  seq : Seq
  indet : PerPath Bool
  dds : Dds
  fir : Fir
  trace : List Transaction
  deriving DecidableEq, Repr, Inhabited

end Sys2Proof.Machine
end

