-- ==== Sys2Proof/Config.lean ====
section
/-! DEFINITION. The open parameters of 00_scope R7 and the free values: opaque constants without a body, so that no
proof can see what they are and a claim holds whatever they are. -/

namespace Sys2Proof.Config

open Sys2Proof.Machine

/-! ## Launch values -/

/-- DEV0: the initial value of every device-side attribute and register (70_reset R233, D39, U11). -/
opaque dev0 : Device

/-- The launch parameters a run from reset has (R7). -/
opaque launch : Setup

/-! ## The transport (60_exceptions R205) -/

/-- The n-th free draw: whether this transaction fails and whether a failing write took effect (R7 `fail`, D29, U3). -/
opaque draw : Nat → Transaction → Draw

/-! ## Numeric parameters -/

/-- `coerceFreq` of R7, rational >= 0 to rational >= 0. -/
opaque coerceFreq : Rat → NNRat

/-- `coercePhase` of R7. -/
opaque coercePhase : Rat → Rat

/-- `coerceScale` of R7. -/
opaque coerceScale : Rat → Rat

/-- A free choice among the pairs of conversions that obey the laws of R11. -/
opaque pickDecibels : [Inhabited Decibels] → Decibels

/-- The conversions of R11: some pair with its laws, no more known of it. -/
def decibels : Decibels := @pickDecibels ⟨DecibelWitness.pair⟩

/-- `dbToLin(d)`, which stands for 10^(d/10), d ≤ 0 (R11, D4). -/
def dbToLin (d : Rat) : Rat := decibels.toLin d

/-- `linToDb(a)`, which stands for 10*log10(a) and lies within 1e-9 of it, 0 < a ≤ 1 (R11, D4). Outside that range its value is free (log
entry 12). -/
def linToDb (a : Rat) : Rat := decibels.toDb a

/-! ## Names and widths -/

/-- ATTR_FREQ, ATTR_PHASE, ATTR_SCALE and ATTR_FS: one name each, the same on every channel (R7, 10_state R30, D37). -/
opaque attrName : Attr → String

/-- FIR_EN_ATTR and FIR_BLOB_ATTR (R7, D28, D37). -/
opaque firAttrName : FirAttr → String

/-- The names of the DDS device and of the transceiver (70_reset R232). -/
opaque ddsDeviceName : String

opaque transceiverName : String

/-- The name of a DDS channel (70_reset R232). -/
opaque channelName : ChanId → String

/-- The name a NotFoundError at reset carries: that of the device, channel or attribute that is absent
(60_exceptions R203). -/
def handleName : Handle → String
  | .ddsDevice => ddsDeviceName
  | .channel ch => channelName ch
  | .transceiver => transceiverName
  | .channelAttr _ a => attrName a
  | .firAttribute a => firAttrName a

/-- How much wider than 8 bits a register address is. -/
opaque regAddrExtra : Nat

/-- REG_ADDR_W, at least 8 (20_memory R50, D32). -/
def regAddrW : Nat := 8 + regAddrExtra

/-! ## The FIR device -/

/-- A FIRDEV other than the reference one: its reaction to a register write (R7, D30, U4 to U8). -/
opaque firDevWrite : FirRegs → WriteReg → Byte → FirRegs

/-- A FIRDEV other than the reference one: what a register read shows. -/
opaque firDevRead : FirRegs → ReadReg → Byte

/-- `blobEffect(b)`: the registers and banks of both paths after a write of the blob b (R7, 10_state R35, U9). -/
opaque blobEffect : String → FirRegs

/-! ## Free values after a transport failure -/

/-- The registers and the bank of a path left in an indeterminate state (10_state R26, U2). -/
opaque indetPath : Nat → Path → FirPath

/-- FIR_GAIN while the RX path is left in an indeterminate state (10_state R26, U2). -/
opaque indetGain : Nat → Byte

/-- FIR_EN while a path is left in an indeterminate state (10_state R26, U2). -/
opaque indetEnable : Nat → String

/-- What a read of an indeterminate path shows (10_state R26, U2). -/
opaque indetRead : Nat → ReadReg → Byte

/-- What a command leaves and answers after a reset that ended with TransportError (U20). -/
opaque unknown : Nat → Unknown

/-! ## The NCO output (40_dds_tone R124, D31, U15) -/

/-- WAVE, cos by default. -/
opaque wave : ℝ → ℝ

/-- SAMPLE_W, the width of an emitted sample. -/
opaque sampleW : Nat

/-- PACC_W, the width of the phase accumulator. -/
opaque paccW : Nat

/-- `quantise`: rounding to a SAMPLE_W-bit signed sample. -/
opaque quantise : ℝ → BitVec sampleW

/-- The sample emitted while the sampling frequency is 0, which R124 gives no value. -/
opaque sampleWithoutRate : Nat → Chan → BitVec sampleW

/-- The sample emitted while a command runs, between its I and its Q writes perhaps: any value (70_reset R235, U15). -/
opaque sampleInWindow : Nat → Nat → Chan → BitVec sampleW

end Sys2Proof.Config
end

