-- ==== Sys2Proof/Machine/Numeric.lean ====
section
/-! DEFINITION. The named numeric functions of 00_scope R11 and the coercion of written attribute values
(10_state R31). -/

namespace Sys2Proof.Machine

/-- `normalize(x) = x - 360*floor(x/360)`, in [0, 360) (R11). -/
def normalizePhase (x : Rat) : Rat := x - 360 * (x / 360).floor

/-- `sb(f)`: the sideband sign of a commanded frequency; zero counts as positive (R11). -/
def sidebandOf (f : Rat) : Sideband := if f < 0 then .minus else .plus

/-- `deriveQPhase(phaseI, s) = normalize(phaseI - s*90)` (R11). -/
def deriveQPhase (phaseI : Rat) (s : Sideband) : Rat := normalizePhase (phaseI - s.sign * 90)

/-- The sideband the two phases show: positive when their normalized difference is below 180 (40_dds_tone R108). -/
def shownSideband (phaseI phaseQ : Rat) : Sideband := if normalizePhase (phaseI - phaseQ) < 180 then .plus else .minus

/-- The value the DDS commits when `v` is written to an attribute (10_state R31). The block never writes ATTR_FS
(R30). -/
def coerce (c : Coercion) (a : Attr) (v : Rat) : Rat :=
  match c with
  | .ideal => v
  | .device =>
    match a with
    | .freq => Config.coerceFreq v
    | .phase => Config.coercePhase v
    | .scale => Config.coerceScale v
    | .fs => v

end Sys2Proof.Machine
end

