-- ==== Sys2Proof/Machine/State.lean ====
section
/-! DEFINITION. The state of the machine, its faults and refusals, and the state right after reset. -/

namespace Sys2Proof.Machine

/-- The whole state: the controller registers and the device-side registers of 10_state, the inputs waiting at the
block, the launch parameters, and three fields of the model's own (`transport`, `draws`, `trace`). -/
structure State where
  /-- SB, MUTED and CACHE of each tone (R20). -/
  tones : PerTone ToneRegs
  /-- RESP (R24). -/
  resp : Option Response
  /-- SEQ (R25). -/
  seq : Seq
  /-- INDET[p] (R26). -/
  indet : PerPath Bool
  /-- How construction ended (70_reset R232). -/
  boot : Boot
  /-- The DDS attributes (R30). -/
  dds : Dds
  /-- The FIR registers, banks and attributes (R32 to R35). -/
  fir : Fir
  /-- The inputs waiting at the block, oldest first (20_memory R59: commands are processed in the order issued). -/
  port : List Input
  /-- The launch parameters (00_scope R7). -/
  setup : Setup
  /-- The model's own: the outcomes of the next transactions as far as they are scripted (log entry 7). -/
  transport : List Draw
  /-- The model's own: how many free values were drawn (log entry 7). -/
  draws : Nat
  /-- The model's own: the transactions of the last command, oldest first (log entry 13). -/
  trace : List Transaction
  deriving DecidableEq, Repr, Inhabited

/-- Why the machine stops. -/
inductive Fault where
  /-- Raised by the step when a command waits at a block whose reset ended with NotFoundError: "the block accepts no
  command" (70_reset R232 item 1, U20: stuck). Safe: nothing is claimed of what follows. -/
  | notConstructed (h : Handle)
  deriving DecidableEq, Repr, Inhabited

/-- Why the model gives no next state. -/
inductive Refusal where
  /-- Raised by `exec` for an instruction that has no meaning yet. Safe. -/
  | notModelled (mnemonic : String)
  /-- Raised by the step for a second agent's traffic: "a model refuses such a run" (60_exceptions R211, U1). Safe. -/
  | secondAgent
  deriving DecidableEq, Repr, Inhabited

/-- The eight transactions of a reset that completed (70_reset R231), tone 1 first. -/
def resetTrace : List Transaction :=
  [ .attrGet ⟨.one, .i⟩ .phase, .attrGet ⟨.one, .q⟩ .phase, .attrSet ⟨.one, .i⟩ .scale 0, .attrSet ⟨.one, .q⟩ .scale 0,
    .attrGet ⟨.two, .i⟩ .phase, .attrGet ⟨.two, .q⟩ .phase, .attrSet ⟨.two, .i⟩ .scale 0, .attrSet ⟨.two, .q⟩ .scale 0 ]

/-- The controller registers reset gives a tone with these channels (70_reset R231). -/
def resetTone (t : PerChan Channel) : ToneRegs := ⟨shownSideband t.i.phase t.q.phase, true, 0⟩

/-- The channels of a tone after reset wrote scale 0 to both (70_reset R231, 10_state R31). -/
def resetChannels (c : Coercion) (t : PerChan Channel) : PerChan Channel :=
  ⟨{ t.i with scale := coerce c .scale 0 }, { t.q with scale := coerce c .scale 0 }⟩

/-- The machine after power-on, before its reset: the device holds DEV0, everything the platform needs is present,
and the reset is the first input. The controller registers have no value the spec gives; reset writes them all. -/
def State.powerOn : State where
  tones := default
  resp := none
  seq := .idle
  indet := ⟨false, false⟩
  boot := .failed
  dds := Config.dev0.dds
  fir := Config.dev0.fir
  port := [.reset]
  setup := { Config.launch with absent := [] }
  transport := []
  draws := 0
  trace := []

/-- The machine right after a reset that completed (70_reset R230). Every device-side value the block has not written
is DEV0's (R233). -/
def State.reset : State where
  tones := ⟨resetTone Config.dev0.dds.one, resetTone Config.dev0.dds.two⟩
  resp := none
  seq := .idle
  indet := ⟨false, false⟩
  boot := .ready
  dds := ⟨resetChannels Config.launch.coercion Config.dev0.dds.one, resetChannels Config.launch.coercion Config.dev0.dds.two⟩
  fir := Config.dev0.fir
  port := []
  setup := { Config.launch with absent := [] }
  transport := []
  draws := 8
  trace := resetTrace

end Sys2Proof.Machine
end

