-- ==== Sys2Proof/Machine/FirDevice.lean ====
section
/-! DEFINITION. The register map of 20_memory R52 and the reaction of the FIR device to register traffic (R56, R58). -/

namespace Sys2Proof.Machine

/-- The address of a register the block writes (R52). -/
def WriteReg.addr : WriteReg → Nat
  | .coeffAddr .tx => 0x60
  | .writeLo .tx => 0x61
  | .writeHi .tx => 0x62
  | .firConfig .tx => 0x65
  | .coeffAddr .rx => 0xF0
  | .writeLo .rx => 0xF1
  | .writeHi .rx => 0xF2
  | .firConfig .rx => 0xF5
  | .firGain => 0xF6

/-- The address of a register the block reads (R52). -/
def ReadReg.addr : ReadReg → Nat
  | .readLo .tx => 0x63
  | .readHi .tx => 0x64
  | .readLo .rx => 0xF3
  | .readHi .rx => 0xF4

/-- The path whose slot a read register shows. -/
def ReadReg.path : ReadReg → Path
  | .readLo p => p
  | .readHi p => p

/-- The slot COEFF_ADDR selects: its bits [6:0] (R58, 10_state R32). -/
def FirPath.slot (x : FirPath) : Fin 128 := (x.addr.extractLsb' 0 7).toFin

/-- The tap in the write registers: `WHI || WLO` (R58, R53). -/
def FirPath.pending (x : FirPath) : Tap := x.whi ++ x.wlo

/-- The pending tap is committed to the selected slot (R56, R58). -/
def FirPath.commit (x : FirPath) : FirPath := { x with bank := x.bank.set x.slot.val x.pending x.slot.isLt }

/-- A write of FIR_CONFIG: a word with write-enable and clock-enable commits the pending tap (R58). -/
def FirPath.writeConfig (x : FirPath) (v : Byte) : FirPath :=
  if v.getLsbD 2 && v.getLsbD 1 then { x with cfg := v }.commit else { x with cfg := v }

/-- The slot COEFF_ADDR selects, as its 16-bit pattern. -/
def FirPath.selected (x : FirPath) : Tap := x.bank[x.slot.val]'x.slot.isLt

/-- READ_REG: bits [7:0] of the selected slot (R58). -/
def FirPath.readLo (x : FirPath) : Byte := x.selected.extractLsb' 0 8

/-- READ_REG+1: bits [15:8] of the selected slot (R58). -/
def FirPath.readHi (x : FirPath) : Byte := x.selected.extractLsb' 8 8

/-- One path's registers and bank changed. -/
def FirRegs.setPath (r : FirRegs) (p : Path) (x : FirPath) : FirRegs := { r with paths := r.paths.set p x }

/-- FIRDEV_ref: a register write (R58). -/
def FirRegs.refWrite (r : FirRegs) (reg : WriteReg) (v : Byte) : FirRegs :=
  match reg with
  | .coeffAddr p => r.setPath p { r.paths.get p with addr := v }
  | .writeLo p => r.setPath p { r.paths.get p with wlo := v }
  | .writeHi p => r.setPath p { r.paths.get p with whi := v }
  | .firConfig p => r.setPath p ((r.paths.get p).writeConfig v)
  | .firGain => { r with gain := v }

/-- FIRDEV_ref: a register read, which changes nothing (R56, R58). -/
def FirRegs.refRead (r : FirRegs) (reg : ReadReg) : Byte :=
  match reg with
  | .readLo p => (r.paths.get p).readLo
  | .readHi p => (r.paths.get p).readHi

/-- The FIR device's reaction to a register write (00_scope R7 FIRDEV, D30). -/
def FirRegs.write (d : FirDevice) (r : FirRegs) (reg : WriteReg) (v : Byte) : FirRegs :=
  match d with
  | .reference => r.refWrite reg v
  | .other => Config.firDevWrite r reg v

/-- What the FIR device shows to a register read (00_scope R7 FIRDEV, D30). Reads have no side effect (R56). -/
def FirRegs.read (d : FirDevice) (r : FirRegs) (reg : ReadReg) : Byte :=
  match d with
  | .reference => r.refRead reg
  | .other => Config.firDevRead r reg

end Sys2Proof.Machine
end

