-- ==== Sys2Proof/Machine/Ops.lean ====
section
/-! DEFINITION. The named operations: a command as a program over the state that ends with a value or an error, the
downstream transactions, the end of a command (its one way of reporting a result or taking an error), what a transport
failure leaves, and reset. -/

namespace Sys2Proof.Machine

/-- How a command ends when it raises (00_scope R10): a kind and what it carries (60_exceptions R200). -/
structure Failure where
  kind : ErrKind
  info : Info
  deriving DecidableEq, Repr, Inhabited

/-- A command's pseudocode: it runs on the state and ends with a value or raises; effects made before a raise stay
made (00_scope R10). -/
abbrev Cmd := EStateM Failure State

/-- `raise E(info)` (00_scope R10). -/
def raise {α : Type} (kind : ErrKind) (info : Info) : Cmd α := throw ⟨kind, info⟩

/-- A change of the state that makes no transaction. -/
def update (f : State → State) : Cmd Unit := modify f

/-! ## Registers -/

def State.setTone (s : State) (t : Tone) (r : ToneRegs) : State := { s with tones := s.tones.set t r }

def State.channel (s : State) (ch : ChanId) : Channel := (s.dds.get ch.tone).get ch.chan

def State.setChannel (s : State) (ch : ChanId) (x : Channel) : State :=
  { s with dds := s.dds.set ch.tone ((s.dds.get ch.tone).set ch.chan x) }

/-- The value an attribute holds (10_state R30). -/
def Channel.get (x : Channel) : Attr → Rat
  | .freq => x.freq
  | .phase => x.phase
  | .scale => x.scale
  | .fs => x.fs

/-- An attribute holds a new value. -/
def Channel.put (x : Channel) : Attr → Rat → Channel
  | .freq, v => { x with freq := v }
  | .phase, v => { x with phase := v }
  | .scale, v => { x with scale := v }
  | .fs, v => { x with fs := v }

/-- A written attribute holds the coerced value (10_state R31). -/
def State.storeAttr (s : State) (ch : ChanId) (a : Attr) (v : Rat) : State :=
  s.setChannel ch ((s.channel ch).put a (coerce s.setup.coercion a v))

/-- A written FIR attribute holds the string; a blob also gives the registers and banks of both paths what
`blobEffect` says (10_state R34, R35). -/
def State.storeFirAttr (s : State) (a : FirAttr) (v : String) : State :=
  match a with
  | .enable => { s with fir := { s.fir with enable := v } }
  | .blob => { s with fir := { s.fir with blob := v, regs := Config.blobEffect v } }

/-- The FIR device reacts to a register write (20_memory R58). -/
def State.storeReg (s : State) (r : WriteReg) (v : Byte) : State :=
  { s with fir := { s.fir with regs := s.fir.regs.write s.setup.firDevice r v } }

/-- What a register read shows: the device's byte, or a free one while the path is indeterminate (20_memory R58,
10_state R26, log entry 9). -/
def State.showReg (s : State) (r : ReadReg) : Byte :=
  if s.indet.get r.path then Config.indetRead s.draws r else s.fir.regs.read s.setup.firDevice r

/-! ## Transactions (00_scope R10, 60_exceptions R205) -/

/-- What the transport makes of the next transaction: the scripted outcome, or a free draw where none is scripted. -/
def State.outcome (s : State) (x : Transaction) : Draw :=
  match s.transport with
  | d :: _ => d
  | [] => Config.draw s.draws x

/-- The transaction is issued: it stands in the trace and uses up one outcome. -/
def State.issue (s : State) (x : Transaction) : State :=
  { s with trace := s.trace ++ [x], transport := s.transport.tail, draws := s.draws + 1 }

/-- A transaction that failed ends the command with TransportError, which carries it (R205 item 3). -/
def transportError (x : Transaction) : Failure := ⟨.transport, .transaction x⟩

/-- A reading transaction: a failing read returns no value (R205 item 2). -/
def readTransaction {α : Type} (x : Transaction) (value : State → α) : Cmd α := fun s =>
  match s.outcome x with
  | .done => .ok (value s) (s.issue x)
  | .failed _ => .error (transportError x) (s.issue x)

/-- A writing transaction: a failing write may or may not have taken effect (R205 item 2). -/
def writeTransaction (x : Transaction) (effect : State → State) : Cmd Unit := fun s =>
  match s.outcome x with
  | .done => .ok () (effect (s.issue x))
  | .failed true => .error (transportError x) (effect (s.issue x))
  | .failed false => .error (transportError x) (s.issue x)

/-- `AttrGet(ch, name)`. -/
def attrGet (ch : ChanId) (a : Attr) : Cmd Rat := readTransaction (.attrGet ch a) fun s => (s.channel ch).get a

/-- `AttrSet(ch, name, v)`. -/
def attrSet (ch : ChanId) (a : Attr) (v : Rat) : Cmd Unit :=
  writeTransaction (.attrSet ch a v) fun s => s.storeAttr ch a v

/-- `AttrSetS(name, s)`. -/
def attrSetS (a : FirAttr) (v : String) : Cmd Unit := writeTransaction (.attrSetS a v) fun s => s.storeFirAttr a v

/-- `RegRead(addr)`. -/
def regRead (r : ReadReg) : Cmd Byte := readTransaction (.regRead r) fun s => s.showReg r

/-- `RegWrite(addr, v)`. -/
def regWrite (r : WriteReg) (v : Byte) : Cmd Unit := writeTransaction (.regWrite r v) fun s => s.storeReg r v

/-- `SEQ <- x` (10_state R25). -/
def setSeq (x : Seq) : Cmd Unit := update fun s => { s with seq := x }

/-! ## The end of a command -/

/-- The code of an error kind (60_exceptions R200, D34). -/
def ErrKind.code : ErrKind → Nat
  | .range => 1
  | .validation => 2
  | .notFound => 3
  | .transport => 4
  | .illegalCommand => 5

/-- The code of a response: 0 means ok (60_exceptions R200). -/
def Response.code : Response → Nat
  | .ok _ => 0
  | .err kind _ => kind.code

/-- RESP receives the response (10_state R24). -/
def State.respond (s : State) (r : Response) : State := { s with resp := some r }

/-- Taking an error: a command that fails ends with `RESP <- err(kind, info)`, and nothing else is saved
(60_exceptions R200, R207). -/
def State.takeError (s : State) (e : Failure) : State := s.respond (.err e.kind e.info)

/-- A command starts: nothing is issued yet. -/
def State.begin (s : State) : State := { s with trace := [] }

/-- A command runs to completion (00_scope R3) and leaves its value or its error in RESP (10_state R24). -/
def State.complete (s : State) (c : Cmd Value) : State :=
  match c s.begin with
  | .ok v s' => s'.respond (.ok v)
  | .error e s' => s'.takeError e

/-- The meaning of a command whose pseudocode is `c`: always a next state, since an error is a response. -/
def run (c : Cmd Value) (s : State) : Host.Outcome State Fault Refusal := .next (s.complete c)

/-- A command the decoder turned away: err(IllegalCommand, OPC), no transaction, no state change (30_encoding R78,
60_exceptions R204). -/
def State.refuseCommand (s : State) (opc : Byte) : State := s.begin.takeError ⟨.illegalCommand, .opcode opc⟩

/-! ## Indeterminate paths (10_state R26, 60_exceptions R205 item 5, U2) -/

/-- What is unknown while a path is indeterminate: the registers and the bank of each such path, FIR_GAIN if it is RX,
and FIR_EN hold free values (log entry 9). Nothing changes where no path is indeterminate. -/
def State.blur (s : State) : State :=
  if s.indet.tx || s.indet.rx then
    { s with
      fir :=
        { s.fir with
          enable := Config.indetEnable s.draws
          regs :=
            { paths :=
                ⟨if s.indet.tx then Config.indetPath s.draws .tx else s.fir.regs.paths.tx,
                  if s.indet.rx then Config.indetPath s.draws .rx else s.fir.regs.paths.rx⟩
              gain := if s.indet.rx then Config.indetGain s.draws else s.fir.regs.gain } }
      draws := s.draws + 1 }
  else s

/-- `INDET[p] <- true` for the paths of a FIR command that was cut short. -/
def State.markIndet (s : State) (ps : List Path) : State :=
  { s with indet := ps.foldl (fun x p => x.set p true) s.indet }

/-- A FIR command on the paths `ps`: on a TransportError each of them becomes indeterminate and SEQ keeps the state
reached (R205 item 5). Whether it was cut short or completed, what it wrote to a path that is indeterminate after it, and
to FIR_EN, is unknown (R26). A command turned away before any transaction leaves the device alone. -/
def onPaths {α : Type} (ps : List Path) (c : Cmd α) : Cmd α := fun s =>
  match c s with
  | .ok v s' => .ok v s'.blur
  | .error e s' => .error e (if e.kind = .transport then (s'.markIndet ps).blur else s')

/-- `INDET[p] <- false`. -/
def clearIndet (p : Path) : Cmd Unit := update fun s => { s with indet := s.indet.set p false }

/-! ## Reset (70_reset R230 to R232) -/

/-- `tone_reset(t)` (R231). -/
def toneReset (t : Tone) : Cmd Unit := do
  let pI ← attrGet ⟨t, .i⟩ .phase
  let pQ ← attrGet ⟨t, .q⟩ .phase
  update fun s => s.setTone t { s.tones.get t with sb := shownSideband pI pQ }
  attrSet ⟨t, .i⟩ .scale 0
  attrSet ⟨t, .q⟩ .scale 0
  update fun s => s.setTone t { s.tones.get t with cache := 0 }
  update fun s => s.setTone t { s.tones.get t with muted := true }

/-- The attributes of a channel that the block needs: it reads or writes them (10_state R30). Of the Q channels it never
reads the sampling frequency (40_dds_tone R100). -/
def neededAttrs : Chan → List Attr
  | .i => [.freq, .phase, .scale, .fs]
  | .q => [.freq, .phase, .scale]

/-- What the block needs (60_exceptions R203, R232 item 1), in the order in which it is looked for, which the spec does
not fix (log entry 15): the DDS device, its channels, the transceiver, the channels' attributes, the FIR attributes. -/
def allHandles : List Handle :=
  let channels : List ChanId := [⟨.one, .i⟩, ⟨.one, .q⟩, ⟨.two, .i⟩, ⟨.two, .q⟩]
  [.ddsDevice] ++ channels.map .channel ++ [.transceiver]
    ++ channels.flatMap (fun ch => (neededAttrs ch.chan).map (.channelAttr ch))
    ++ [.firAttribute .enable, .firAttribute .blob]

/-- The first handle the platform lacks (R232 item 1). -/
def Setup.firstAbsent (x : Setup) : Option Handle := allHandles.find? fun h => x.absent.contains h

/-- The register part of the reset sequence (R230). -/
def State.resetRegisters (s : State) : State := { s with resp := none, seq := .idle, indet := ⟨false, false⟩, trace := [] }

/-- The two tone resets, tone 1 first (R230). -/
def resetTones : Cmd Unit := do
  toneReset .one
  toneReset .two

/-- The construction of the block (R230, R232): NotFoundError where a handle is absent, and then the block accepts no
command; else the reset sequence, which may end with TransportError. That it may run on a block that is ready is the
model's choice (log entry 26). -/
def State.construct (s : State) : State :=
  match s.setup.firstAbsent with
  | some h => { s.begin.takeError ⟨.notFound, .name (Config.handleName h)⟩ with boot := .absent h }
  | none =>
    match resetTones s.resetRegisters with
    | .ok _ s' => { s' with boot := .ready }
    | .error e s' => { s'.takeError e with boot := .failed }

/-- A command after a reset that ended with TransportError: "no guarantee for later commands until a new reset
completes" (R232 item 2, U20): what it leaves and answers is free. -/
def State.forget (s : State) : State :=
  let u := Config.unknown s.draws
  { s with
    tones := u.tones, resp := u.resp, seq := u.seq, indet := u.indet, dds := u.dds, fir := u.fir, trace := u.trace
    draws := s.draws + 1 }

/-- An agent outside the block changes a channel's sampling frequency (R242). -/
def State.changeRate (s : State) (ch : ChanId) (fs : Rat) : State := s.setChannel ch ((s.channel ch).put .fs fs)

end Sys2Proof.Machine
end

