-- ==== Sys2Proof/Machine/Operands.lean ====
section
/-! DEFINITION. The operand forms: the checks that turn an operand value into what a command works on, each with the
error its rule raises (60_exceptions R201, R202), and operand assembly (30_encoding R82). -/

namespace Sys2Proof.Machine

/-- The tone an index names (40_dds_tone R110). -/
def toneOf (t : Int) : Option Tone := if t = 1 then some .one else if t = 2 then some .two else none

/-- The channel a symbol names (40_dds_tone R104). -/
def chanOf : Symbol → Option Chan
  | .I => some .i
  | .Q => some .q
  | _ => none

/-- The switch position a symbol names: `on` is true (40_dds_tone R107, 42_fir_codec R152). -/
def switchOf : Symbol → Option Bool
  | .on => some true
  | .off => some false
  | _ => none

/-- The path a symbol names (42_fir_codec R153). -/
def pathOf : Symbol → Option Path
  | .TX => some .tx
  | .RX => some .rx
  | _ => none

/-- `check_tone(t)` (R110). -/
def checkTone (t : Int) : Cmd Tone :=
  match toneOf t with
  | some x => pure x
  | none => raise .validation (.int t)

/-- The channel check of R104. -/
def checkChan (ch : Symbol) : Cmd Chan :=
  match chanOf ch with
  | some x => pure x
  | none => raise .validation (.symbol ch)

/-- The switch check of R107, R135 and R152. -/
def checkSwitch (sw : Symbol) : Cmd Bool :=
  match switchOf sw with
  | some b => pure b
  | none => raise .validation (.symbol sw)

/-- The path check of R153. -/
def checkPath (p : Symbol) : Cmd Path :=
  match pathOf p with
  | some x => pure x
  | none => raise .validation (.symbol p)

/-- An integer operand in its range, or ValidationError with its value (R150, R151, R152). -/
def checkRange (v lo hi : Int) : Cmd Unit := if v < lo ∨ v > hi then raise .validation (.int v) else pure ()

/-- The tap count check of R153: 16, 32, …, 128. -/
def checkTaps (taps : Int) : Cmd Unit :=
  if taps < 16 ∨ taps > 128 ∨ taps % 16 ≠ 0 then raise .validation (.int taps) else pure ()

/-- NTAPS, the tap-count class `taps/16 - 1` (30_encoding R82). -/
def tapClass (taps : Int) : Nat := (taps / 16 - 1).toNat

/-- The configuration word `NTAPS<<5 | 0b11<<3 | GM` (30_encoding R82, 42_fir_codec R153). -/
def configWord (taps : Int) (gm : Nat) : Byte := BitVec.ofNat 8 (tapClass taps <<< 5 ||| 0b11 <<< 3 ||| gm)

/-- The TX gain bit GM (30_encoding R72, R82). -/
def txGainBit (gain : Rat) : Nat := if gain = -6 then 1 else 0

/-- The RX gain code `(gain_dB + 12)/6` (30_encoding R73, R82). -/
def rxGainCode (gain : Rat) : BitVec 2 := BitVec.ofInt 2 ((gain + 12) / 6).floor

/-- The gains legal on a path, in the order their RangeError lists them (60_exceptions R201). -/
def legalGains : Path → List Rat
  | .tx => [0, -6]
  | .rx => [-12, -6, 0, 6]

/-- The pseudocode of FIR.BUILDCFG after its path check (42_fir_codec R153): the tap count, then the gain, then the
configuration word and, on RX, the gain code. -/
def buildConfig (p : Path) (taps : Int) (gain : Rat) : Cmd (Byte × Option (BitVec 2)) := do
  checkTaps taps
  if gain ∈ legalGains p then
    match p with
    | .tx => return (configWord taps (txGainBit gain), none)
    | .rx => return (configWord taps 0, some (rxGainCode gain))
  else
    raise .range (.legal (legalGains p))

/-- The two's-complement bytes of a tap: `(u[15:8], u[7:0])` with `u = v mod 65536` (30_encoding R74, R150). -/
def encodeTap (v : Int) : Byte × Byte :=
  let u : Tap := BitVec.ofInt 16 v
  (u.extractLsb' 8 8, u.extractLsb' 0 8)

/-- `sext_16(high || low)` (30_encoding R74, R151). -/
def decodeTap (high low : Byte) : Int := (high ++ low : Tap).toInt

/-- `setBit`: bit i of the word cleared, then set if `on` (42_fir_codec R152). -/
def setBit (i : Nat) (w : Byte) (on : Bool) : Byte :=
  let bit : Byte := 1 <<< i
  let w1 := w &&& (0xFF &&& ~~~bit)
  if on then w1 ||| bit else w1

end Sys2Proof.Machine
end

