-- ==== Sys2Proof/Machine/Flags.lean ====
section
/-! DEFINITION. The block's only flag, `c[t].MUTED` (10_state R23), and the comparisons its commands answer with. The
block has no condition codes. -/

namespace Sys2Proof.Machine

/-- `c[t].MUTED` is read. -/
def readMuted (t : Tone) : Cmd Bool := do return ((← get).tones.get t).muted

/-- `c[t].MUTED <- b`. -/
def setMuted (t : Tone) (b : Bool) : Cmd Unit := update fun s => s.setTone t { s.tones.get t with muted := b }

/-- `c[t].CACHE` is read. -/
def readCache (t : Tone) : Cmd Rat := do return ((← get).tones.get t).cache

/-- `c[t].CACHE <- a`. -/
def setCache (t : Tone) (a : Rat) : Cmd Unit := update fun s => s.setTone t { s.tones.get t with cache := a }

/-- `c[t].SB` is read. -/
def readSb (t : Tone) : Cmd Sideband := do return ((← get).tones.get t).sb

/-- `c[t].SB <- x`. -/
def setSb (t : Tone) (x : Sideband) : Cmd Unit := update fun s => s.setTone t { s.tones.get t with sb := x }

end Sys2Proof.Machine
end

