-- ==== Sys2Proof/Machine/DdsTone.lean ====
section
/-! DEFINITION. The DdsTone commands (40_dds_tone): the pseudocode of each rule after its operand checks as a shared
operation on a tone (DualToneDds applies them too, 41_dual_tone R136), and the meaning of each command. -/

namespace Sys2Proof.Machine

/-! ## The tone operations -/

/-- R101 after `check_tone`: the committed signed frequency, or RangeError with the bound Fs/2 before any write. -/
def setFreq (t : Tone) (f : Rat) : Cmd Rat := do
  let fs ← attrGet ⟨t, .i⟩ .fs
  if |f| > fs / 2 then
    raise .range (.bound (fs / 2))
  else
    attrSet ⟨t, .i⟩ .freq |f|
    attrSet ⟨t, .q⟩ .freq |f|
    let m ← attrGet ⟨t, .i⟩ .freq
    setSb t (sidebandOf f)
    let pI ← attrGet ⟨t, .i⟩ .phase
    let sb ← readSb t
    attrSet ⟨t, .q⟩ .phase (deriveQPhase pI sb)
    return (sidebandOf f).sign * m

/-- R103 after `check_tone`: the I phase wraps into [0, 360), and the Q phase follows the committed I phase. -/
def setPhase (t : Tone) (phi : Rat) : Cmd Unit := do
  attrSet ⟨t, .i⟩ .phase (normalizePhase phi)
  let pI ← attrGet ⟨t, .i⟩ .phase
  let sb ← readSb t
  attrSet ⟨t, .q⟩ .phase (deriveQPhase pI sb)

/-- R105 after `check_tone`: the same scale on both channels, and the mute ends. -/
def setAmp (t : Tone) (a : Rat) : Cmd Unit :=
  if a < 0 ∨ a > 1 then
    raise .range (.interval 0 1)
  else do
    attrSet ⟨t, .i⟩ .scale a
    attrSet ⟨t, .q⟩ .scale a
    setMuted t false

/-- R107 `off`: caches the committed amplitude and forces 0, unless the tone is muted already. -/
def mute (t : Tone) : Cmd Unit := do
  if ← readMuted t then
    return ()
  else
    let a ← attrGet ⟨t, .i⟩ .scale
    setCache t a
    attrSet ⟨t, .i⟩ .scale 0
    attrSet ⟨t, .q⟩ .scale 0
    setMuted t true

/-- R107 `on`: restores the cached amplitude, if the tone is muted. -/
def unmute (t : Tone) : Cmd Unit := do
  if ← readMuted t then
    let a ← readCache t
    attrSet ⟨t, .i⟩ .scale a
    attrSet ⟨t, .q⟩ .scale a
    setMuted t false
  else
    return ()

/-- R107 after its checks. -/
def setState (t : Tone) (on : Bool) : Cmd Unit := if on then unmute t else mute t

/-- R108 after `check_tone`: the magnitude with the sign the device's phases show. -/
def getFreq (t : Tone) : Cmd Rat := do
  let m ← attrGet ⟨t, .i⟩ .freq
  let pI ← attrGet ⟨t, .i⟩ .phase
  let pQ ← attrGet ⟨t, .q⟩ .phase
  return (shownSideband pI pQ).sign * m

/-- R109 after `check_tone`: amplitude, frequency and the second read of the I phase. -/
def getStatus (t : Tone) : Cmd (Rat × Rat × Rat) := do
  let a ← attrGet ⟨t, .i⟩ .scale
  let f ← getFreq t
  let p ← attrGet ⟨t, .i⟩ .phase
  return (a, f, p)

/-! ## The commands -/

/-- TONE.GETFS (R100). -/
def execToneGetFs (t : Int) (s : State) : Host.Outcome State Fault Refusal :=
  run (do
    let tone ← checkTone t
    return .num (← attrGet ⟨tone, .i⟩ .fs)) s

/-- TONE.SETFREQ (R101). -/
def execToneSetFreq (t : Int) (f : Rat) (s : State) : Host.Outcome State Fault Refusal :=
  run (do
    let tone ← checkTone t
    return .num (← setFreq tone f)) s

/-- TONE.GETFREQ (R108). -/
def execToneGetFreq (t : Int) (s : State) : Host.Outcome State Fault Refusal :=
  run (do
    let tone ← checkTone t
    return .num (← getFreq tone)) s

/-- TONE.SETPHASE (R103). -/
def execToneSetPhase (t : Int) (phi : Rat) (s : State) : Host.Outcome State Fault Refusal :=
  run (do
    let tone ← checkTone t
    setPhase tone phi
    return .unit) s

/-- TONE.GETPHASE (R104). -/
def execToneGetPhase (t : Int) (ch : Symbol) (s : State) : Host.Outcome State Fault Refusal :=
  run (do
    let tone ← checkTone t
    let chan ← checkChan ch
    return .num (← attrGet ⟨tone, chan⟩ .phase)) s

/-- TONE.SETAMP (R105). -/
def execToneSetAmp (t : Int) (a : Rat) (s : State) : Host.Outcome State Fault Refusal :=
  run (do
    let tone ← checkTone t
    setAmp tone a
    return .unit) s

/-- TONE.GETAMP (R106). -/
def execToneGetAmp (t : Int) (s : State) : Host.Outcome State Fault Refusal :=
  run (do
    let tone ← checkTone t
    return .num (← attrGet ⟨tone, .i⟩ .scale)) s

/-- TONE.STATE (R107). -/
def execToneState (t : Int) (sw : Symbol) (s : State) : Host.Outcome State Fault Refusal :=
  run (do
    let tone ← checkTone t
    let on ← checkSwitch sw
    setState tone on
    return .unit) s

/-- TONE.STATUS (R109). -/
def execToneStatus (t : Int) (s : State) : Host.Outcome State Fault Refusal :=
  run (do
    let tone ← checkTone t
    let (a, f, p) ← getStatus tone
    return .status a f p) s

end Sys2Proof.Machine
end

