-- ==== Sys2Proof/Machine/DualTone.lean ====
section
/-! DEFINITION. The DualToneDds commands (41_dual_tone): each applies the tone operations to tone 1 and then tone 2,
and the first error ends it (R136). -/

namespace Sys2Proof.Machine

/-- One turn of R130's loop: None mutes the tone, a level is converted and set. -/
def setLevel (t : Tone) : Option Rat → Cmd Unit
  | none => setState t false
  | some d => if d > 0 then raise .range (.bound 0) else setAmp t (Config.dbToLin d)

/-- `level`: the sentinel 99.9 at amplitude exactly 0, else `linToDb(a)` (R134). -/
def levelOf (a : Rat) : Rat := if a = 0 then 999 / 10 else Config.linToDb a

/-- A tone operation for an optional operand: nothing when it is omitted (R131, R132). -/
def whenGiven (d : Option Rat) (c : Rat → Cmd Unit) : Cmd Unit :=
  match d with
  | some x => c x
  | none => pure ()

/-- DDS.SETAMP (R130). -/
def execDdsSetAmp (d1 d2 : Option Rat) (s : State) : Host.Outcome State Fault Refusal :=
  run (do
    setLevel .one d1
    setLevel .two d2
    return .unit) s

/-- DDS.SETFREQ (R131). -/
def execDdsSetFreq (f1 : Rat) (f2 : Option Rat) (s : State) : Host.Outcome State Fault Refusal :=
  run (do
    let _ ← setFreq .one f1
    whenGiven f2 fun f => do
      let _ ← setFreq .two f
    return .unit) s

/-- DDS.SETPHASE (R132). -/
def execDdsSetPhase (p1 : Rat) (p2 : Option Rat) (s : State) : Host.Outcome State Fault Refusal :=
  run (do
    setPhase .one p1
    whenGiven p2 (setPhase .two)
    return .unit) s

/-- DDS.ISOFF (R133). -/
def execDdsIsOff (s : State) : Host.Outcome State Fault Refusal :=
  run (do
    let a1 ← attrGet ⟨.one, .i⟩ .scale
    let a2 ← attrGet ⟨.two, .i⟩ .scale
    return .bool (a1 = 0 && a2 = 0)) s

/-- DDS.STATUS (R134). -/
def execDdsStatus (k : Int) (s : State) : Host.Outcome State Fault Refusal :=
  run (do
    let tone ← checkTone k
    let (a, f, p) ← getStatus tone
    return .report f "MHz" p (levelOf a) "dB") s

/-- DDS.STATE (R135). -/
def execDdsState (sw : Symbol) (s : State) : Host.Outcome State Fault Refusal :=
  run (do
    let on ← checkSwitch sw
    setState .one on
    setState .two on
    return .unit) s

end Sys2Proof.Machine
end

