-- ==== Sys2Proof/Machine/FirCodec.lean ====
section
/-! DEFINITION. The FIR codec commands (42_fir_codec): pure functions of their operands; no command here makes a
transaction or changes any state but RESP. -/

namespace Sys2Proof.Machine

/-- FIR.ENCODE (R150). -/
def execFirEncode (v : Int) (s : State) : Host.Outcome State Fault Refusal :=
  run (do
    checkRange v (-32768) 32767
    return .bytes (encodeTap v).1 (encodeTap v).2) s

/-- FIR.DECODE (R151): hi is checked first. -/
def execFirDecode (hi lo : Int) (s : State) : Host.Outcome State Fault Refusal :=
  run (do
    checkRange hi 0 255
    checkRange lo 0 255
    return .int (decodeTap (BitVec.ofInt 8 hi) (BitVec.ofInt 8 lo))) s

/-- FIR.SETBIT (R152): i, then w, then the switch. -/
def execFirSetBit (i w : Int) (sw : Symbol) (s : State) : Host.Outcome State Fault Refusal :=
  run (do
    checkRange i 0 7
    checkRange w 0 255
    let on ← checkSwitch sw
    return .byte (setBit i.toNat (BitVec.ofInt 8 w) on)) s

/-- FIR.BUILDCFG (R153): path, then taps, then gain. -/
def execFirBuildCfg (path : Symbol) (taps : Int) (gain : Rat) (s : State) : Host.Outcome State Fault Refusal :=
  run (do
    let p ← checkPath path
    let (cfg, code) ← buildConfig p taps gain
    return .config cfg code) s

end Sys2Proof.Machine
end

