-- ==== Sys2Proof/Machine/FirProgrammer.lean ====
section
/-! DEFINITION. The FIR programmer commands (43_fir_programmer): the upload and readback sequencers and the load of a
configuration blob. -/

namespace Sys2Proof.Machine

/-- The push word: "commit current coefficient" (30_encoding R75). -/
def pushWord : Byte := 0xFE

/-- The read-trigger word: "prepare for readback" (30_encoding R75). -/
def readTriggerWord : Byte := 0xEA

/-- The 128 slots, in the order the sequencers visit them (R171, R176). -/
def allSlots : List (Fin 128) := List.finRange 128

/-- The tap check of R170: the first offending value, from index 0 up. -/
def checkTapValues : List Int → Cmd Unit
  | [] => pure ()
  | v :: rest => do
    checkRange v (-32768) 32767
    checkTapValues rest

/-- `validate_write` (R170): taps, then gain, then the length, then each tap; no traffic. -/
def validateWrite (p : Path) (c : List Int) (taps : Int) (gain : Rat) : Cmd (Byte × Option (BitVec 2)) := do
  let cfg ← buildConfig p taps gain
  if c.length > 128 then
    raise .validation (.int c.length)
  else
    checkTapValues c
    return cfg

/-- One turn of R171's loop: the tap, or the zero fill, is addressed, written low byte first and pushed. -/
def pushTap (p : Path) (c : List Int) (i : Fin 128) : Cmd Unit := do
  setSeq (.loop i)
  let (h, l) := encodeTap (c.getD i 0)
  regWrite (.coeffAddr p) (BitVec.ofNat 8 i)
  regWrite (.writeLo p) l
  regWrite (.writeHi p) h
  regWrite (.firConfig p) pushWord

/-- R171's loop over the slots. -/
def pushTaps (p : Path) (c : List Int) : List (Fin 128) → Cmd Unit
  | [] => pure ()
  | i :: rest => do
    pushTap p c i
    pushTaps p c rest

/-- The RX gain write of R171; TX has no gain register. -/
def writeGain : Option (BitVec 2) → Cmd Unit
  | some code => regWrite .firGain (code.zeroExtend 8)
  | none => pure ()

/-- R171 after the validation: the mandatory sequence (R174). -/
def upload (p : Path) (c : List Int) (cfg : Byte) (gcode : Option (BitVec 2)) : Cmd Unit := do
  setSeq .disabled
  attrSetS .enable "0"
  writeGain gcode
  setSeq .clockRunning
  regWrite (.firConfig p) (cfg ||| 0x02)
  setSeq .writeEnabled
  regWrite (.firConfig p) (cfg ||| 0x06)
  pushTaps p c allSlots
  setSeq .writeDisabled
  regWrite (.firConfig p) (cfg ||| 0x02)
  setSeq .clockStopped
  regWrite (.firConfig p) cfg
  setSeq .enabled
  attrSetS .enable "1"
  clearIndet p
  setSeq .idle

/-- `fir_write(p, c, taps, gain)` (R171). -/
def firWrite (p : Path) (c : List Int) (taps : Int) (gain : Rat) : Cmd Value := do
  let (cfg, gcode) ← validateWrite p c taps gain
  upload p c cfg gcode
  return .unit

/-- `trim(r)`: without the zeros at its start and at its end (R175). -/
def trim (r : List Int) : List Int := ((r.dropWhile (· = 0)).reverse.dropWhile (· = 0)).reverse

/-- One turn of R176's loop: the slot is addressed and read low byte first. -/
def readSlot (p : Path) (i : Fin 128) : Cmd Int := do
  setSeq (.readLoop i)
  regWrite (.coeffAddr p) (BitVec.ofNat 8 i)
  let l ← regRead (.readLo p)
  let h ← regRead (.readHi p)
  return decodeTap h l

/-- R176's loop over the slots. -/
def readSlots (p : Path) : List (Fin 128) → Cmd (List Int)
  | [] => pure []
  | i :: rest => do
    let v ← readSlot p i
    let vs ← readSlots p rest
    return v :: vs

/-- `fir_read(p)` (R176). -/
def firRead (p : Path) : Cmd Value := do
  setSeq .readTrigger
  regWrite (.firConfig p) readTriggerWord
  let r ← readSlots p allSlots
  setSeq .idle
  return .taps (trim r)

/-- R182 after the file is found. -/
def loadBlob (b : String) : Cmd Unit := do
  setSeq .disabled
  attrSetS .enable "0"
  attrSetS .blob b
  setSeq .enabled
  attrSetS .enable "1"
  clearIndet .tx
  clearIndet .rx
  setSeq .idle

/-- The file store's answer: the blob, or NotFoundError before any effect (R182, 60_exceptions R203). -/
def findFile (name : String) : Cmd String := do
  match (← get).setup.files.lookup name with
  | some b => return b
  | none => raise .notFound (.name name)

/-- FIR.WRITETX (R172). -/
def execFirWriteTx (c : List Int) (taps : Int) (gain : Rat) (s : State) : Host.Outcome State Fault Refusal :=
  run (onPaths [.tx] (firWrite .tx c taps gain)) s

/-- FIR.WRITERX (R173). -/
def execFirWriteRx (c : List Int) (taps : Int) (gain : Rat) (s : State) : Host.Outcome State Fault Refusal :=
  run (onPaths [.rx] (firWrite .rx c taps gain)) s

/-- FIR.READTX (R177). -/
def execFirReadTx (s : State) : Host.Outcome State Fault Refusal := run (onPaths [.tx] (firRead .tx)) s

/-- FIR.READRX (R178). -/
def execFirReadRx (s : State) : Host.Outcome State Fault Refusal := run (onPaths [.rx] (firRead .rx)) s

/-- FIR.LOADFILE (R182): a transport failure leaves both paths indeterminate. -/
def execFirLoadFile (name : String) (s : State) : Host.Outcome State Fault Refusal :=
  run (onPaths [.tx, .rx] (do
    let b ← findFile name
    loadBlob b
    return .unit)) s

end Sys2Proof.Machine
end

