-- ==== Sys2Proof/Machine/Dispatch.lean ====
section
/-! DEFINITION. One arm per command: a direct call of its meaning. -/

namespace Sys2Proof.Machine

/-- What a command does (30_encoding R77 names each command's rule). -/
def exec (i : Instr) (s : State) : Host.Outcome State Fault Refusal :=
  match i with
  | .toneGetFs t => Sys2Proof.Machine.execToneGetFs t s
  | .toneSetFreq t f => Sys2Proof.Machine.execToneSetFreq t f s
  | .toneGetFreq t => Sys2Proof.Machine.execToneGetFreq t s
  | .toneSetPhase t phi => Sys2Proof.Machine.execToneSetPhase t phi s
  | .toneGetPhase t ch => Sys2Proof.Machine.execToneGetPhase t ch s
  | .toneSetAmp t a => Sys2Proof.Machine.execToneSetAmp t a s
  | .toneGetAmp t => Sys2Proof.Machine.execToneGetAmp t s
  | .toneState t sw => Sys2Proof.Machine.execToneState t sw s
  | .toneStatus t => Sys2Proof.Machine.execToneStatus t s
  | .ddsSetAmp d1 d2 => Sys2Proof.Machine.execDdsSetAmp d1 d2 s
  | .ddsSetFreq f1 f2 => Sys2Proof.Machine.execDdsSetFreq f1 f2 s
  | .ddsSetPhase p1 p2 => Sys2Proof.Machine.execDdsSetPhase p1 p2 s
  | .ddsIsOff => Sys2Proof.Machine.execDdsIsOff s
  | .ddsStatus k => Sys2Proof.Machine.execDdsStatus k s
  | .ddsState sw => Sys2Proof.Machine.execDdsState sw s
  | .firEncode v => Sys2Proof.Machine.execFirEncode v s
  | .firDecode hi lo => Sys2Proof.Machine.execFirDecode hi lo s
  | .firSetBit i1 w sw => Sys2Proof.Machine.execFirSetBit i1 w sw s
  | .firBuildCfg path taps gain => Sys2Proof.Machine.execFirBuildCfg path taps gain s
  | .firWriteTx c taps gain => Sys2Proof.Machine.execFirWriteTx c taps gain s
  | .firWriteRx c taps gain => Sys2Proof.Machine.execFirWriteRx c taps gain s
  | .firReadTx => Sys2Proof.Machine.execFirReadTx s
  | .firReadRx => Sys2Proof.Machine.execFirReadRx s
  | .firLoadFile name => Sys2Proof.Machine.execFirLoadFile name s

end Sys2Proof.Machine
end

