-- ==== Sys2Proof/Machine/Step.lean ====
section
/-! DEFINITION. One step of the machine: the block takes the oldest input that waits at it. -/

namespace Sys2Proof.Machine

/-- A command arrives (00_scope R3): a constructed block decodes it and runs it; an illegal one is turned away
(30_encoding R78); after a failed reset the outcome is free, and a block that was not constructed accepts no command
(70_reset R232, U20). -/
def accept (c : RawCommand) (s : State) : Host.Outcome State Fault Refusal :=
  match s.boot with
  | .ready =>
    match decode c with
    | .ok i => exec i s
    | .error _ => .next (s.refuseCommand c.opc)
  | .failed => .next s.forget
  | .absent h => .fault (.notConstructed h)

/-- One step: the oldest input is taken and processed whole (20_memory R59). With none waiting, the block waits
(70_reset R230). DESIGN CHOICE (log entry 26): a reset input is taken at any time, by a ready block too, works on the
device as it then is, and leaves the inputs behind it waiting. R230 runs reset once, before the first command, and R232
speaks of a new reset only after a failed one. -/
def step (s : State) : Host.Outcome State Fault Refusal :=
  match s.port with
  | [] => .next s
  | .command c :: rest => accept c { s with port := rest }
  | .reset :: rest => .next { s with port := rest }.construct
  | .samplingRate ch fs :: rest => .next ({ s with port := rest }.changeRate ch fs)
  | .secondAgent :: _ => .refused .secondAgent

/-- The same instruction as the host's table word, placed where the next step fetches: at the head of the command
port of a constructed block. -/
def State.withFetchWord (s : State) (nbits w : Nat) : State :=
  match tableCommand nbits w with
  | some c => { s with port := .command c :: s.port, boot := .ready }
  | none => s

end Sys2Proof.Machine
end

