-- ==== Sys2Proof/Machine/Nco.lean ====
section
/-! DEFINITION. What the DDS emits (40_dds_tone R124): the I/Q sample pair that a state's DDS attributes command, as
an observation of the state between commands, and any value while a command runs. No command reads it. WAVE, PACC_W,
SAMPLE_W and `quantise` are the open parameters of 00_scope R7. -/

namespace Sys2Proof.Machine

/-- The angle of a channel at sample n: `2*pi*F*n/Fs + P*pi/180` (R124). -/
noncomputable def ncoAngle (x : Channel) (fs : Rat) (n : Nat) : ℝ :=
  2 * Real.pi * (x.freq : ℝ) * n / (fs : ℝ) + (x.phase : ℝ) * Real.pi / 180

/-- A channel's term of the sum: `A * WAVE(angle)` (R124). -/
noncomputable def ncoTerm (wave : ℝ → ℝ) (x : Channel) (fs : Rat) (n : Nat) : ℝ :=
  (x.scale : ℝ) * wave (ncoAngle x fs n)

/-- The sampling frequency the formula takes: that of (1, I) (R124). -/
def ncoRate (d : Dds) : Rat := d.one.i.fs

/-- The sum over both tones of a channel's terms, before quantisation (R124). -/
noncomputable def ncoSum (wave : ℝ → ℝ) (d : Dds) (c : Chan) (n : Nat) : ℝ :=
  ncoTerm wave (d.one.get c) (ncoRate d) n + ncoTerm wave (d.two.get c) (ncoRate d) n

/-- The sample emitted on a channel at index n (R124). Where the sampling frequency is 0 the formula has no value, and
the sample is free (log entry 21). -/
noncomputable def State.sample (s : State) (c : Chan) (n : Nat) : BitVec Config.sampleW :=
  if ncoRate s.dds = 0 then Config.sampleWithoutRate n c else Config.quantise (ncoSum Config.wave s.dds c n)

/-- The sample emitted on a channel at index n while the command runs that starts from `s`: any value, since the pair may
be mismatched and the sample at which a write takes effect is not known (R124, 70_reset R235, U15). -/
noncomputable def State.sampleInWindow (s : State) (c : Chan) (n : Nat) : BitVec Config.sampleW :=
  Config.sampleInWindow s.draws n c

/-- The frequency resolution of a PACC_W-bit phase accumulator at a sampling frequency (R124; DEDUCED, log entry 21).
The formula of R124 does not use it: the DDS's rounding of a written frequency is its coercion (10_state R31). -/
def ncoResolution (fs : Rat) : Rat := fs / 2 ^ Config.paccW

end Sys2Proof.Machine
end

