-- ==== Sys2Proof/Safety.lean ====
section
/-! DEFINITION. The terms claims are stated in: a transport that does not fail, the state after a list of
transactions, what a tone operation leaves on a tone, the transactions of the FIR sequences, and the invariants. -/

namespace Sys2Proof.Machine

/-! ## Transactions -/

/-- The next `k` transactions do not fail (a perfect transport for that long, 60_exceptions R205). -/
abbrev State.perfect (s : State) (k : Nat) : Prop := s.transport.take k = List.replicate k .done

/-- The state after a command issued exactly the transactions `xs`, apart from their effects. -/
def State.issued (s : State) (xs : List Transaction) : State :=
  { s with trace := xs, transport := s.transport.drop xs.length, draws := s.draws + xs.length }

/-- The outcomes the free draws give the transactions `xs`, when `n` free values were drawn before them. -/
def freeScript (n : Nat) (xs : List Transaction) : List Draw := xs.mapIdx fun j x => Config.draw (n + j) x

/-- A tone's channels and controller registers replaced. -/
def State.withTone (s : State) (t : Tone) (x : PerChan Channel) (r : ToneRegs) : State :=
  { s with dds := s.dds.set t x, tones := s.tones.set t r }

/-! ## Legal symbols (30_encoding R71) -/

/-- The symbol that names a channel. -/
def chanSymbol : Chan → Symbol
  | .i => .I
  | .q => .Q

/-- The symbol that names a path. -/
def pathSymbol : Path → Symbol
  | .tx => .TX
  | .rx => .RX

/-- The symbol that names a switch position. -/
def switchSymbol (on : Bool) : Symbol := if on then .on else .off

/-! ## What the tone operations leave on a tone's channels, and the transactions they issue -/

/-- The channels after TONE.SETFREQ (40_dds_tone R101, 10_state R31). -/
def freqChannels (c : Coercion) (x : PerChan Channel) (f : Rat) : PerChan Channel :=
  { i := { x.i with freq := coerce c .freq |f| }
    q := { x.q with
      freq := coerce c .freq |f|
      phase := coerce c .phase (deriveQPhase x.i.phase (sidebandOf f)) } }

/-- The six transactions of TONE.SETFREQ (R101). -/
def freqTrace (t : Tone) (x : PerChan Channel) (f : Rat) : List Transaction :=
  [ .attrGet ⟨t, .i⟩ .fs, .attrSet ⟨t, .i⟩ .freq |f|, .attrSet ⟨t, .q⟩ .freq |f|, .attrGet ⟨t, .i⟩ .freq,
    .attrGet ⟨t, .i⟩ .phase, .attrSet ⟨t, .q⟩ .phase (deriveQPhase x.i.phase (sidebandOf f)) ]

/-- The channels after TONE.SETPHASE (R103): the Q phase follows the committed I phase. -/
def phaseChannels (c : Coercion) (x : PerChan Channel) (sb : Sideband) (phi : Rat) : PerChan Channel :=
  { i := { x.i with phase := coerce c .phase (normalizePhase phi) }
    q := { x.q with phase := coerce c .phase (deriveQPhase (coerce c .phase (normalizePhase phi)) sb) } }

/-- The three transactions of TONE.SETPHASE (R103). -/
def phaseTrace (t : Tone) (c : Coercion) (sb : Sideband) (phi : Rat) : List Transaction :=
  [ .attrSet ⟨t, .i⟩ .phase (normalizePhase phi), .attrGet ⟨t, .i⟩ .phase,
    .attrSet ⟨t, .q⟩ .phase (deriveQPhase (coerce c .phase (normalizePhase phi)) sb) ]

/-- The channels after one scale is written to both (R105, R107). -/
def ampChannels (c : Coercion) (x : PerChan Channel) (a : Rat) : PerChan Channel :=
  { i := { x.i with scale := coerce c .scale a }, q := { x.q with scale := coerce c .scale a } }

/-- The two writes of one scale (R105, R107). -/
def ampTrace (t : Tone) (a : Rat) : List Transaction := [.attrSet ⟨t, .i⟩ .scale a, .attrSet ⟨t, .q⟩ .scale a]

/-- What TONE.STATE does to a tone's channels (R107). -/
def switchChannels (c : Coercion) (x : PerChan Channel) (r : ToneRegs) (on : Bool) : PerChan Channel :=
  match on, r.muted with
  | true, true => ampChannels c x r.cache
  | false, false => ampChannels c x 0
  | _, _ => x

/-- What TONE.STATE does to a tone's registers (R107). -/
def switchRegs (x : PerChan Channel) (r : ToneRegs) (on : Bool) : ToneRegs :=
  match on, r.muted with
  | true, true => { r with muted := false }
  | false, false => { r with cache := x.i.scale, muted := true }
  | _, _ => r

/-- The transactions of TONE.STATE (R107). -/
def switchTrace (t : Tone) (r : ToneRegs) (on : Bool) : List Transaction :=
  match on, r.muted with
  | true, true => ampTrace t r.cache
  | false, false => .attrGet ⟨t, .i⟩ .scale :: ampTrace t 0
  | _, _ => []

/-- The three reads of TONE.GETFREQ (R108). -/
def getFreqTrace (t : Tone) : List Transaction :=
  [.attrGet ⟨t, .i⟩ .freq, .attrGet ⟨t, .i⟩ .phase, .attrGet ⟨t, .q⟩ .phase]

/-- The signed frequency a tone shows (R108). -/
def shownFreq (x : PerChan Channel) : Rat := (shownSideband x.i.phase x.q.phase).sign * x.i.freq

/-- The five reads of TONE.STATUS (R109). -/
def statusTrace (t : Tone) : List Transaction :=
  .attrGet ⟨t, .i⟩ .scale :: getFreqTrace t ++ [.attrGet ⟨t, .i⟩ .phase]

/-- What one turn of DDS.SETAMP leaves on a tone's channels (41_dual_tone R130). -/
def levelChannels (c : Coercion) (x : PerChan Channel) (r : ToneRegs) : Option Rat → PerChan Channel
  | none => switchChannels c x r false
  | some d => ampChannels c x (Config.dbToLin d)

/-- What one turn of DDS.SETAMP leaves in a tone's registers (R130). -/
def levelRegs (x : PerChan Channel) (r : ToneRegs) : Option Rat → ToneRegs
  | none => switchRegs x r false
  | some _ => { r with muted := false }

/-- The transactions of one turn of DDS.SETAMP (R130). -/
def levelTrace (t : Tone) (r : ToneRegs) : Option Rat → List Transaction
  | none => switchTrace t r false
  | some d => ampTrace t (Config.dbToLin d)

/-! ## The FIR sequences -/

/-- The operands FIR.WRITETX and FIR.WRITERX accept (43_fir_programmer R170, 42_fir_codec R153). -/
structure LegalUpload (p : Path) (c : List Int) (taps : Int) (gain : Rat) : Prop where
  taps_low : 16 ≤ taps
  taps_high : taps ≤ 128
  taps_granule : taps % 16 = 0
  gain_legal : gain ∈ legalGains p
  length_le : c.length ≤ 128
  values : ∀ v ∈ c, -32768 ≤ v ∧ v ≤ 32767

/-- FIR.WRITETX or FIR.WRITERX (43_fir_programmer R172, R173). -/
def uploadInstr : Path → List Int → Int → Rat → Instr
  | .tx => .firWriteTx
  | .rx => .firWriteRx

/-- FIR.READTX or FIR.READRX (R177, R178). -/
def readbackInstr : Path → Instr
  | .tx => .firReadTx
  | .rx => .firReadRx

/-- How many transactions an upload issues: 518 on TX, 519 on RX (R171). -/
def uploadCount : Path → Nat
  | .tx => 518
  | .rx => 519

/-- GM of the configuration word on a path: the TX gain bit, and 0 on RX (30_encoding R72). -/
def gainBit (p : Path) (gain : Rat) : Nat :=
  match p with
  | .tx => txGainBit gain
  | .rx => 0

/-- The FIR_GAIN write of an upload, which RX alone has (R171). -/
def gainTrace (p : Path) (gain : Rat) : List Transaction :=
  match p with
  | .tx => []
  | .rx => [.regWrite .firGain ((rxGainCode gain).zeroExtend 8)]

/-- The four writes of one slot (R171). -/
def slotTrace (p : Path) (c : List Int) (i : Fin 128) : List Transaction :=
  [ .regWrite (.coeffAddr p) (BitVec.ofNat 8 i), .regWrite (.writeLo p) (encodeTap (c.getD i 0)).2,
    .regWrite (.writeHi p) (encodeTap (c.getD i 0)).1, .regWrite (.firConfig p) 0xFE ]

/-- The transactions of an upload, in their mandatory order (R171, R174). -/
def uploadTrace (p : Path) (c : List Int) (cfg : Byte) (gain : Rat) : List Transaction :=
  [.attrSetS .enable "0"] ++ gainTrace p gain
    ++ [.regWrite (.firConfig p) (cfg ||| 0x02), .regWrite (.firConfig p) (cfg ||| 0x06)]
    ++ allSlots.flatMap (slotTrace p c)
    ++ [.regWrite (.firConfig p) (cfg ||| 0x02), .regWrite (.firConfig p) cfg, .attrSetS .enable "1"]

/-- The bank after an upload: the taps, and zeros up to the 128 slots (10_state R38). -/
def uploadedBank (c : List Int) : Vector Tap 128 := Vector.ofFn fun i => BitVec.ofInt 16 (c.getD i 0)

/-- A path's registers and bank after an upload to the reference device (R171, 20_memory R58). -/
def uploadedPath (c : List Int) (cfg : Byte) : FirPath :=
  { addr := 127, wlo := (encodeTap (c.getD 127 0)).2, whi := (encodeTap (c.getD 127 0)).1, cfg := cfg,
    bank := uploadedBank c }

/-- FIR_GAIN after an upload (R171). -/
def uploadedGain (p : Path) (gain : Rat) (old : Byte) : Byte :=
  match p with
  | .tx => old
  | .rx => (rxGainCode gain).zeroExtend 8

/-- The FIR device after an upload to the reference device. -/
def uploadedFir (x : Fir) (p : Path) (c : List Int) (cfg : Byte) (gain : Rat) : Fir :=
  { x with
    enable := "1"
    regs := { paths := x.regs.paths.set p (uploadedPath c cfg), gain := uploadedGain p gain x.regs.gain } }

/-- The write and the two reads of one slot of a readback (R176). -/
def readSlotTrace (p : Path) (i : Fin 128) : List Transaction :=
  [.regWrite (.coeffAddr p) (BitVec.ofNat 8 i), .regRead (.readLo p), .regRead (.readHi p)]

/-- The transactions of a readback (R176). -/
def readbackTrace (p : Path) : List Transaction :=
  .regWrite (.firConfig p) 0xEA :: allSlots.flatMap (readSlotTrace p)

/-- The bank as a list of taps, slot 0 first. -/
def bankTaps (b : Vector Tap 128) : List Int := b.toList.map BitVec.toInt

/-- The three writes of FIR.LOADFILE (R182). -/
def loadTrace (b : String) : List Transaction := [.attrSetS .enable "0", .attrSetS .blob b, .attrSetS .enable "1"]

/-! ## A command cut short by the transport (60_exceptions R205) -/

/-- What one transaction does to the device when it takes effect (00_scope R10): a write stores, a read changes nothing
(10_state R31, R34, R35, 20_memory R56, R58). -/
def State.applied (s : State) : Transaction → State
  | .attrGet _ _ => s
  | .attrSet ch a v => s.storeAttr ch a v
  | .attrSetS a v => s.storeFirAttr a v
  | .regRead _ => s
  | .regWrite r v => s.storeReg r v

/-- The device after the transactions `xs` took effect, in their order. -/
def State.performed (s : State) (xs : List Transaction) : State := xs.foldl State.applied s

/-- A tone's registers when TONE.SETFREQ has completed `k` of its six transactions: SB is written after the fourth
(40_dds_tone R101). -/
def freqRegsAt (r : ToneRegs) (f : Rat) (k : Nat) : ToneRegs := if 4 ≤ k then { r with sb := sidebandOf f } else r

/-- A tone's registers when TONE.STATE has completed `k` of its transactions but not all: `off` writes CACHE after the
first, and MUTED is written after the last (R107). -/
def switchRegsAt (x : PerChan Channel) (r : ToneRegs) (on : Bool) (k : Nat) : ToneRegs :=
  if on = false ∧ r.muted = false ∧ 1 ≤ k then { r with cache := x.i.scale } else r

/-- A tone's registers when its turn of DDS.SETAMP has completed `k` of its transactions but not all (41_dual_tone
R130). -/
def levelRegsAt (x : PerChan Channel) (r : ToneRegs) (k : Nat) : Option Rat → ToneRegs
  | none => switchRegsAt x r false k
  | some _ => r

/-- The controller registers where a command from `s` has completed `k` of its transactions and the next one fails:
those its pseudocode writes before it are new, the others old (60_exceptions R205 item 4). -/
def registersAt (s : State) (k : Nat) : Instr → PerTone ToneRegs
  | .toneSetFreq t f =>
    match toneOf t with
    | some t => s.tones.set t (freqRegsAt (s.tones.get t) f k)
    | none => s.tones
  | .toneState t sw =>
    match toneOf t, switchOf sw with
    | some t, some on => s.tones.set t (switchRegsAt (s.dds.get t) (s.tones.get t) on k)
    | _, _ => s.tones
  | .ddsSetAmp d1 d2 =>
    let n := (levelTrace .one s.tones.one d1).length
    if k < n then ⟨levelRegsAt s.dds.one s.tones.one k d1, s.tones.two⟩
    else ⟨levelRegs s.dds.one s.tones.one d1, levelRegsAt s.dds.two s.tones.two (k - n) d2⟩
  | .ddsSetFreq f1 f2 =>
    if k < 6 then ⟨freqRegsAt s.tones.one f1 k, s.tones.two⟩
    else ⟨freqRegsAt s.tones.one f1 6, (f2.map fun f => freqRegsAt s.tones.two f (k - 6)).getD s.tones.two⟩
  | .ddsState sw =>
    match switchOf sw with
    | some on =>
      let n := (switchTrace .one s.tones.one on).length
      if k < n then ⟨switchRegsAt s.dds.one s.tones.one on k, s.tones.two⟩
      else ⟨switchRegs s.dds.one s.tones.one on, switchRegsAt s.dds.two s.tones.two on (k - n)⟩
    | none => s.tones
  | .toneGetFs _ | .toneGetFreq _ | .toneSetPhase _ _ | .toneGetPhase _ _ | .toneSetAmp _ _ | .toneGetAmp _
  | .toneStatus _ => s.tones
  | .ddsSetPhase _ _ | .ddsIsOff | .ddsStatus _ => s.tones
  | .firEncode _ | .firDecode _ _ | .firSetBit _ _ _ | .firBuildCfg _ _ _ => s.tones
  | .firWriteTx _ _ _ | .firWriteRx _ _ _ | .firReadTx | .firReadRx | .firLoadFile _ => s.tones

/-- SEQ while transaction `n` (from 0) of a TX upload is issued (43_fir_programmer R171). -/
def txUploadSeq (n : Nat) : Seq :=
  if n = 0 then .disabled
  else if n = 1 then .clockRunning
  else if n = 2 then .writeEnabled
  else if h : (n - 3) / 4 < 128 then .loop ⟨(n - 3) / 4, h⟩
  else if n = 515 then .writeDisabled
  else if n = 516 then .clockStopped
  else .enabled

/-- SEQ while transaction `n` of an upload is issued: RX issues one more, FIR_GAIN's, in Disabled (R171). -/
def uploadSeq (p : Path) (n : Nat) : Seq :=
  match p with
  | .tx => txUploadSeq n
  | .rx => txUploadSeq (n - 1)

/-- SEQ while transaction `n` of a readback is issued (R176). -/
def readbackSeq (n : Nat) : Seq := if n = 0 then .readTrigger else .readLoop (Fin.ofNat 128 ((n - 1) / 3))

/-- SEQ while transaction `n` of FIR.LOADFILE is issued (R182). -/
def loadSeq (n : Nat) : Seq := if n ≤ 1 then .disabled else .enabled

/-- SEQ while transaction `n` of a command is issued from `s`. -/
def seqAt (s : State) (n : Nat) : Instr → Seq
  | .firWriteTx _ _ _ => uploadSeq .tx n
  | .firWriteRx _ _ _ => uploadSeq .rx n
  | .firReadTx | .firReadRx => readbackSeq n
  | .firLoadFile _ => loadSeq n
  | .firEncode _ | .firDecode _ _ | .firSetBit _ _ _ | .firBuildCfg _ _ _ => s.seq
  | .toneGetFs _ | .toneSetFreq _ _ | .toneGetFreq _ | .toneSetPhase _ _ | .toneGetPhase _ _ | .toneSetAmp _ _
  | .toneGetAmp _ | .toneState _ _ | .toneStatus _ => s.seq
  | .ddsSetAmp _ _ | .ddsSetFreq _ _ | .ddsSetPhase _ _ | .ddsIsOff | .ddsStatus _ | .ddsState _ => s.seq

/-- The controller registers where a reset from `s` has completed `k` of a tone's four transactions (70_reset R231). -/
def resetRegsAt (x : PerChan Channel) (r : ToneRegs) (k : Nat) : ToneRegs :=
  if 4 ≤ k then resetTone x else if 2 ≤ k then { r with sb := shownSideband x.i.phase x.q.phase } else r

/-! ## Runs of commands -/

/-- The commands on FIR path p (60_exceptions R205 item 5): the upload and the readback of p, and FIR.LOADFILE, which is
on both paths. -/
def onFirPath (p : Path) : Instr → Bool
  | .toneGetFs _ | .toneSetFreq _ _ | .toneGetFreq _ | .toneSetPhase _ _ | .toneGetPhase _ _ | .toneSetAmp _ _
  | .toneGetAmp _ | .toneState _ _ | .toneStatus _ => false
  | .ddsSetAmp _ _ | .ddsSetFreq _ _ | .ddsSetPhase _ _ | .ddsIsOff | .ddsStatus _ | .ddsState _ => false
  | .firEncode _ | .firDecode _ _ | .firSetBit _ _ _ | .firBuildCfg _ _ _ => false
  | .firWriteTx _ _ _ | .firReadTx => p = .tx
  | .firWriteRx _ _ _ | .firReadRx => p = .rx
  | .firLoadFile _ => true

/-- The paths a command is on. -/
def pathsOf (i : Instr) : List Path := [Path.tx, .rx].filter fun p => onFirPath p i

/-- Where a command on `s` completed the transactions `done` and then `x` failed, having taken effect or not
(60_exceptions R205, R207): the device as those transactions leave it, the controller registers and SEQ where the
pseudocode stood, a FIR command's paths indeterminate, and the error in RESP. `rest` is what is left of the script. -/
def State.cutShort (s : State) (i : Instr) (done : List Transaction) (x : Transaction) (tookEffect : Bool)
    (rest : List Draw) : State :=
  let t : State := { s.performed (if tookEffect then done ++ [x] else done) with
    tones := registersAt s done.length i
    seq := seqAt s done.length i
    trace := done ++ [x]
    transport := rest
    draws := s.draws + done.length + 1 }
  (if pathsOf i = [] then t else (t.markIndet (pathsOf i)).blur).respond (.err .transport (.transaction x))

/-- The commands `is`, one after the other, lead from `s` to `t` (20_memory R59), whatever each of them answers. -/
def Commands : List Instr → State → State → Prop
  | [], s, t => t = s
  | i :: is, s, t => ∃ u, exec i s = .next u ∧ Commands is u t

/-! ## The two subsystems (00_scope R2) -/

/-- The commands of the DDS subsystem: DdsTone and DualToneDds. -/
def ddsSide : Instr → Bool
  | .toneGetFs _ | .toneSetFreq _ _ | .toneGetFreq _ | .toneSetPhase _ _ | .toneGetPhase _ _ | .toneSetAmp _ _
  | .toneGetAmp _ | .toneState _ _ | .toneStatus _ => true
  | .ddsSetAmp _ _ | .ddsSetFreq _ _ | .ddsSetPhase _ _ | .ddsIsOff | .ddsStatus _ | .ddsState _ => true
  | .firEncode _ | .firDecode _ _ | .firSetBit _ _ _ | .firBuildCfg _ _ _ => false
  | .firWriteTx _ _ _ | .firWriteRx _ _ _ | .firReadTx | .firReadRx | .firLoadFile _ => false

/-- The codec commands. -/
def codecSide : Instr → Bool
  | .toneGetFs _ | .toneSetFreq _ _ | .toneGetFreq _ | .toneSetPhase _ _ | .toneGetPhase _ _ | .toneSetAmp _ _
  | .toneGetAmp _ | .toneState _ _ | .toneStatus _ => false
  | .ddsSetAmp _ _ | .ddsSetFreq _ _ | .ddsSetPhase _ _ | .ddsIsOff | .ddsStatus _ | .ddsState _ => false
  | .firEncode _ | .firDecode _ _ | .firSetBit _ _ _ | .firBuildCfg _ _ _ => true
  | .firWriteTx _ _ _ | .firWriteRx _ _ _ | .firReadTx | .firReadRx | .firLoadFile _ => false

/-- The commands that only read (60_exceptions R210), the readbacks apart, which write FIR registers. -/
def readSide : Instr → Bool
  | .toneGetFs _ | .toneGetFreq _ | .toneGetPhase _ _ | .toneGetAmp _ | .toneStatus _ | .ddsIsOff | .ddsStatus _ => true
  | .toneSetFreq _ _ | .toneSetPhase _ _ | .toneSetAmp _ _ | .toneState _ _ => false
  | .ddsSetAmp _ _ | .ddsSetFreq _ _ | .ddsSetPhase _ _ | .ddsState _ => false
  | .firEncode _ | .firDecode _ _ | .firSetBit _ _ _ | .firBuildCfg _ _ _ => false
  | .firWriteTx _ _ _ | .firWriteRx _ _ _ | .firReadTx | .firReadRx | .firLoadFile _ => false

/-- The commands that act on one tone, with the index they name it by. -/
def toneIndexOf : Instr → Option Int
  | .toneGetFs t | .toneSetFreq t _ | .toneGetFreq t | .toneSetPhase t _ | .toneGetPhase t _ | .toneSetAmp t _
  | .toneGetAmp t | .toneState t _ | .toneStatus t => some t
  | .ddsStatus k => some k
  | .ddsSetAmp _ _ | .ddsSetFreq _ _ | .ddsSetPhase _ _ | .ddsIsOff | .ddsState _ => none
  | .firEncode _ | .firDecode _ _ | .firSetBit _ _ _ | .firBuildCfg _ _ _ => none
  | .firWriteTx _ _ _ | .firWriteRx _ _ _ | .firReadTx | .firReadRx | .firLoadFile _ => none

/-! ## Invariants -/

/-- What every step keeps: a constructed block shows a SEQ other than Idle only while a path is indeterminate
(10_state R25, R26); while one is, its registers and bank, FIR_GAIN if it is RX, and FIR_EN hold free values and no
others (R26, U2); and how construction ended agrees with what the platform lacks (70_reset R232). -/
structure State.Inv (s : State) : Prop where
  seq_idle : s.boot = .ready → s.seq ≠ .idle → s.indet.tx = true ∨ s.indet.rx = true
  path_unknown : ∀ p, s.boot = .ready → s.indet.get p = true →
    ∃ n, s.fir.regs.paths.get p = Config.indetPath n p ∧ s.fir.enable = Config.indetEnable n
  gain_unknown : s.boot = .ready → s.indet.rx = true → ∃ n, s.fir.regs.gain = Config.indetGain n
  ready_complete : s.boot = .ready → s.setup.firstAbsent = none
  absent_missing : ∀ h, s.boot = .absent h → s.setup.firstAbsent = some h

/-- The tone invariants of 10_state R36, for ideal coercion. -/
structure State.ToneInv (s : State) (t : Tone) : Prop where
  phase_q : (s.dds.get t).q.phase = deriveQPhase (s.dds.get t).i.phase (s.tones.get t).sb
  same_freq : (s.dds.get t).i.freq = (s.dds.get t).q.freq
  same_scale : (s.dds.get t).i.scale = (s.dds.get t).q.scale
  muted_silent : (s.tones.get t).muted = true → (s.dds.get t).i.scale = 0

end Sys2Proof.Machine
end

