-- ==== Sys2Proof/Certificates/Slice0/Obligations.lean ====
section
/-! DEFINITION. The statements about the machine, for the provers. Each docstring says which rule of the spec it
formalises; where it rests on a choice of the model's, it names the log entry. Throughout, `trace` (the transactions of
the last command), `transport` (their scripted outcomes) and `draws` are the model's own fields (log entries 7 and 13),
and so is the command port as a queue of typed records (log entries 1 and 3). -/

open Sys2Proof Sys2Proof.Machine

/-! ## Commands and the command port -/

/-- 30_encoding R70, R71, R77: every command, with every operand at every value, decodes from its own encoding. -/
def Obligations.DecodeOfEncode : Prop := ∀ i : Instr, decode (encode i) = .ok i

/-- 30_encoding R70, R71, R77: a header byte and operand record that decode at all are the encoding of what they
decode to, so no two commands of the port mean the same and no operand is dropped. -/
def Obligations.EncodeOfDecode : Prop := ∀ (c : RawCommand) (i : Instr), decode c = .ok i → encode i = c

/-- 30_encoding R78: an opcode that is no command's is reserved, whatever its operands. -/
def Obligations.ReservedOpcodesRejected : Prop :=
  ∀ c : RawCommand, (∀ i : Instr, i.opcode ≠ c.opc) → decode c = .error .reservedOpcode

/-- 30_encoding R77, 95_test_vectors P1 to P5: commands written out by hand decode to what they stand for. -/
def Obligations.HandWrittenCommandsDecode : Prop :=
  decode ⟨0x08, [.num 1, .sym .off]⟩ = .ok (.toneState 1 .off)
    ∧ decode ⟨0x11, [.num 1, .num (-2)]⟩ = .ok (.ddsSetFreq 1 (some (-2)))
    ∧ decode ⟨0x11, [.absent, .num 1]⟩ = .error .wrongType
    ∧ decode ⟨0x23, [.sym .TX, .num 64, .num (-6)]⟩ = .ok (.firBuildCfg .TX 64 (-6))
    ∧ decode ⟨0x31, [.vec [0, -2, 0, 300, 0], .num 16, .num (-12)]⟩ = .ok (.firWriteRx [0, -2, 0, 300, 0] 16 (-12))
    ∧ decode ⟨0x0A, []⟩ = .error .reservedOpcode

/-- 00_scope R3, 20_memory R59: a constructed block takes the oldest waiting command off its port, and the step is the
meaning of the command it decodes to (the port as a queue is the model's, log entry 1). -/
def Obligations.StepRunsDecodedCommand : Prop :=
  ∀ (s : State) (c : RawCommand) (rest : List Input) (i : Instr),
    s.boot = .ready → s.port = .command c :: rest → decode c = .ok i → step s = exec i { s with port := rest }

/-- 60_exceptions R204, 30_encoding R78: a header byte and operand record that are the encoding of no command (a
reserved opcode, or operands of the wrong shape or type) are answered with IllegalCommand and the opcode; no transaction
is made and no state changes. -/
def Obligations.IllegalCommandAnswered : Prop :=
  ∀ (s : State) (c : RawCommand) (rest : List Input),
    s.boot = .ready → s.port = .command c :: rest → (∀ i : Instr, encode i ≠ c) →
      step s = .next { s with port := rest, trace := [], resp := some (.err .illegalCommand (.opcode c.opc)) }

/-- 10_state R24, 60_exceptions R207, R210: every command in every state ends in a next state with a response; its
inputs, the launch parameters and the block's readiness are left alone. -/
def Obligations.EveryCommandAnswers : Prop :=
  ∀ (i : Instr) (s : State), ∃ (t : State) (r : Response),
    exec i s = .next t ∧ t.resp = some r ∧ t.port = s.port ∧ t.setup = s.setup ∧ t.boot = s.boot

/-- 60_exceptions R205, R207: errors are precise at the transaction level. Where a command, on a transport that does
not fail, issues `x` as its transaction number k, then on a transport that fails there it ends with TransportError
carrying `x`: the k transactions before it have been performed, `x` itself has exactly if the failing write took effect,
and none after it is issued; SB, CACHE and MUTED are new as far as the pseudocode came and SEQ keeps the state reached; a
FIR command's paths are indeterminate; and nothing else changes. `State.cutShort` is that whole state (log entries 7, 9
and 13). -/
def Obligations.ErrorsPreciseAtTransaction : Prop :=
  ∀ (i : Instr) (s g : State) (k : Nat) (x : Transaction) (b : Bool) (rest : List Draw),
    exec i { s with transport := List.replicate 519 .done } = .next g → g.trace[k]? = some x →
      exec i { s with transport := List.replicate k .done ++ .failed b :: rest }
        = .next (s.cutShort i (g.trace.take k) x b rest)

/-- 00_scope R7 (`fail`), 60_exceptions R205 items 1 and 2: a command whose transactions meet free draws (log entry 7)
does what it does where those outcomes are scripted. So the statements about a scripted transport speak of every run
from reset too, where nothing is scripted. -/
def Obligations.FreeDrawsAreSomeScript : Prop :=
  ∀ (i : Instr) (s t : State) (rest : List Draw), s.transport = [] → exec i s = .next t →
    exec i { s with transport := freeScript s.draws t.trace ++ rest } = .next { t with transport := rest }

/-! ## Numeric functions -/

/-- 00_scope R11, 40_dds_tone R111: `normalize(x)` lies in [0, 360), for every rational, and differs from x by whole
turns; so the sign test finds the sideband that the derived Q phase was given. -/
def Obligations.PhaseArithmetic : Prop :=
  (∀ x : Rat, 0 ≤ normalizePhase x ∧ normalizePhase x < 360 ∧ ∃ k : Int, normalizePhase x = x - 360 * k)
  ∧ ∀ (pI : Rat) (s : Sideband),
      normalizePhase (pI - deriveQPhase pI s) = (match s with | .plus => 90 | .minus => 270)
        ∧ shownSideband pI (deriveQPhase pI s) = s

/-! ## DdsTone -/

/-- 40_dds_tone R110: a tone index other than 1 and 2 is a ValidationError before any transaction, and changes no
state. -/
def Obligations.ToneIndexChecked : Prop :=
  ∀ (i : Instr) (z : Int) (s : State), toneIndexOf i = some z → z ≠ 1 → z ≠ 2 →
    exec i s = .next { s with trace := [], resp := some (.err .validation (.int z)) }

/-- 40_dds_tone R100: TONE.GETFS answers the I channel's sampling frequency and writes nothing; it fails on a wrong
index and on a failing read. -/
def Obligations.ToneGetFsReadsRate : Prop :=
  (∀ (t : Tone) (s : State), s.perfect 1 →
      exec (.toneGetFs t.index) s
        = .next ((s.issued [.attrGet ⟨t, .i⟩ .fs]).respond (.ok (.num (s.dds.get t).i.fs))))
  ∧ (∀ (t : Tone) (s : State) (b : Bool) (rest : List Draw), s.transport = .failed b :: rest →
      exec (.toneGetFs t.index) s
        = .next ((s.issued [.attrGet ⟨t, .i⟩ .fs]).respond
            (.err .transport (.transaction (.attrGet ⟨t, .i⟩ .fs)))))
  ∧ (∀ (z : Int) (s : State), z ≠ 1 → z ≠ 2 →
      exec (.toneGetFs z) s = .next { s with trace := [], resp := some (.err .validation (.int z)) })

/-- 40_dds_tone R101, 10_state R31, 60_exceptions R201, R213: a frequency within the bound is written to both channels,
SB takes its sign, the Q phase is derived again, and the answer is the committed magnitude with the commanded sign; one
beyond the bound is a RangeError that carries Fs/2, after the read of the sampling frequency only. -/
def Obligations.ToneSetFreqChecksAndSets : Prop :=
  (∀ (t : Tone) (f : Rat) (s : State), s.perfect 6 → |f| ≤ (s.dds.get t).i.fs / 2 →
      exec (.toneSetFreq t.index f) s
        = .next (((s.issued (freqTrace t (s.dds.get t) f)).withTone t (freqChannels s.setup.coercion (s.dds.get t) f)
            { s.tones.get t with sb := sidebandOf f }).respond
            (.ok (.num ((sidebandOf f).sign * coerce s.setup.coercion .freq |f|)))))
  ∧ (∀ (t : Tone) (f : Rat) (s : State), s.perfect 1 → (s.dds.get t).i.fs / 2 < |f| →
      exec (.toneSetFreq t.index f) s
        = .next ((s.issued [.attrGet ⟨t, .i⟩ .fs]).respond (.err .range (.bound ((s.dds.get t).i.fs / 2)))))

/-- 40_dds_tone R108: TONE.GETFREQ answers the magnitude with the sign the phases show, and writes nothing. -/
def Obligations.ToneGetFreqReadsSign : Prop :=
  ∀ (t : Tone) (s : State), s.perfect 3 →
    exec (.toneGetFreq t.index) s
      = .next ((s.issued (getFreqTrace t)).respond (.ok (.num
          (if normalizePhase ((s.dds.get t).i.phase - (s.dds.get t).q.phase) < 180
            then (s.dds.get t).i.freq else -(s.dds.get t).i.freq))))

/-- 40_dds_tone R103: TONE.SETPHASE wraps any phase into [0, 360), and derives the Q phase from the committed I
phase and the sign last commanded. -/
def Obligations.ToneSetPhaseWraps : Prop :=
  ∀ (t : Tone) (phi : Rat) (s : State), s.perfect 3 →
    exec (.toneSetPhase t.index phi) s
      = .next (((s.issued (phaseTrace t s.setup.coercion (s.tones.get t).sb phi)).withTone t
          (phaseChannels s.setup.coercion (s.dds.get t) (s.tones.get t).sb phi) (s.tones.get t)).respond (.ok .unit))

/-- 40_dds_tone R104: TONE.GETPHASE answers the phase the channel holds; the index is checked before the channel. -/
def Obligations.ToneGetPhaseReadsChannel : Prop :=
  (∀ (t : Tone) (c : Chan) (s : State), s.perfect 1 →
      exec (.toneGetPhase t.index (chanSymbol c)) s
        = .next ((s.issued [.attrGet ⟨t, c⟩ .phase]).respond (.ok (.num ((s.dds.get t).get c).phase))))
  ∧ (∀ (t : Tone) (c : Chan) (s : State) (b : Bool) (rest : List Draw), s.transport = .failed b :: rest →
      exec (.toneGetPhase t.index (chanSymbol c)) s
        = .next ((s.issued [.attrGet ⟨t, c⟩ .phase]).respond
            (.err .transport (.transaction (.attrGet ⟨t, c⟩ .phase)))))
  ∧ (∀ (t : Tone) (x : Symbol) (s : State), x ≠ .I → x ≠ .Q →
      exec (.toneGetPhase t.index x) s = .next { s with trace := [], resp := some (.err .validation (.symbol x)) })
  ∧ (∀ (z : Int) (x : Symbol) (s : State), z ≠ 1 → z ≠ 2 →
      exec (.toneGetPhase z x) s = .next { s with trace := [], resp := some (.err .validation (.int z)) })

/-- 40_dds_tone R105: an amplitude in [0, 1] is written to both channels and ends a mute; any other is a RangeError
before any transaction. -/
def Obligations.ToneSetAmpWritesBoth : Prop :=
  (∀ (t : Tone) (a : Rat) (s : State), s.perfect 2 → 0 ≤ a → a ≤ 1 →
      exec (.toneSetAmp t.index a) s
        = .next (((s.issued (ampTrace t a)).withTone t (ampChannels s.setup.coercion (s.dds.get t) a)
            { s.tones.get t with muted := false }).respond (.ok .unit)))
  ∧ (∀ (t : Tone) (a : Rat) (s : State), a < 0 ∨ 1 < a →
      exec (.toneSetAmp t.index a) s = .next { s with trace := [], resp := some (.err .range (.interval 0 1)) })

/-- 40_dds_tone R106: TONE.GETAMP answers the I channel's scale. -/
def Obligations.ToneGetAmpReadsScale : Prop :=
  (∀ (t : Tone) (s : State), s.perfect 1 →
      exec (.toneGetAmp t.index) s
        = .next ((s.issued [.attrGet ⟨t, .i⟩ .scale]).respond (.ok (.num (s.dds.get t).i.scale))))
  ∧ (∀ (t : Tone) (s : State) (b : Bool) (rest : List Draw), s.transport = .failed b :: rest →
      exec (.toneGetAmp t.index) s
        = .next ((s.issued [.attrGet ⟨t, .i⟩ .scale]).respond
            (.err .transport (.transaction (.attrGet ⟨t, .i⟩ .scale)))))
  ∧ (∀ (z : Int) (s : State), z ≠ 1 → z ≠ 2 →
      exec (.toneGetAmp z) s = .next { s with trace := [], resp := some (.err .validation (.int z)) })

/-- 40_dds_tone R107: `off` caches the amplitude and forces 0 unless the tone is muted, `on` restores the cache if it
is; the other two cases make no transaction. Any other symbol is a ValidationError. -/
def Obligations.ToneStateMutesAndRestores : Prop :=
  (∀ (t : Tone) (on : Bool) (s : State), s.perfect (switchTrace t (s.tones.get t) on).length →
      exec (.toneState t.index (switchSymbol on)) s
        = .next (((s.issued (switchTrace t (s.tones.get t) on)).withTone t
            (switchChannels s.setup.coercion (s.dds.get t) (s.tones.get t) on)
            (switchRegs (s.dds.get t) (s.tones.get t) on)).respond (.ok .unit)))
  ∧ (∀ (t : Tone) (x : Symbol) (s : State), x ≠ .on → x ≠ .off →
      exec (.toneState t.index x) s = .next { s with trace := [], resp := some (.err .validation (.symbol x)) })

/-- 40_dds_tone R107 (the source's property S4), ideal coercion: an amplitude set, muted twice and restored is the
amplitude that was set, and it reads 0 in between. -/
def Obligations.RepeatedMuteRestoresAmplitude : Prop :=
  ∀ (t : Tone) (a : Rat) (s : State), s.setup.coercion = .ideal → s.perfect 7 → 0 ≤ a → a ≤ 1 →
    ∃ s1 s2 s3 s4 : State,
      exec (.toneSetAmp t.index a) s = .next s1 ∧ exec (.toneState t.index .off) s1 = .next s2
        ∧ exec (.toneState t.index .off) s2 = .next s3 ∧ exec (.toneState t.index .on) s3 = .next s4
        ∧ (s2.dds.get t).i.scale = 0 ∧ (s3.dds.get t).i.scale = 0 ∧ s3.trace = []
        ∧ (s4.dds.get t).i.scale = a ∧ (s4.dds.get t).q.scale = a ∧ (s4.tones.get t).muted = false

/-- 40_dds_tone R109: TONE.STATUS answers amplitude, signed frequency and I phase by five reads. -/
def Obligations.ToneStatusReadsAll : Prop :=
  ∀ (t : Tone) (s : State), s.perfect 5 →
    exec (.toneStatus t.index) s
      = .next ((s.issued (statusTrace t)).respond
          (.ok (.status (s.dds.get t).i.scale (shownFreq (s.dds.get t)) (s.dds.get t).i.phase)))

/-- 20_memory R56, 60_exceptions R210: the reading commands of the DDS leave every register and every device value
alone, on any transport. -/
def Obligations.ReadingCommandsChangeNothing : Prop :=
  ∀ (i : Instr) (s t : State), readSide i = true → exec i s = .next t →
    t.dds = s.dds ∧ t.tones = s.tones ∧ t.fir = s.fir ∧ t.seq = s.seq ∧ t.indet = s.indet

/-- 10_state R20 ("the copies never alias"): a command on one tone leaves the other tone's registers and channels
alone, on any transport. -/
def Obligations.ToneCommandsLeaveOtherTone : Prop :=
  ∀ (i : Instr) (t u : Tone) (s s' : State), toneIndexOf i = some t.index → u ≠ t → exec i s = .next s' →
    s'.tones.get u = s.tones.get u ∧ s'.dds.get u = s.dds.get u

/-- 10_state R36, ideal coercion: every command that ends ok keeps the invariants of both tones. -/
def Obligations.OkCommandsKeepToneInvariants : Prop :=
  ∀ (i : Instr) (s s' : State) (t : Tone) (v : Value), s.setup.coercion = .ideal → s.ToneInv t →
    exec i s = .next s' → s'.resp = some (.ok v) → s'.ToneInv t

/-- 10_state R36 item 1, 40_dds_tone R101, R103, ideal coercion: TONE.SETFREQ and TONE.SETPHASE that end ok bring the Q
phase to the one derived from the I phase and SB, from any state. -/
def Obligations.SettingFreqOrPhaseCouplesPhases : Prop :=
  ∀ (t : Tone) (x : Rat) (s s' : State) (v : Value), s.setup.coercion = .ideal →
    (exec (.toneSetFreq t.index x) s = .next s' ∨ exec (.toneSetPhase t.index x) s = .next s') →
      s'.resp = some (.ok v) →
        (s'.dds.get t).q.phase = deriveQPhase (s'.dds.get t).i.phase (s'.tones.get t).sb

/-- 40_dds_tone R111, ideal coercion: after TONE.SETFREQ f that ends ok, TONE.GETFREQ answers f. -/
def Obligations.GetFreqReturnsSetFreq : Prop :=
  ∀ (t : Tone) (f : Rat) (s : State), s.setup.coercion = .ideal → s.perfect 9 → |f| ≤ (s.dds.get t).i.fs / 2 →
    ∃ s1 s2 : State, exec (.toneSetFreq t.index f) s = .next s1 ∧ exec (.toneGetFreq t.index) s1 = .next s2
      ∧ s1.resp = some (.ok (.num f)) ∧ s2.resp = some (.ok (.num f))

/-- 40_dds_tone R124, WAVE = cos: a tone whose Q phase is derived from its I phase with sign s, with one scale A and
one frequency m on both channels, is before quantisation the complex tone A·exp(j·s·theta) (the output is observed between
commands, log entry 21). -/
def Obligations.DerivedPhasesGiveComplexTone : Prop :=
  ∀ (x : PerChan Channel) (fs : Rat) (sb : Sideband) (n : Nat),
    x.q.scale = x.i.scale → x.q.freq = x.i.freq → x.q.phase = deriveQPhase x.i.phase sb →
      (ncoTerm Real.cos x.i fs n : ℂ) + Complex.I * (ncoTerm Real.cos x.q fs n : ℂ)
        = (x.i.scale : ℂ) * Complex.exp (Complex.I * (sb.sign : ℂ) * (ncoAngle x.i fs n : ℂ))

/-! ## DualToneDds -/

/-- 41_dual_tone R130, R136: each level at most 0 dB is converted and set, tone 1 first; None mutes its tone. -/
def Obligations.DdsSetAmpSetsLevels : Prop :=
  ∀ (d1 d2 : Option Rat) (s : State), (∀ d, d1 = some d → d ≤ 0) → (∀ d, d2 = some d → d ≤ 0) →
    s.perfect ((levelTrace .one s.tones.one d1).length + (levelTrace .two s.tones.two d2).length) →
      exec (.ddsSetAmp d1 d2) s
        = .next ((((s.issued (levelTrace .one s.tones.one d1 ++ levelTrace .two s.tones.two d2)).withTone .one
            (levelChannels s.setup.coercion s.dds.one s.tones.one d1) (levelRegs s.dds.one s.tones.one d1)).withTone .two
            (levelChannels s.setup.coercion s.dds.two s.tones.two d2) (levelRegs s.dds.two s.tones.two d2)).respond
            (.ok .unit))

/-- 41_dual_tone R130, 60_exceptions R201: a positive level is a RangeError with bound 0; for tone 1 before any
transaction, for tone 2 after tone 1 was set. -/
def Obligations.DdsSetAmpRefusesPositiveLevel : Prop :=
  (∀ (d : Rat) (d2 : Option Rat) (s : State), 0 < d →
      exec (.ddsSetAmp (some d) d2) s = .next { s with trace := [], resp := some (.err .range (.bound 0)) })
  ∧ (∀ (d1 : Option Rat) (d : Rat) (s : State), (∀ e, d1 = some e → e ≤ 0) → 0 < d →
      s.perfect (levelTrace .one s.tones.one d1).length →
        exec (.ddsSetAmp d1 (some d)) s
          = .next (((s.issued (levelTrace .one s.tones.one d1)).withTone .one
              (levelChannels s.setup.coercion s.dds.one s.tones.one d1)
              (levelRegs s.dds.one s.tones.one d1)).respond (.err .range (.bound 0))))

/-- 41_dual_tone R130, 00_scope R11: 0 dB sets amplitude exactly 1, -10 dB exactly 1/10, and every level at most 0
gives an amplitude above 0 and at most 1, before coercion (the conversions are the model's lawful free functions, log
entry 11). -/
def Obligations.LevelConversionExactPoints : Prop :=
  levelTrace .one ⟨.plus, true, 0⟩ (some 0) = ampTrace .one 1
    ∧ levelTrace .two ⟨.plus, true, 0⟩ (some (-10)) = ampTrace .two (1 / 10)
    ∧ ∀ d : Rat, d ≤ 0 → 0 < Config.dbToLin d ∧ Config.dbToLin d ≤ 1

/-- 41_dual_tone R131, R136: both frequencies in their bounds are set, tone 1 first; an omitted second frequency leaves
tone 2 untouched. A first frequency beyond its bound stops before tone 2; a second one beyond its bound leaves tone 1
set. -/
def Obligations.DdsSetFreqDelegates : Prop :=
  (∀ (f1 f2 : Rat) (s : State), s.perfect 12 → |f1| ≤ s.dds.one.i.fs / 2 → |f2| ≤ s.dds.two.i.fs / 2 →
      exec (.ddsSetFreq f1 (some f2)) s
        = .next ((((s.issued (freqTrace .one s.dds.one f1 ++ freqTrace .two s.dds.two f2)).withTone .one
            (freqChannels s.setup.coercion s.dds.one f1) { s.tones.one with sb := sidebandOf f1 }).withTone .two
            (freqChannels s.setup.coercion s.dds.two f2) { s.tones.two with sb := sidebandOf f2 }).respond (.ok .unit)))
  ∧ (∀ (f1 : Rat) (s : State), s.perfect 6 → |f1| ≤ s.dds.one.i.fs / 2 →
      exec (.ddsSetFreq f1 none) s
        = .next (((s.issued (freqTrace .one s.dds.one f1)).withTone .one
            (freqChannels s.setup.coercion s.dds.one f1) { s.tones.one with sb := sidebandOf f1 }).respond (.ok .unit)))
  ∧ (∀ (f1 : Rat) (f2 : Option Rat) (s : State), s.perfect 1 → s.dds.one.i.fs / 2 < |f1| →
      exec (.ddsSetFreq f1 f2) s
        = .next ((s.issued [.attrGet ⟨.one, .i⟩ .fs]).respond (.err .range (.bound (s.dds.one.i.fs / 2)))))
  ∧ (∀ (f1 f2 : Rat) (s : State), s.perfect 7 → |f1| ≤ s.dds.one.i.fs / 2 → s.dds.two.i.fs / 2 < |f2| →
      exec (.ddsSetFreq f1 (some f2)) s
        = .next (((s.issued (freqTrace .one s.dds.one f1 ++ [.attrGet ⟨.two, .i⟩ .fs])).withTone .one
            (freqChannels s.setup.coercion s.dds.one f1) { s.tones.one with sb := sidebandOf f1 }).respond
            (.err .range (.bound (s.dds.two.i.fs / 2)))))

/-- 41_dual_tone R132, R136: the phases are set, tone 1 first; an omitted second phase leaves tone 2 untouched. -/
def Obligations.DdsSetPhaseSetsTones : Prop :=
  (∀ (p1 p2 : Rat) (s : State), s.perfect 6 →
      exec (.ddsSetPhase p1 (some p2)) s
        = .next ((((s.issued (phaseTrace .one s.setup.coercion s.tones.one.sb p1
              ++ phaseTrace .two s.setup.coercion s.tones.two.sb p2)).withTone .one
            (phaseChannels s.setup.coercion s.dds.one s.tones.one.sb p1) s.tones.one).withTone .two
            (phaseChannels s.setup.coercion s.dds.two s.tones.two.sb p2) s.tones.two).respond (.ok .unit)))
  ∧ (∀ (p1 : Rat) (s : State), s.perfect 3 →
      exec (.ddsSetPhase p1 none) s
        = .next (((s.issued (phaseTrace .one s.setup.coercion s.tones.one.sb p1)).withTone .one
            (phaseChannels s.setup.coercion s.dds.one s.tones.one.sb p1) s.tones.one).respond (.ok .unit)))

/-- 41_dual_tone R133, 10_state R37: DDS.ISOFF answers true exactly when both tones' I scale is 0; a failing read ends
it. -/
def Obligations.DdsIsOffMeansBothSilent : Prop :=
  (∀ s : State, s.perfect 2 → ∃ b : Bool,
      exec .ddsIsOff s
        = .next ((s.issued [.attrGet ⟨.one, .i⟩ .scale, .attrGet ⟨.two, .i⟩ .scale]).respond (.ok (.bool b)))
      ∧ (b = true ↔ s.dds.one.i.scale = 0 ∧ s.dds.two.i.scale = 0))
  ∧ (∀ (s : State) (b : Bool) (rest : List Draw), s.transport = .failed b :: rest →
      exec .ddsIsOff s
        = .next ((s.issued [.attrGet ⟨.one, .i⟩ .scale]).respond
            (.err .transport (.transaction (.attrGet ⟨.one, .i⟩ .scale)))))
  ∧ (∀ (s : State) (b : Bool) (rest : List Draw), s.transport = .done :: .failed b :: rest →
      exec .ddsIsOff s
        = .next ((s.issued [.attrGet ⟨.one, .i⟩ .scale, .attrGet ⟨.two, .i⟩ .scale]).respond
            (.err .transport (.transaction (.attrGet ⟨.two, .i⟩ .scale)))))

/-- 41_dual_tone R134, 00_scope R11: DDS.STATUS answers the tone's status with units, and the level 99.9 exactly at
amplitude 0; for an amplitude above 0 and at most 1 the level is at most 0, and within 1e-9 of 10·log10 of it. That
closeness is the model's reading of R11 with 92_eei_decisions D4 (log entry 11): R11 itself gives `linToDb` two exact
points and the inverse law. Below 0 or above 1 the level is free (log entry 12). -/
def Obligations.DdsStatusReportsLevel : Prop :=
  ∀ (t : Tone) (s : State), s.perfect 5 → ∃ level : Rat,
    exec (.ddsStatus t.index) s
      = .next ((s.issued (statusTrace t)).respond
          (.ok (.report (shownFreq (s.dds.get t)) "MHz" (s.dds.get t).i.phase level "dB")))
    ∧ ((s.dds.get t).i.scale = 0 → level = 999 / 10)
    ∧ (0 < (s.dds.get t).i.scale → (s.dds.get t).i.scale ≤ 1 →
        level ≤ 0 ∧ |(level : ℝ) - 10 * Real.logb 10 ((s.dds.get t).i.scale : ℝ)| ≤ 1 / 10 ^ 9)

/-- 41_dual_tone R135: DDS.STATE applies TONE.STATE to tone 1 and then tone 2, each with its own cache; any other
symbol is a ValidationError. -/
def Obligations.DdsStateSwitchesBoth : Prop :=
  (∀ (on : Bool) (s : State),
      s.perfect ((switchTrace .one s.tones.one on).length + (switchTrace .two s.tones.two on).length) →
        exec (.ddsState (switchSymbol on)) s
          = .next ((((s.issued (switchTrace .one s.tones.one on ++ switchTrace .two s.tones.two on)).withTone .one
              (switchChannels s.setup.coercion s.dds.one s.tones.one on) (switchRegs s.dds.one s.tones.one on)).withTone
              .two (switchChannels s.setup.coercion s.dds.two s.tones.two on)
              (switchRegs s.dds.two s.tones.two on)).respond (.ok .unit)))
  ∧ (∀ (x : Symbol) (s : State), x ≠ .on → x ≠ .off →
      exec (.ddsState x) s = .next { s with trace := [], resp := some (.err .validation (.symbol x)) })

/-- 00_scope R2, 60_exceptions R212: a command of the DDS subsystem leaves the FIR subsystem's state alone, and one of
the FIR subsystem the DDS's, on any transport. -/
def Obligations.SubsystemsIndependent : Prop :=
  ∀ (i : Instr) (s t : State), exec i s = .next t →
    (ddsSide i = true → t.fir = s.fir ∧ t.seq = s.seq ∧ t.indet = s.indet)
      ∧ (ddsSide i = false → t.dds = s.dds ∧ t.tones = s.tones)

/-! ## FIR codec -/

/-- 42_fir_codec R150: FIR.ENCODE of an int16 v answers the bytes of `v mod 65536`; any other v is a ValidationError.
Nothing but RESP changes. -/
def Obligations.FirEncodeSplitsTap : Prop :=
  (∀ (v : Int) (s : State), -32768 ≤ v → v ≤ 32767 →
      exec (.firEncode v) s
        = .next { s with
            trace := []
            resp := some (.ok (.bytes (BitVec.ofInt 8 (v % 65536 / 256)) (BitVec.ofInt 8 (v % 65536 % 256)))) })
  ∧ (∀ (v : Int) (s : State), v < -32768 ∨ 32767 < v →
      exec (.firEncode v) s = .next { s with trace := [], resp := some (.err .validation (.int v)) })

/-- 42_fir_codec R151: FIR.DECODE of two bytes answers `256*hi + lo - (hi >= 128 ? 65536 : 0)`; hi is checked before
lo. Nothing but RESP changes. -/
def Obligations.FirDecodeJoinsBytes : Prop :=
  (∀ (hi lo : Int) (s : State), 0 ≤ hi → hi ≤ 255 → 0 ≤ lo → lo ≤ 255 →
      exec (.firDecode hi lo) s
        = .next { s with
            trace := []
            resp := some (.ok (.int (256 * hi + lo - if hi ≥ 128 then 65536 else 0))) })
  ∧ (∀ (hi lo : Int) (s : State), hi < 0 ∨ 255 < hi →
      exec (.firDecode hi lo) s = .next { s with trace := [], resp := some (.err .validation (.int hi)) })
  ∧ (∀ (hi lo : Int) (s : State), 0 ≤ hi → hi ≤ 255 → lo < 0 ∨ 255 < lo →
      exec (.firDecode hi lo) s = .next { s with trace := [], resp := some (.err .validation (.int lo)) })

/-- 42_fir_codec R154: the codec is a bijection between int16 and byte pairs. -/
def Obligations.CodecRoundTrip : Prop :=
  (∀ (v : Int) (h l : Byte) (s t : State), -32768 ≤ v → v ≤ 32767 →
      exec (.firEncode v) s = .next t → t.resp = some (.ok (.bytes h l)) →
        exec (.firDecode h.toNat l.toNat) s = .next { s with trace := [], resp := some (.ok (.int v)) })
  ∧ (∀ (h l : Byte) (v : Int) (s t : State),
      exec (.firDecode h.toNat l.toNat) s = .next t → t.resp = some (.ok (.int v)) →
        exec (.firEncode v) s = .next { s with trace := [], resp := some (.ok (.bytes h l)) })

/-- 42_fir_codec R152: FIR.SETBIT answers the word with bit i as commanded and the other seven unchanged; i is checked
before w and w before the switch. Nothing but RESP changes. -/
def Obligations.FirSetBitChangesOneBit : Prop :=
  (∀ (i w : Nat) (on : Bool) (s : State), i ≤ 7 → w ≤ 255 → ∃ r : Byte,
      exec (.firSetBit i w (switchSymbol on)) s = .next { s with trace := [], resp := some (.ok (.byte r)) }
      ∧ ∀ j, j < 8 → r.getLsbD j = if j = i then on else w.testBit j)
  ∧ (∀ (i w : Int) (x : Symbol) (s : State), i < 0 ∨ 7 < i →
      exec (.firSetBit i w x) s = .next { s with trace := [], resp := some (.err .validation (.int i)) })
  ∧ (∀ (i w : Int) (x : Symbol) (s : State), 0 ≤ i → i ≤ 7 → w < 0 ∨ 255 < w →
      exec (.firSetBit i w x) s = .next { s with trace := [], resp := some (.err .validation (.int w)) })
  ∧ (∀ (i w : Int) (x : Symbol) (s : State), 0 ≤ i → i ≤ 7 → 0 ≤ w → w ≤ 255 → x ≠ .on → x ≠ .off →
      exec (.firSetBit i w x) s = .next { s with trace := [], resp := some (.err .validation (.symbol x)) })

/-- 42_fir_codec R155: setting bit i and clearing it again leaves `w & ~(1 << i)`. -/
def Obligations.SetBitLaw : Prop :=
  ∀ (i : Nat) (w : Byte), i ≤ 7 → setBit i (setBit i w true) false = w &&& ~~~((1 : Byte) <<< i)

/-- 42_fir_codec R153, 30_encoding R72, R73: FIR.BUILDCFG packs the tap class, CHSEL 0b11 and the TX gain bit, and
answers the RX gain code beside it; the path is checked first, then taps, then the gain. Nothing but RESP changes. -/
def Obligations.FirBuildCfgPacksWord : Prop :=
  (∀ (p : Path) (taps : Int) (gain : Rat) (s : State), 16 ≤ taps → taps ≤ 128 → taps % 16 = 0 → gain ∈ legalGains p →
      exec (.firBuildCfg (pathSymbol p) taps gain) s
        = .next { s with
            trace := []
            resp := some (.ok (match p with
              | .tx => .config (BitVec.ofInt 8 ((taps / 16 - 1) * 32 + 24 + if gain = -6 then 1 else 0)) none
              | .rx => .config (BitVec.ofInt 8 ((taps / 16 - 1) * 32 + 24))
                  (some (if gain = -12 then 0 else if gain = -6 then 1 else if gain = 0 then 2 else 3)))) })
  ∧ (∀ (x : Symbol) (taps : Int) (gain : Rat) (s : State), x ≠ .TX → x ≠ .RX →
      exec (.firBuildCfg x taps gain) s = .next { s with trace := [], resp := some (.err .validation (.symbol x)) })
  ∧ (∀ (p : Path) (taps : Int) (gain : Rat) (s : State), taps < 16 ∨ 128 < taps ∨ taps % 16 ≠ 0 →
      exec (.firBuildCfg (pathSymbol p) taps gain) s
        = .next { s with trace := [], resp := some (.err .validation (.int taps)) })
  ∧ (∀ (p : Path) (taps : Int) (gain : Rat) (s : State), 16 ≤ taps → taps ≤ 128 → taps % 16 = 0 →
      gain ∉ legalGains p →
        exec (.firBuildCfg (pathSymbol p) taps gain) s
          = .next { s with trace := [], resp := some (.err .range (.legal (legalGains p))) })

/-! ## FIR programmer -/

/-- 43_fir_programmer R171 to R174, 20_memory R58: a legal upload to the reference device issues its mandatory
sequence and leaves the bank holding the taps and zeros, the registers as last written, the filter enabled, INDET[p]
false and SEQ Idle. Nothing else changes, but that while the other path is indeterminate FIR_EN and that path's contents
are unknown (10_state R26: `blur`, which changes nothing otherwise; log entry 9). -/
def Obligations.UploadProgramsReferenceDevice : Prop :=
  ∀ (p : Path) (c : List Int) (taps : Int) (gain : Rat) (s : State), LegalUpload p c taps gain →
    s.setup.firDevice = .reference → s.perfect (uploadCount p) →
      exec (uploadInstr p c taps gain) s
        = .next ({ s.issued (uploadTrace p c (configWord taps (gainBit p gain)) gain) with
            fir := uploadedFir s.fir p c (configWord taps (gainBit p gain)) gain
            indet := s.indet.set p false
            seq := .idle }.blur.respond (.ok .unit))

/-- 43_fir_programmer R171, R174: on any FIR device a legal upload completes with the mandatory sequence: 518
transactions on TX, 519 on RX, whatever the taps. The filter is enabled; that is known unless the other path is
indeterminate (10_state R26). -/
def Obligations.UploadSequenceMandatory : Prop :=
  ∀ (p : Path) (c : List Int) (taps : Int) (gain : Rat) (s : State), LegalUpload p c taps gain →
    s.perfect (uploadCount p) →
      ∃ t, exec (uploadInstr p c taps gain) s = .next t ∧ t.resp = some (.ok .unit)
        ∧ t.trace = uploadTrace p c (configWord taps (gainBit p gain)) gain ∧ t.trace.length = uploadCount p
        ∧ t.indet = s.indet.set p false ∧ t.seq = .idle
        ∧ ((∀ q, q ≠ p → s.indet.get q = false) → t.fir.enable = "1")

/-- 10_state R38: an upload that ends ok leaves the taps in the first slots and zero in every other, under the
reference device, whatever the transport did before. -/
def Obligations.UploadZeroFillsBank : Prop :=
  ∀ (p : Path) (c : List Int) (taps : Int) (gain : Rat) (s t : State), s.setup.firDevice = .reference →
    exec (uploadInstr p c taps gain) s = .next t → t.resp = some (.ok .unit) →
      ∀ k : Fin 128, (((t.fir.regs.paths.get p).bank[k.val]'k.isLt).toInt) = if k.val < c.length then c.getD k 0 else 0

/-- 43_fir_programmer R170, 60_exceptions R202, R206: an upload with an illegal operand ends before any transaction:
taps first, then the gain, then the length, then the first tap out of range. -/
def Obligations.UploadValidatesBeforeTraffic : Prop :=
  ∀ (p : Path) (c : List Int) (taps : Int) (gain : Rat) (s : State),
    ((taps < 16 ∨ 128 < taps ∨ taps % 16 ≠ 0) →
      exec (uploadInstr p c taps gain) s = .next { s with trace := [], resp := some (.err .validation (.int taps)) })
    ∧ (16 ≤ taps → taps ≤ 128 → taps % 16 = 0 →
      (gain ∉ legalGains p →
        exec (uploadInstr p c taps gain) s
          = .next { s with trace := [], resp := some (.err .range (.legal (legalGains p))) })
      ∧ (gain ∈ legalGains p →
        (128 < c.length →
          exec (uploadInstr p c taps gain) s
            = .next { s with trace := [], resp := some (.err .validation (.int c.length)) })
        ∧ (c.length ≤ 128 → ∀ (a : List Int) (v : Int) (b : List Int), c = a ++ v :: b →
          (∀ u ∈ a, -32768 ≤ u ∧ u ≤ 32767) → (v < -32768 ∨ 32767 < v) →
            exec (uploadInstr p c taps gain) s
              = .next { s with trace := [], resp := some (.err .validation (.int v)) })))

/-- 43_fir_programmer R176 to R178, 20_memory R58: a readback of a determinate path of the reference device answers
the trimmed bank and leaves COEFF_ADDR at 127 and FIR_CONFIG at 0xEA. Nothing else changes, but that while the other
path is indeterminate FIR_EN and that path's contents are unknown (10_state R26: `blur`, which changes nothing
otherwise; log entry 9). -/
def Obligations.ReadbackReturnsTrimmedBank : Prop :=
  ∀ (p : Path) (s : State), s.setup.firDevice = .reference → s.indet.get p = false → s.perfect 385 →
    exec (readbackInstr p) s
      = .next ({ s.issued (readbackTrace p) with
          fir := { s.fir with
            regs := s.fir.regs.setPath p { s.fir.regs.paths.get p with addr := 127, cfg := 0xEA } }
          seq := .idle }.blur.respond (.ok (.taps (trim (bankTaps (s.fir.regs.paths.get p).bank)))))

/-- 43_fir_programmer R175: `trim` takes off the zeros at both ends and nothing else. -/
def Obligations.TrimRemovesZeroRuns : Prop :=
  ∀ r : List Int, ∃ m n : Nat, r = List.replicate m 0 ++ trim r ++ List.replicate n 0
    ∧ (trim r).head? ≠ some 0 ∧ (trim r).getLast? ≠ some 0

/-- 43_fir_programmer R181: on the reference device, what was uploaded reads back trimmed, whatever commands ran in
between that are not on its path. R181 assumes no TransportError; that those in between may fail rests on R205 item 5 and
10_state R26, as log entry 9 reads them. -/
def Obligations.UploadThenReadbackTrims : Prop :=
  ∀ (p : Path) (c : List Int) (taps : Int) (gain : Rat) (between : List Instr) (s t u : State),
    s.setup.firDevice = .reference → exec (uploadInstr p c taps gain) s = .next t → t.resp = some (.ok .unit) →
      (∀ i ∈ between, onFirPath p i = false) → Commands between t u → u.perfect 385 →
        ∃ v, exec (readbackInstr p) u = .next v ∧ v.resp = some (.ok (.taps (trim c)))

/-- 43_fir_programmer R182, 10_state R35: a file that is present is loaded between a disable and an enable of the
filter, and the registers and banks of both paths become what `blobEffect` gives (log entry 22); an absent file is a
NotFoundError before any effect. -/
def Obligations.LoadFileWritesBlob : Prop :=
  (∀ (name b : String) (s : State), s.setup.files.lookup name = some b → s.perfect 3 →
      exec (.firLoadFile name) s
        = .next ({ s.issued (loadTrace b) with
            fir := { regs := Config.blobEffect b, enable := "1", blob := b }
            indet := ⟨false, false⟩
            seq := .idle }.respond (.ok .unit)))
  ∧ (∀ (name : String) (s : State), s.setup.files.lookup name = none →
      exec (.firLoadFile name) s = .next { s with trace := [], resp := some (.err .notFound (.name name)) })

/-- 60_exceptions R205 item 5, 10_state R25, R26: a FIR command that ends with TransportError leaves SEQ at the state
reached, which is that of the last transaction issued, and sets INDET of its path, or of both paths for FIR.LOADFILE
(log entry 9). No such state is Idle. -/
def Obligations.FirTransportErrorMarksIndeterminate : Prop :=
  (∀ (p : Path) (c : List Int) (taps : Int) (gain : Rat) (x : Info) (s t : State),
      exec (uploadInstr p c taps gain) s = .next t → t.resp = some (.err .transport x) →
        t.indet = s.indet.set p true ∧ 0 < t.trace.length ∧ t.seq = uploadSeq p (t.trace.length - 1))
  ∧ (∀ (p : Path) (x : Info) (s t : State),
      exec (readbackInstr p) s = .next t → t.resp = some (.err .transport x) →
        t.indet = s.indet.set p true ∧ 0 < t.trace.length ∧ t.seq = readbackSeq (t.trace.length - 1))
  ∧ (∀ (name : String) (x : Info) (s t : State),
      exec (.firLoadFile name) s = .next t → t.resp = some (.err .transport x) →
        t.indet = ⟨true, true⟩ ∧ 0 < t.trace.length ∧ t.seq = loadSeq (t.trace.length - 1))
  ∧ (∀ (p : Path) (n : Nat), uploadSeq p n ≠ .idle) ∧ (∀ n, readbackSeq n ≠ .idle) ∧ (∀ n, loadSeq n ≠ .idle)

/-- 10_state R25, 43_fir_programmer R171, 60_exceptions R205: an upload on either path whose n-th transaction fails
stops with SEQ at that transaction's state and INDET of the path set, having issued that transaction and none after
it. -/
def Obligations.UploadStopsWhereItFails : Prop :=
  ∀ (p : Path) (c : List Int) (taps : Int) (gain : Rat) (s : State) (n : Nat) (b : Bool) (rest : List Draw),
    LegalUpload p c taps gain → n < uploadCount p → s.transport = List.replicate n .done ++ .failed b :: rest →
      ∃ t, exec (uploadInstr p c taps gain) s = .next t ∧ t.seq = uploadSeq p n ∧ t.indet = s.indet.set p true
        ∧ t.trace = (uploadTrace p c (configWord taps (gainBit p gain)) gain).take (n + 1)

/-! ## Reset and the step -/

/-- 70_reset R230, R233: what State.reset holds. That State.reset is the state after a reset that completed, with DEV0
and the launch parameters as free constants, is the model's choice (log entries 5, 6 and 14). -/
def Obligations.ResetTable : Prop :=
  (∀ t : Tone, (State.reset.tones.get t).muted = true ∧ (State.reset.tones.get t).cache = 0
      ∧ (State.reset.tones.get t).sb
          = (if normalizePhase ((Config.dev0.dds.get t).i.phase - (Config.dev0.dds.get t).q.phase) < 180 then .plus else .minus)
      ∧ (State.reset.dds.get t).i = { (Config.dev0.dds.get t).i with scale := coerce State.reset.setup.coercion .scale 0 }
      ∧ (State.reset.dds.get t).q = { (Config.dev0.dds.get t).q with scale := coerce State.reset.setup.coercion .scale 0 })
    ∧ State.reset.resp = none ∧ State.reset.seq = .idle ∧ State.reset.indet = ⟨false, false⟩
    ∧ State.reset.fir = Config.dev0.fir

/-- 70_reset R230, R231: on a platform that lacks nothing the block needs and a transport that does not fail, the reset
input runs reset's eight transactions, tone 1 first, from any state (a reset of a ready block is the model's choice, log
entry 26): SB from the device's phases, scale 0 written to every channel, CACHE 0, MUTED true, RESP none, SEQ Idle, INDET
false. -/
def Obligations.ResetSequenceRuns : Prop :=
  ∀ (s : State) (rest : List Input), s.port = .reset :: rest → s.setup.firstAbsent = none → s.perfect 8 →
    step s = .next { s.issued resetTrace with
      port := rest
      tones := ⟨resetTone s.dds.one, resetTone s.dds.two⟩
      dds := ⟨resetChannels s.setup.coercion s.dds.one, resetChannels s.setup.coercion s.dds.two⟩
      resp := none, seq := .idle, indet := ⟨false, false⟩, boot := .ready }

/-- 70_reset R232, U20: a reset on a platform that lacks a handle ends with NotFoundError without a transaction, and a
block left so accepts no command (the fault and the order of the handles are the model's, log entries 15 and 17, and so
is a reset of a block that is ready, log entry 26). -/
def Obligations.AbsentHandleStopsBlock : Prop :=
  (∀ (s : State) (rest : List Input) (h : Handle), s.port = .reset :: rest → s.setup.firstAbsent = some h →
      step s = .next { s with
        port := rest, trace := [], boot := .absent h, resp := some (.err .notFound (.name (Config.handleName h))) })
  ∧ (∀ (s : State) (c : RawCommand) (rest : List Input) (h : Handle), s.boot = .absent h →
      s.port = .command c :: rest → step s = .fault (.notConstructed h))

/-- 70_reset R231, R232 item 2, 60_exceptions R205: a reset whose n-th transaction fails ends with that TransportError
and does not leave the block ready (log entry 16). The transactions before it have been performed, the failing one
exactly if it took effect, and SB, CACHE and MUTED of each tone are new as far as the sequence came. It speaks of every
state, so also of a reset of a ready block, which is the model's choice (log entry 26). -/
def Obligations.FailedResetNotReady : Prop :=
  ∀ (s : State) (rest : List Input) (n : Nat) (x : Transaction) (b : Bool) (ds : List Draw), s.port = .reset :: rest →
    s.setup.firstAbsent = none → resetTrace[n]? = some x → s.transport = List.replicate n .done ++ .failed b :: ds →
      step s = .next { s.performed (resetTrace.take (if b then n + 1 else n)) with
        port := rest
        tones := ⟨resetRegsAt s.dds.one s.tones.one n, resetRegsAt s.dds.two s.tones.two (n - 4)⟩
        resp := some (.err .transport (.transaction x)), seq := .idle, indet := ⟨false, false⟩, boot := .failed
        trace := resetTrace.take (n + 1), transport := ds, draws := s.draws + n + 1 }

/-- 70_reset R230 (the block waits for a command), 60_exceptions R211 (a second agent's run is refused), 70_reset R242
(a changed sampling frequency leaves the committed frequencies as they are, with no error). The forms of these inputs
are the model's (log entries 18, 19 and 20). -/
def Obligations.OtherInputs : Prop :=
  (∀ s : State, s.port = [] → step s = .next s)
  ∧ (∀ (s : State) (rest : List Input), s.port = .secondAgent :: rest → step s = .refused .secondAgent)
  ∧ (∀ (s : State) (rest : List Input) (ch : ChanId) (fs : Rat), s.port = .samplingRate ch fs :: rest →
      ∃ t, step s = .next t ∧ t.resp = s.resp ∧ t.tones = s.tones ∧ (t.channel ch).fs = fs
        ∧ ∀ c : ChanId, (t.channel c).freq = (s.channel c).freq)

/-- 10_state R25, R26, 70_reset R232, 00_scope R7: every step keeps the invariant, whatever the input and the
transport: among it, that a path's contents, and FIR_EN, are free values as long as the path is indeterminate (log entry
9). No step changes a launch parameter. After a reset that ended with TransportError the invariant says
nothing of SEQ (log entry 16); a reset of a ready block is the model's choice (log entry 26). -/
def Obligations.StepKeepsInvariant : Prop := ∀ s t : State, s.Inv → step s = .next t → t.Inv ∧ t.setup = s.setup

/-- 10_state R25, 70_reset R230, R232: the invariant holds after reset. -/
def Obligations.ResetHasInvariant : Prop := State.reset.Inv

/-- 20_memory R50, R52: the registers have the addresses of the map; they are distinct, within REG_ADDR_W bits, and each
RX address is its TX counterpart plus 0x90. -/
def Obligations.RegisterMapMirrored : Prop :=
  (∀ r : WriteReg, r.addr < 2 ^ Config.regAddrW) ∧ (∀ r : ReadReg, r.addr < 2 ^ Config.regAddrW)
    ∧ (∀ r q : WriteReg, r.addr = q.addr → r = q) ∧ (∀ r q : ReadReg, r.addr = q.addr → r = q)
    ∧ (∀ (r : WriteReg) (q : ReadReg), r.addr ≠ q.addr)
    ∧ (WriteReg.coeffAddr .tx).addr = 0x60 ∧ (WriteReg.coeffAddr .rx).addr = 0x60 + 0x90
    ∧ (WriteReg.writeLo .tx).addr = 0x61 ∧ (WriteReg.writeLo .rx).addr = 0x61 + 0x90
    ∧ (WriteReg.writeHi .tx).addr = 0x62 ∧ (WriteReg.writeHi .rx).addr = 0x62 + 0x90
    ∧ (ReadReg.readLo .tx).addr = 0x63 ∧ (ReadReg.readLo .rx).addr = 0x63 + 0x90
    ∧ (ReadReg.readHi .tx).addr = 0x64 ∧ (ReadReg.readHi .rx).addr = 0x64 + 0x90
    ∧ (WriteReg.firConfig .tx).addr = 0x65 ∧ (WriteReg.firConfig .rx).addr = 0x65 + 0x90
    ∧ WriteReg.firGain.addr = 0xF6
end

