-- ==== Sys2Proof/Laws/State.lean ====
section
/-! SUPPORT. One lemma per field of State per update, and the reads after writes of the pairs that hold a value for each
tone, channel and path. -/

namespace Sys2Proof

variable {α : Type}

@[simp] theorem PerTone.get_set (x : PerTone α) (t u : Tone) (a : α) :
    (x.set t a).get u = if u = t then a else x.get u := by
  cases t <;> cases u <;> rfl

@[simp] theorem PerTone.set_set (x : PerTone α) (t : Tone) (a b : α) : (x.set t a).set t b = x.set t b := by
  cases t <;> rfl

@[simp] theorem PerTone.set_get (x : PerTone α) (t : Tone) : x.set t (x.get t) = x := by
  cases t <;> rfl

@[simp] theorem PerTone.get_one (x : PerTone α) : x.get .one = x.one := rfl

@[simp] theorem PerTone.get_two (x : PerTone α) : x.get .two = x.two := rfl

@[simp] theorem PerChan.get_set (x : PerChan α) (t u : Chan) (a : α) :
    (x.set t a).get u = if u = t then a else x.get u := by
  cases t <;> cases u <;> rfl

@[simp] theorem PerChan.get_i (x : PerChan α) : x.get .i = x.i := rfl

@[simp] theorem PerChan.get_q (x : PerChan α) : x.get .q = x.q := rfl

@[simp] theorem PerChan.set_i (x : PerChan α) (a : α) : x.set .i a = { x with i := a } := rfl

@[simp] theorem PerChan.set_q (x : PerChan α) (a : α) : x.set .q a = { x with q := a } := rfl

@[simp] theorem PerPath.get_set (x : PerPath α) (t u : Path) (a : α) :
    (x.set t a).get u = if u = t then a else x.get u := by
  cases t <;> cases u <;> rfl

@[simp] theorem PerPath.set_set (x : PerPath α) (t : Path) (a b : α) : (x.set t a).set t b = x.set t b := by
  cases t <;> rfl

@[simp] theorem PerPath.set_get (x : PerPath α) (t : Path) : x.set t (x.get t) = x := by
  cases t <;> rfl

namespace Machine

variable (s : State)

/-! ## respond -/

@[simp] theorem State.respond_tones (r : Response) : (s.respond r).tones = s.tones := rfl
@[simp] theorem State.respond_resp (r : Response) : (s.respond r).resp = some r := rfl
@[simp] theorem State.respond_seq (r : Response) : (s.respond r).seq = s.seq := rfl
@[simp] theorem State.respond_indet (r : Response) : (s.respond r).indet = s.indet := rfl
@[simp] theorem State.respond_boot (r : Response) : (s.respond r).boot = s.boot := rfl
@[simp] theorem State.respond_dds (r : Response) : (s.respond r).dds = s.dds := rfl
@[simp] theorem State.respond_fir (r : Response) : (s.respond r).fir = s.fir := rfl
@[simp] theorem State.respond_port (r : Response) : (s.respond r).port = s.port := rfl
@[simp] theorem State.respond_setup (r : Response) : (s.respond r).setup = s.setup := rfl
@[simp] theorem State.respond_transport (r : Response) : (s.respond r).transport = s.transport := rfl
@[simp] theorem State.respond_draws (r : Response) : (s.respond r).draws = s.draws := rfl
@[simp] theorem State.respond_trace (r : Response) : (s.respond r).trace = s.trace := rfl

/-! ## takeError -/

@[simp] theorem State.takeError_tones (e : Failure) : (s.takeError e).tones = s.tones := rfl
@[simp] theorem State.takeError_resp (e : Failure) : (s.takeError e).resp = some (.err e.kind e.info) := rfl
@[simp] theorem State.takeError_seq (e : Failure) : (s.takeError e).seq = s.seq := rfl
@[simp] theorem State.takeError_indet (e : Failure) : (s.takeError e).indet = s.indet := rfl
@[simp] theorem State.takeError_boot (e : Failure) : (s.takeError e).boot = s.boot := rfl
@[simp] theorem State.takeError_dds (e : Failure) : (s.takeError e).dds = s.dds := rfl
@[simp] theorem State.takeError_fir (e : Failure) : (s.takeError e).fir = s.fir := rfl
@[simp] theorem State.takeError_port (e : Failure) : (s.takeError e).port = s.port := rfl
@[simp] theorem State.takeError_setup (e : Failure) : (s.takeError e).setup = s.setup := rfl
@[simp] theorem State.takeError_transport (e : Failure) : (s.takeError e).transport = s.transport := rfl
@[simp] theorem State.takeError_draws (e : Failure) : (s.takeError e).draws = s.draws := rfl
@[simp] theorem State.takeError_trace (e : Failure) : (s.takeError e).trace = s.trace := rfl

/-! ## begin -/

@[simp] theorem State.begin_tones : s.begin.tones = s.tones := rfl
@[simp] theorem State.begin_resp : s.begin.resp = s.resp := rfl
@[simp] theorem State.begin_seq : s.begin.seq = s.seq := rfl
@[simp] theorem State.begin_indet : s.begin.indet = s.indet := rfl
@[simp] theorem State.begin_boot : s.begin.boot = s.boot := rfl
@[simp] theorem State.begin_dds : s.begin.dds = s.dds := rfl
@[simp] theorem State.begin_fir : s.begin.fir = s.fir := rfl
@[simp] theorem State.begin_port : s.begin.port = s.port := rfl
@[simp] theorem State.begin_setup : s.begin.setup = s.setup := rfl
@[simp] theorem State.begin_transport : s.begin.transport = s.transport := rfl
@[simp] theorem State.begin_draws : s.begin.draws = s.draws := rfl
@[simp] theorem State.begin_trace : s.begin.trace = [] := rfl

/-! ## issue -/

@[simp] theorem State.issue_tones (x : Transaction) : (s.issue x).tones = s.tones := rfl
@[simp] theorem State.issue_resp (x : Transaction) : (s.issue x).resp = s.resp := rfl
@[simp] theorem State.issue_seq (x : Transaction) : (s.issue x).seq = s.seq := rfl
@[simp] theorem State.issue_indet (x : Transaction) : (s.issue x).indet = s.indet := rfl
@[simp] theorem State.issue_boot (x : Transaction) : (s.issue x).boot = s.boot := rfl
@[simp] theorem State.issue_dds (x : Transaction) : (s.issue x).dds = s.dds := rfl
@[simp] theorem State.issue_fir (x : Transaction) : (s.issue x).fir = s.fir := rfl
@[simp] theorem State.issue_port (x : Transaction) : (s.issue x).port = s.port := rfl
@[simp] theorem State.issue_setup (x : Transaction) : (s.issue x).setup = s.setup := rfl
@[simp] theorem State.issue_transport (x : Transaction) : (s.issue x).transport = s.transport.tail := rfl
@[simp] theorem State.issue_draws (x : Transaction) : (s.issue x).draws = s.draws + 1 := rfl
@[simp] theorem State.issue_trace (x : Transaction) : (s.issue x).trace = s.trace ++ [x] := rfl

/-! ## setTone -/

@[simp] theorem State.setTone_tones (t : Tone) (r : ToneRegs) : (s.setTone t r).tones = s.tones.set t r := rfl
@[simp] theorem State.setTone_resp (t : Tone) (r : ToneRegs) : (s.setTone t r).resp = s.resp := rfl
@[simp] theorem State.setTone_seq (t : Tone) (r : ToneRegs) : (s.setTone t r).seq = s.seq := rfl
@[simp] theorem State.setTone_indet (t : Tone) (r : ToneRegs) : (s.setTone t r).indet = s.indet := rfl
@[simp] theorem State.setTone_boot (t : Tone) (r : ToneRegs) : (s.setTone t r).boot = s.boot := rfl
@[simp] theorem State.setTone_dds (t : Tone) (r : ToneRegs) : (s.setTone t r).dds = s.dds := rfl
@[simp] theorem State.setTone_fir (t : Tone) (r : ToneRegs) : (s.setTone t r).fir = s.fir := rfl
@[simp] theorem State.setTone_port (t : Tone) (r : ToneRegs) : (s.setTone t r).port = s.port := rfl
@[simp] theorem State.setTone_setup (t : Tone) (r : ToneRegs) : (s.setTone t r).setup = s.setup := rfl
@[simp] theorem State.setTone_transport (t : Tone) (r : ToneRegs) : (s.setTone t r).transport = s.transport := rfl
@[simp] theorem State.setTone_draws (t : Tone) (r : ToneRegs) : (s.setTone t r).draws = s.draws := rfl
@[simp] theorem State.setTone_trace (t : Tone) (r : ToneRegs) : (s.setTone t r).trace = s.trace := rfl

/-! ## setChannel -/

@[simp] theorem State.setChannel_tones (ch : ChanId) (x : Channel) : (s.setChannel ch x).tones = s.tones := rfl
@[simp] theorem State.setChannel_resp (ch : ChanId) (x : Channel) : (s.setChannel ch x).resp = s.resp := rfl
@[simp] theorem State.setChannel_seq (ch : ChanId) (x : Channel) : (s.setChannel ch x).seq = s.seq := rfl
@[simp] theorem State.setChannel_indet (ch : ChanId) (x : Channel) : (s.setChannel ch x).indet = s.indet := rfl
@[simp] theorem State.setChannel_boot (ch : ChanId) (x : Channel) : (s.setChannel ch x).boot = s.boot := rfl
@[simp] theorem State.setChannel_dds (ch : ChanId) (x : Channel) : (s.setChannel ch x).dds = s.dds.set ch.tone ((s.dds.get ch.tone).set ch.chan x) := rfl
@[simp] theorem State.setChannel_fir (ch : ChanId) (x : Channel) : (s.setChannel ch x).fir = s.fir := rfl
@[simp] theorem State.setChannel_port (ch : ChanId) (x : Channel) : (s.setChannel ch x).port = s.port := rfl
@[simp] theorem State.setChannel_setup (ch : ChanId) (x : Channel) : (s.setChannel ch x).setup = s.setup := rfl
@[simp] theorem State.setChannel_transport (ch : ChanId) (x : Channel) : (s.setChannel ch x).transport = s.transport := rfl
@[simp] theorem State.setChannel_draws (ch : ChanId) (x : Channel) : (s.setChannel ch x).draws = s.draws := rfl
@[simp] theorem State.setChannel_trace (ch : ChanId) (x : Channel) : (s.setChannel ch x).trace = s.trace := rfl

/-! ## storeAttr -/

@[simp] theorem State.storeAttr_tones (ch : ChanId) (a : Attr) (v : Rat) : (s.storeAttr ch a v).tones = s.tones := rfl
@[simp] theorem State.storeAttr_resp (ch : ChanId) (a : Attr) (v : Rat) : (s.storeAttr ch a v).resp = s.resp := rfl
@[simp] theorem State.storeAttr_seq (ch : ChanId) (a : Attr) (v : Rat) : (s.storeAttr ch a v).seq = s.seq := rfl
@[simp] theorem State.storeAttr_indet (ch : ChanId) (a : Attr) (v : Rat) : (s.storeAttr ch a v).indet = s.indet := rfl
@[simp] theorem State.storeAttr_boot (ch : ChanId) (a : Attr) (v : Rat) : (s.storeAttr ch a v).boot = s.boot := rfl
@[simp] theorem State.storeAttr_dds (ch : ChanId) (a : Attr) (v : Rat) : (s.storeAttr ch a v).dds = s.dds.set ch.tone ((s.dds.get ch.tone).set ch.chan
      ((s.channel ch).put a (coerce s.setup.coercion a v))) := rfl
@[simp] theorem State.storeAttr_fir (ch : ChanId) (a : Attr) (v : Rat) : (s.storeAttr ch a v).fir = s.fir := rfl
@[simp] theorem State.storeAttr_port (ch : ChanId) (a : Attr) (v : Rat) : (s.storeAttr ch a v).port = s.port := rfl
@[simp] theorem State.storeAttr_setup (ch : ChanId) (a : Attr) (v : Rat) : (s.storeAttr ch a v).setup = s.setup := rfl
@[simp] theorem State.storeAttr_transport (ch : ChanId) (a : Attr) (v : Rat) : (s.storeAttr ch a v).transport = s.transport := rfl
@[simp] theorem State.storeAttr_draws (ch : ChanId) (a : Attr) (v : Rat) : (s.storeAttr ch a v).draws = s.draws := rfl
@[simp] theorem State.storeAttr_trace (ch : ChanId) (a : Attr) (v : Rat) : (s.storeAttr ch a v).trace = s.trace := rfl

/-! ## storeFirAttr -/

@[simp] theorem State.storeFirAttr_tones (a : FirAttr) (v : String) : (s.storeFirAttr a v).tones = s.tones := by cases a <;> rfl
@[simp] theorem State.storeFirAttr_resp (a : FirAttr) (v : String) : (s.storeFirAttr a v).resp = s.resp := by cases a <;> rfl
@[simp] theorem State.storeFirAttr_seq (a : FirAttr) (v : String) : (s.storeFirAttr a v).seq = s.seq := by cases a <;> rfl
@[simp] theorem State.storeFirAttr_indet (a : FirAttr) (v : String) : (s.storeFirAttr a v).indet = s.indet := by cases a <;> rfl
@[simp] theorem State.storeFirAttr_boot (a : FirAttr) (v : String) : (s.storeFirAttr a v).boot = s.boot := by cases a <;> rfl
@[simp] theorem State.storeFirAttr_dds (a : FirAttr) (v : String) : (s.storeFirAttr a v).dds = s.dds := by cases a <;> rfl
@[simp] theorem State.storeFirAttr_port (a : FirAttr) (v : String) : (s.storeFirAttr a v).port = s.port := by cases a <;> rfl
@[simp] theorem State.storeFirAttr_setup (a : FirAttr) (v : String) : (s.storeFirAttr a v).setup = s.setup := by cases a <;> rfl
@[simp] theorem State.storeFirAttr_transport (a : FirAttr) (v : String) : (s.storeFirAttr a v).transport = s.transport := by cases a <;> rfl
@[simp] theorem State.storeFirAttr_draws (a : FirAttr) (v : String) : (s.storeFirAttr a v).draws = s.draws := by cases a <;> rfl
@[simp] theorem State.storeFirAttr_trace (a : FirAttr) (v : String) : (s.storeFirAttr a v).trace = s.trace := by cases a <;> rfl

/-! ## storeReg -/

@[simp] theorem State.storeReg_tones (r : WriteReg) (v : Byte) : (s.storeReg r v).tones = s.tones := rfl
@[simp] theorem State.storeReg_resp (r : WriteReg) (v : Byte) : (s.storeReg r v).resp = s.resp := rfl
@[simp] theorem State.storeReg_seq (r : WriteReg) (v : Byte) : (s.storeReg r v).seq = s.seq := rfl
@[simp] theorem State.storeReg_indet (r : WriteReg) (v : Byte) : (s.storeReg r v).indet = s.indet := rfl
@[simp] theorem State.storeReg_boot (r : WriteReg) (v : Byte) : (s.storeReg r v).boot = s.boot := rfl
@[simp] theorem State.storeReg_dds (r : WriteReg) (v : Byte) : (s.storeReg r v).dds = s.dds := rfl
@[simp] theorem State.storeReg_fir (r : WriteReg) (v : Byte) : (s.storeReg r v).fir = { s.fir with regs := s.fir.regs.write s.setup.firDevice r v } := rfl
@[simp] theorem State.storeReg_port (r : WriteReg) (v : Byte) : (s.storeReg r v).port = s.port := rfl
@[simp] theorem State.storeReg_setup (r : WriteReg) (v : Byte) : (s.storeReg r v).setup = s.setup := rfl
@[simp] theorem State.storeReg_transport (r : WriteReg) (v : Byte) : (s.storeReg r v).transport = s.transport := rfl
@[simp] theorem State.storeReg_draws (r : WriteReg) (v : Byte) : (s.storeReg r v).draws = s.draws := rfl
@[simp] theorem State.storeReg_trace (r : WriteReg) (v : Byte) : (s.storeReg r v).trace = s.trace := rfl

/-! ## markIndet -/

@[simp] theorem State.markIndet_tones (ps : List Path) : (s.markIndet ps).tones = s.tones := rfl
@[simp] theorem State.markIndet_resp (ps : List Path) : (s.markIndet ps).resp = s.resp := rfl
@[simp] theorem State.markIndet_seq (ps : List Path) : (s.markIndet ps).seq = s.seq := rfl
@[simp] theorem State.markIndet_boot (ps : List Path) : (s.markIndet ps).boot = s.boot := rfl
@[simp] theorem State.markIndet_dds (ps : List Path) : (s.markIndet ps).dds = s.dds := rfl
@[simp] theorem State.markIndet_fir (ps : List Path) : (s.markIndet ps).fir = s.fir := rfl
@[simp] theorem State.markIndet_port (ps : List Path) : (s.markIndet ps).port = s.port := rfl
@[simp] theorem State.markIndet_setup (ps : List Path) : (s.markIndet ps).setup = s.setup := rfl
@[simp] theorem State.markIndet_transport (ps : List Path) : (s.markIndet ps).transport = s.transport := rfl
@[simp] theorem State.markIndet_draws (ps : List Path) : (s.markIndet ps).draws = s.draws := rfl
@[simp] theorem State.markIndet_trace (ps : List Path) : (s.markIndet ps).trace = s.trace := rfl
@[simp] theorem State.markIndet_one (p : Path) : (s.markIndet [p]).indet = s.indet.set p true := rfl
@[simp] theorem State.markIndet_both : (s.markIndet [.tx, .rx]).indet = ⟨true, true⟩ := rfl

/-! ## blur -/

@[simp] theorem State.blur_tones : s.blur.tones = s.tones := by unfold State.blur; split <;> rfl
@[simp] theorem State.blur_resp : s.blur.resp = s.resp := by unfold State.blur; split <;> rfl
@[simp] theorem State.blur_seq : s.blur.seq = s.seq := by unfold State.blur; split <;> rfl
@[simp] theorem State.blur_indet : s.blur.indet = s.indet := by unfold State.blur; split <;> rfl
@[simp] theorem State.blur_boot : s.blur.boot = s.boot := by unfold State.blur; split <;> rfl
@[simp] theorem State.blur_dds : s.blur.dds = s.dds := by unfold State.blur; split <;> rfl
@[simp] theorem State.blur_port : s.blur.port = s.port := by unfold State.blur; split <;> rfl
@[simp] theorem State.blur_setup : s.blur.setup = s.setup := by unfold State.blur; split <;> rfl
@[simp] theorem State.blur_transport : s.blur.transport = s.transport := by unfold State.blur; split <;> rfl
@[simp] theorem State.blur_trace : s.blur.trace = s.trace := by unfold State.blur; split <;> rfl

/-- Where no path is indeterminate, nothing is unknown. -/
theorem State.blur_eq_self (h : ∀ p, s.indet.get p = false) : s.blur = s := by
  have ht : s.indet.tx = false := h .tx
  have hr : s.indet.rx = false := h .rx
  simp [State.blur, ht, hr]

/-- A path that is determinate keeps its registers and its bank. -/
theorem State.blur_path {p : Path} (h : s.indet.get p = false) : s.blur.fir.regs.paths.get p = s.fir.regs.paths.get p := by
  unfold State.blur
  split
  · cases p with
    | tx => simp [PerPath.get, show s.indet.tx = false from h]
    | rx => simp [PerPath.get, show s.indet.rx = false from h]
  · rfl

/-- A path that is indeterminate holds free values, and FIR_EN one of the same draw. -/
theorem State.blur_unknown {p : Path} (h : s.indet.get p = true) :
    s.blur.fir.regs.paths.get p = Config.indetPath s.draws p ∧ s.blur.fir.enable = Config.indetEnable s.draws := by
  cases p with
  | tx => simp [State.blur, PerPath.get, show s.indet.tx = true from h]
  | rx => simp [State.blur, PerPath.get, show s.indet.rx = true from h]

/-- While RX is indeterminate, FIR_GAIN holds a free value. -/
theorem State.blur_gain (h : s.indet.rx = true) : s.blur.fir.regs.gain = Config.indetGain s.draws := by
  simp [State.blur, h]

/-! ## resetRegisters -/

@[simp] theorem State.resetRegisters_tones : s.resetRegisters.tones = s.tones := rfl
@[simp] theorem State.resetRegisters_resp : s.resetRegisters.resp = none := rfl
@[simp] theorem State.resetRegisters_seq : s.resetRegisters.seq = .idle := rfl
@[simp] theorem State.resetRegisters_indet : s.resetRegisters.indet = ⟨false, false⟩ := rfl
@[simp] theorem State.resetRegisters_boot : s.resetRegisters.boot = s.boot := rfl
@[simp] theorem State.resetRegisters_dds : s.resetRegisters.dds = s.dds := rfl
@[simp] theorem State.resetRegisters_fir : s.resetRegisters.fir = s.fir := rfl
@[simp] theorem State.resetRegisters_port : s.resetRegisters.port = s.port := rfl
@[simp] theorem State.resetRegisters_setup : s.resetRegisters.setup = s.setup := rfl
@[simp] theorem State.resetRegisters_transport : s.resetRegisters.transport = s.transport := rfl
@[simp] theorem State.resetRegisters_draws : s.resetRegisters.draws = s.draws := rfl
@[simp] theorem State.resetRegisters_trace : s.resetRegisters.trace = [] := rfl

/-! ## changeRate -/

@[simp] theorem State.changeRate_tones (ch : ChanId) (fs : Rat) : (s.changeRate ch fs).tones = s.tones := rfl
@[simp] theorem State.changeRate_resp (ch : ChanId) (fs : Rat) : (s.changeRate ch fs).resp = s.resp := rfl
@[simp] theorem State.changeRate_seq (ch : ChanId) (fs : Rat) : (s.changeRate ch fs).seq = s.seq := rfl
@[simp] theorem State.changeRate_indet (ch : ChanId) (fs : Rat) : (s.changeRate ch fs).indet = s.indet := rfl
@[simp] theorem State.changeRate_boot (ch : ChanId) (fs : Rat) : (s.changeRate ch fs).boot = s.boot := rfl
@[simp] theorem State.changeRate_dds (ch : ChanId) (fs : Rat) : (s.changeRate ch fs).dds = s.dds.set ch.tone ((s.dds.get ch.tone).set ch.chan ((s.channel ch).put .fs fs)) := rfl
@[simp] theorem State.changeRate_fir (ch : ChanId) (fs : Rat) : (s.changeRate ch fs).fir = s.fir := rfl
@[simp] theorem State.changeRate_port (ch : ChanId) (fs : Rat) : (s.changeRate ch fs).port = s.port := rfl
@[simp] theorem State.changeRate_setup (ch : ChanId) (fs : Rat) : (s.changeRate ch fs).setup = s.setup := rfl
@[simp] theorem State.changeRate_transport (ch : ChanId) (fs : Rat) : (s.changeRate ch fs).transport = s.transport := rfl
@[simp] theorem State.changeRate_draws (ch : ChanId) (fs : Rat) : (s.changeRate ch fs).draws = s.draws := rfl
@[simp] theorem State.changeRate_trace (ch : ChanId) (fs : Rat) : (s.changeRate ch fs).trace = s.trace := rfl

/-! ## issued -/

@[simp] theorem State.issued_tones (xs : List Transaction) : (s.issued xs).tones = s.tones := rfl
@[simp] theorem State.issued_resp (xs : List Transaction) : (s.issued xs).resp = s.resp := rfl
@[simp] theorem State.issued_seq (xs : List Transaction) : (s.issued xs).seq = s.seq := rfl
@[simp] theorem State.issued_indet (xs : List Transaction) : (s.issued xs).indet = s.indet := rfl
@[simp] theorem State.issued_boot (xs : List Transaction) : (s.issued xs).boot = s.boot := rfl
@[simp] theorem State.issued_dds (xs : List Transaction) : (s.issued xs).dds = s.dds := rfl
@[simp] theorem State.issued_fir (xs : List Transaction) : (s.issued xs).fir = s.fir := rfl
@[simp] theorem State.issued_port (xs : List Transaction) : (s.issued xs).port = s.port := rfl
@[simp] theorem State.issued_setup (xs : List Transaction) : (s.issued xs).setup = s.setup := rfl
@[simp] theorem State.issued_transport (xs : List Transaction) : (s.issued xs).transport = s.transport.drop xs.length := rfl
@[simp] theorem State.issued_draws (xs : List Transaction) : (s.issued xs).draws = s.draws + xs.length := rfl
@[simp] theorem State.issued_trace (xs : List Transaction) : (s.issued xs).trace = xs := rfl

/-! ## withTone -/

@[simp] theorem State.withTone_tones (t : Tone) (x : PerChan Channel) (r : ToneRegs) : (s.withTone t x r).tones = s.tones.set t r := rfl
@[simp] theorem State.withTone_resp (t : Tone) (x : PerChan Channel) (r : ToneRegs) : (s.withTone t x r).resp = s.resp := rfl
@[simp] theorem State.withTone_seq (t : Tone) (x : PerChan Channel) (r : ToneRegs) : (s.withTone t x r).seq = s.seq := rfl
@[simp] theorem State.withTone_indet (t : Tone) (x : PerChan Channel) (r : ToneRegs) : (s.withTone t x r).indet = s.indet := rfl
@[simp] theorem State.withTone_boot (t : Tone) (x : PerChan Channel) (r : ToneRegs) : (s.withTone t x r).boot = s.boot := rfl
@[simp] theorem State.withTone_dds (t : Tone) (x : PerChan Channel) (r : ToneRegs) : (s.withTone t x r).dds = s.dds.set t x := rfl
@[simp] theorem State.withTone_fir (t : Tone) (x : PerChan Channel) (r : ToneRegs) : (s.withTone t x r).fir = s.fir := rfl
@[simp] theorem State.withTone_port (t : Tone) (x : PerChan Channel) (r : ToneRegs) : (s.withTone t x r).port = s.port := rfl
@[simp] theorem State.withTone_setup (t : Tone) (x : PerChan Channel) (r : ToneRegs) : (s.withTone t x r).setup = s.setup := rfl
@[simp] theorem State.withTone_transport (t : Tone) (x : PerChan Channel) (r : ToneRegs) : (s.withTone t x r).transport = s.transport := rfl
@[simp] theorem State.withTone_draws (t : Tone) (x : PerChan Channel) (r : ToneRegs) : (s.withTone t x r).draws = s.draws := rfl
@[simp] theorem State.withTone_trace (t : Tone) (x : PerChan Channel) (r : ToneRegs) : (s.withTone t x r).trace = s.trace := rfl

/-! ## channel and tone reads -/

@[simp] theorem State.storeFirAttr_enable (v : String) :
    (s.storeFirAttr .enable v).fir = { s.fir with enable := v } := rfl

@[simp] theorem State.storeFirAttr_blob (v : String) :
    (s.storeFirAttr .blob v).fir = { s.fir with blob := v, regs := Config.blobEffect v } := rfl

theorem State.channel_eq (ch : ChanId) : s.channel ch = (s.dds.get ch.tone).get ch.chan := rfl

@[simp] theorem Channel.get_put (x : Channel) (a b : Attr) (v : Rat) :
    (x.put a v).get b = if b = a then v else x.get b := by
  cases a <;> cases b <;> rfl

end Machine

end Sys2Proof
end

