-- ==== Sys2Proof/Laws/Ops.lean ====
section
/-! SUPPORT. What each shared operation can do, said once: how a program runs, the primitive operations as functions of
the state, and the transactions on a scripted transport. -/

namespace Sys2Proof.Machine

/-- Two states that agree on every field are equal. -/
theorem State.ext_fields {s t : State} (tones : s.tones = t.tones) (resp : s.resp = t.resp) (seq : s.seq = t.seq)
    (indet : s.indet = t.indet) (boot : s.boot = t.boot) (dds : s.dds = t.dds) (fir : s.fir = t.fir)
    (port : s.port = t.port) (setup : s.setup = t.setup) (transport : s.transport = t.transport)
    (draws : s.draws = t.draws) (trace : s.trace = t.trace) : s = t := by
  cases s; cases t; simp_all

/-! ## Running a program -/

variable {α β : Type} (s : State)

@[simp] theorem Cmd.pure_apply (a : α) : (pure a : Cmd α) s = .ok a s := rfl

@[simp] theorem Cmd.bind_apply (c : Cmd α) (f : α → Cmd β) :
    (c >>= f) s = match c s with | .ok a s' => f a s' | .error e s' => .error e s' := by
  change EStateM.bind c f s = _
  unfold EStateM.bind
  cases c s <;> rfl

@[simp] theorem Cmd.get_apply : (get : Cmd State) s = .ok s s := rfl

@[simp] theorem Cmd.map_apply (f : α → β) (c : Cmd α) :
    (f <$> c) s = match c s with | .ok a s' => .ok (f a) s' | .error e s' => .error e s' := by
  change EStateM.map f c s = _
  unfold EStateM.map
  cases c s <;> rfl

@[simp] theorem update_apply (f : State → State) : update f s = .ok () (f s) := rfl

@[simp] theorem raise_apply (k : ErrKind) (x : Info) : (raise k x : Cmd α) s = .error ⟨k, x⟩ s := rfl

@[simp] theorem setSeq_apply (x : Seq) : setSeq x s = .ok () { s with seq := x } := rfl

@[simp] theorem clearIndet_apply (p : Path) : clearIndet p s = .ok () { s with indet := s.indet.set p false } := rfl

@[simp] theorem readMuted_apply (t : Tone) : readMuted t s = .ok (s.tones.get t).muted s := rfl

@[simp] theorem readCache_apply (t : Tone) : readCache t s = .ok (s.tones.get t).cache s := rfl

@[simp] theorem readSb_apply (t : Tone) : readSb t s = .ok (s.tones.get t).sb s := rfl

@[simp] theorem setMuted_apply (t : Tone) (b : Bool) :
    setMuted t b s = .ok () (s.setTone t { s.tones.get t with muted := b }) := rfl

@[simp] theorem setCache_apply (t : Tone) (a : Rat) :
    setCache t a s = .ok () (s.setTone t { s.tones.get t with cache := a }) := rfl

@[simp] theorem setSb_apply (t : Tone) (x : Sideband) :
    setSb t x s = .ok () (s.setTone t { s.tones.get t with sb := x }) := rfl

/-- What a reading transaction can do: it answers the value, or it fails; either way it was issued. -/
theorem readTransaction_cases (x : Transaction) (value : State → α) :
    (s.outcome x = .done ∧ readTransaction x value s = .ok (value s) (s.issue x))
      ∨ ∃ b, s.outcome x = .failed b ∧ readTransaction x value s = .error (transportError x) (s.issue x) := by
  unfold readTransaction
  cases h : s.outcome x with
  | done => exact .inl ⟨rfl, rfl⟩
  | failed b => exact .inr ⟨b, rfl, rfl⟩

/-- What a writing transaction can do: it takes effect, or it fails and may have taken effect. -/
theorem writeTransaction_cases (x : Transaction) (effect : State → State) :
    (s.outcome x = .done ∧ writeTransaction x effect s = .ok () (effect (s.issue x)))
      ∨ (s.outcome x = .failed true ∧ writeTransaction x effect s = .error (transportError x) (effect (s.issue x)))
      ∨ (s.outcome x = .failed false ∧ writeTransaction x effect s = .error (transportError x) (s.issue x)) := by
  unfold writeTransaction
  cases h : s.outcome x with
  | done => exact .inl ⟨rfl, rfl⟩
  | failed b => cases b <;> simp

/-! ## Transactions on a scripted transport -/

@[simp] theorem outcome_cons {s : State} {d : Draw} {rest : List Draw} (h : s.transport = d :: rest)
    (x : Transaction) : s.outcome x = d := by
  simp [State.outcome, h]

variable {s} {rest : List Draw} {b : Bool}

theorem readTransaction_done (h : s.transport = .done :: rest) (x : Transaction) (value : State → α) :
    readTransaction x value s = .ok (value s) (s.issue x) := by
  simp [readTransaction, outcome_cons h]

theorem readTransaction_failed (h : s.transport = .failed b :: rest) (x : Transaction) (value : State → α) :
    readTransaction x value s = .error (transportError x) (s.issue x) := by
  simp [readTransaction, outcome_cons h]

theorem writeTransaction_done (h : s.transport = .done :: rest) (x : Transaction) (effect : State → State) :
    writeTransaction x effect s = .ok () (effect (s.issue x)) := by
  simp [writeTransaction, outcome_cons h]

theorem writeTransaction_failed (h : s.transport = .failed b :: rest) (x : Transaction) (effect : State → State) :
    writeTransaction x effect s
      = .error (transportError x) (if b then effect (s.issue x) else s.issue x) := by
  cases b <;> simp [writeTransaction, outcome_cons h]

/-- A transport that does not fail for `k + 1` transactions starts with a done one. -/
theorem State.perfect_succ {k : Nat} (h : s.perfect (k + 1)) :
    ∃ rest, s.transport = .done :: rest ∧ rest.take k = List.replicate k .done := by
  unfold State.perfect at h
  cases hs : s.transport with
  | nil => simp [hs] at h
  | cons d rest =>
    rw [hs, List.take_succ_cons, List.replicate_succ, List.cons.injEq] at h
    exact ⟨rest, by rw [h.1], h.2⟩

end Sys2Proof.Machine
end

