-- ==== Sys2Proof/Laws/DdsTone.lean ====
section
/-! SUPPORT. What each tone operation does on a transport that does not fail, and when it raises: one lemma per shared
operation, which the commands of both DDS families rest on. -/

namespace Sys2Proof.Machine

/-- The state after the program issued `xs` more transactions, apart from their effects. -/
def State.ran (s : State) (xs : List Transaction) : State :=
  { s with trace := s.trace ++ xs, transport := s.transport.drop xs.length, draws := s.draws + xs.length }

theorem State.begin_ran (s : State) (xs : List Transaction) : s.begin.ran xs = s.issued xs := by
  simp [State.ran, State.issued, State.begin]

theorem State.ran_ran (s : State) (xs ys : List Transaction) : (s.ran xs).ran ys = s.ran (xs ++ ys) := by
  simp [State.ran, List.drop_drop, Nat.add_assoc]

theorem State.ran_nil (s : State) : s.ran [] = s := by
  simp [State.ran]

theorem State.perfect_begin {s : State} {k : Nat} (h : s.perfect k) : s.begin.perfect k := h

/-- What is left of a perfect transport after some of it was used. -/
theorem State.perfect_ran {s : State} {k : Nat} {xs : List Transaction} (h : s.perfect (xs.length + k)) :
    (s.ran xs).perfect k := by
  have h' := congrArg (List.drop xs.length) h
  simpa [State.perfect, State.ran, List.drop_take] using h'

theorem State.perfect_mono {s : State} {j k : Nat} (h : s.perfect k) (hj : j ≤ k) : s.perfect j := by
  have h' := congrArg (List.take j) h
  simpa [State.perfect, List.take_take, Nat.min_eq_left hj] using h'

/-- A transport perfect for `k` transactions, written out. -/
theorem State.perfect_split {s : State} {k : Nat} (h : s.perfect k) :
    ∃ rest, s.transport = List.replicate k .done ++ rest := by
  refine ⟨s.transport.drop k, ?_⟩
  conv_lhs => rw [← List.take_append_drop k s.transport]
  rw [h]

/-! ## Operand checks -/

@[simp] theorem checkTone_index (t : Tone) (s : State) : checkTone t.index s = .ok t s := by cases t <;> rfl

theorem checkTone_illegal {z : Int} (h1 : z ≠ 1) (h2 : z ≠ 2) (s : State) :
    checkTone z s = .error ⟨.validation, .int z⟩ s := by
  simp [checkTone, toneOf, h1, h2]

@[simp] theorem checkSwitch_legal (on : Bool) (s : State) :
    checkSwitch (switchSymbol on) s = .ok on s := by cases on <;> rfl

theorem checkSwitch_illegal {x : Symbol} (h1 : x ≠ .on) (h2 : x ≠ .off) (s : State) :
    checkSwitch x s = .error ⟨.validation, .symbol x⟩ s := by
  cases x <;> simp_all [checkSwitch, switchOf]

@[simp] theorem checkChan_legal (c : Chan) (s : State) :
    checkChan (chanSymbol c) s = .ok c s := by cases c <;> rfl

@[simp] theorem checkPath_legal (p : Path) (s : State) : checkPath (pathSymbol p) s = .ok p s := by cases p <;> rfl

theorem checkPath_illegal {x : Symbol} (h1 : x ≠ .TX) (h2 : x ≠ .RX) (s : State) :
    checkPath x s = .error ⟨.validation, .symbol x⟩ s := by
  cases x <;> simp_all [checkPath, pathOf]

theorem checkChan_illegal {x : Symbol} (h1 : x ≠ .I) (h2 : x ≠ .Q) (s : State) :
    checkChan x s = .error ⟨.validation, .symbol x⟩ s := by
  cases x <;> simp_all [checkChan, chanOf]

/-! ## The tone operations on a transport that does not fail -/

theorem attrGet_done {s : State} (h : s.perfect 1) (ch : ChanId) (a : Attr) :
    attrGet ch a s = .ok ((s.channel ch).get a) (s.ran [.attrGet ch a]) := by
  obtain ⟨rest, hr, -⟩ := State.perfect_succ h
  rw [attrGet, readTransaction_done hr]
  simp [State.issue, State.ran, hr]

theorem attrGet_failed {s : State} {b : Bool} {rest : List Draw} (h : s.transport = .failed b :: rest) (ch : ChanId)
    (a : Attr) : attrGet ch a s = .error (transportError (.attrGet ch a)) (s.ran [.attrGet ch a]) := by
  rw [attrGet, readTransaction_failed h]
  simp [State.issue, State.ran, h]

theorem setFreq_within {s : State} {t : Tone} {f : Rat} (h : s.perfect 6) (hb : |f| ≤ (s.dds.get t).i.fs / 2) :
    setFreq t f s = .ok ((sidebandOf f).sign * coerce s.setup.coercion .freq |f|)
      ((s.ran (freqTrace t (s.dds.get t) f)).withTone t (freqChannels s.setup.coercion (s.dds.get t) f)
        { s.tones.get t with sb := sidebandOf f }) := by
  obtain ⟨rest, hr⟩ := State.perfect_split h
  simp [setFreq, attrGet, attrSet, readTransaction, writeTransaction, State.outcome, hr, State.channel,
    List.replicate, Channel.get, Channel.put, not_lt.mpr hb]
  cases t <;> apply State.ext_fields <;>
    simp [State.ran, freqChannels, freqTrace, hr, State.channel, Channel.put, PerTone.set, PerTone.get, coerce,
      List.replicate]

theorem setFreq_beyond {s : State} {t : Tone} {f : Rat} (h : s.perfect 1) (hb : (s.dds.get t).i.fs / 2 < |f|) :
    setFreq t f s = .error ⟨.range, .bound ((s.dds.get t).i.fs / 2)⟩ (s.ran [.attrGet ⟨t, .i⟩ .fs]) := by
  obtain ⟨rest, hr⟩ := State.perfect_split h
  simp [setFreq, attrGet, readTransaction, State.outcome, hr, State.channel, Channel.get, hb]
  simp [State.issue, State.ran, hr]

theorem setPhase_done {s : State} {t : Tone} {phi : Rat} (h : s.perfect 3) :
    setPhase t phi s = .ok ()
      ((s.ran (phaseTrace t s.setup.coercion (s.tones.get t).sb phi)).withTone t
        (phaseChannels s.setup.coercion (s.dds.get t) (s.tones.get t).sb phi) (s.tones.get t)) := by
  obtain ⟨rest, hr⟩ := State.perfect_split h
  simp [setPhase, attrGet, attrSet, readTransaction, writeTransaction, State.outcome, hr, State.channel,
    List.replicate, Channel.get]
  cases t <;> apply State.ext_fields <;>
    simp [State.ran, phaseChannels, phaseTrace, hr, State.channel, Channel.put, PerTone.set, PerTone.get,
      List.replicate]

theorem setAmp_done {s : State} {t : Tone} {a : Rat} (h : s.perfect 2) (h0 : 0 ≤ a) (h1 : a ≤ 1) :
    setAmp t a s = .ok ()
      ((s.ran (ampTrace t a)).withTone t (ampChannels s.setup.coercion (s.dds.get t) a)
        { s.tones.get t with muted := false }) := by
  obtain ⟨rest, hr⟩ := State.perfect_split h
  simp [setAmp, attrSet, writeTransaction, State.outcome, hr, List.replicate, not_lt.mpr h0, not_lt.mpr h1]
  cases t <;> apply State.ext_fields <;>
    simp [State.ran, ampChannels, ampTrace, hr, State.channel, Channel.put, PerTone.set, PerTone.get, List.replicate]

theorem setAmp_beyond {s : State} {t : Tone} {a : Rat} (h : a < 0 ∨ 1 < a) :
    setAmp t a s = .error ⟨.range, .interval 0 1⟩ s := by
  simp [setAmp, h]

theorem setState_done {s : State} {t : Tone} {on : Bool} (h : s.perfect (switchTrace t (s.tones.get t) on).length) :
    setState t on s = .ok ()
      ((s.ran (switchTrace t (s.tones.get t) on)).withTone t
        (switchChannels s.setup.coercion (s.dds.get t) (s.tones.get t) on)
        (switchRegs (s.dds.get t) (s.tones.get t) on)) := by
  obtain ⟨rest, hr⟩ := State.perfect_split h
  cases on <;> cases hm : (s.tones.get t).muted <;>
    simp [switchTrace, hm, ampTrace, List.replicate] at hr <;>
    simp [setState, mute, unmute, attrGet, attrSet, readTransaction, writeTransaction, State.outcome, hr,
      hm] <;>
    cases t <;> apply State.ext_fields <;>
    simp_all [State.ran, switchChannels, switchRegs, switchTrace, ampChannels, ampTrace, State.channel, Channel.put,
      Channel.get, PerTone.set, PerTone.get]

theorem getFreq_done {s : State} {t : Tone} (h : s.perfect 3) :
    getFreq t s = .ok (shownFreq (s.dds.get t)) (s.ran (getFreqTrace t)) := by
  obtain ⟨rest, hr⟩ := State.perfect_split h
  simp [getFreq, attrGet, readTransaction, State.outcome, hr, State.channel, List.replicate, Channel.get,
    shownFreq, State.issue, State.ran, getFreqTrace]

theorem getStatus_done {s : State} {t : Tone} (h : s.perfect 5) :
    getStatus t s = .ok ((s.dds.get t).i.scale, shownFreq (s.dds.get t), (s.dds.get t).i.phase)
      (s.ran (statusTrace t)) := by
  obtain ⟨rest, hr⟩ := State.perfect_split h
  simp [getStatus, getFreq, attrGet, readTransaction, State.outcome, hr, State.channel, List.replicate,
    Channel.get, shownFreq, State.issue, State.ran, getFreqTrace, statusTrace]

/-! ## The conversion of levels (00_scope R11) -/

theorem dbToLin_pos {d : Rat} (h : d ≤ 0) : 0 < Config.dbToLin d := Config.decibels.laws.lin_pos d h

theorem dbToLin_le_one {d : Rat} (h : d ≤ 0) : Config.dbToLin d ≤ 1 := Config.decibels.laws.lin_le_one d h

theorem dbToLin_zero : Config.dbToLin 0 = 1 := Config.decibels.laws.lin_zero

theorem dbToLin_minus_ten : Config.dbToLin (-10) = 1 / 10 := Config.decibels.laws.lin_minus_ten

theorem setLevel_done {s : State} {t : Tone} {d : Option Rat} (hd : ∀ x, d = some x → x ≤ 0)
    (h : s.perfect (levelTrace t (s.tones.get t) d).length) :
    setLevel t d s = .ok ()
      ((s.ran (levelTrace t (s.tones.get t) d)).withTone t
        (levelChannels s.setup.coercion (s.dds.get t) (s.tones.get t) d)
        (levelRegs (s.dds.get t) (s.tones.get t) d)) := by
  cases d with
  | none => exact setState_done h
  | some x =>
    have hx := hd x rfl
    simp only [setLevel, if_neg (not_lt.mpr hx)]
    exact setAmp_done h (dbToLin_pos hx).le (dbToLin_le_one hx)

theorem setLevel_positive {s : State} {t : Tone} {d : Rat} (h : 0 < d) :
    setLevel t (some d) s = .error ⟨.range, .bound 0⟩ s := by
  simp [setLevel, h]

/-! ## The end of a command -/

theorem run_ok {c : Cmd Value} {s s' : State} {v : Value} (h : c s.begin = .ok v s') :
    run c s = .next (s'.respond (.ok v)) := by
  simp [run, State.complete, h]

theorem run_error {c : Cmd Value} {s s' : State} {e : Failure} (h : c s.begin = .error e s') :
    run c s = .next (s'.respond (.err e.kind e.info)) := by
  simp [run, State.complete, h, State.takeError]

end Sys2Proof.Machine
end

