-- ==== Sys2Proof/Laws/Fir.lean ====
section
/-! SUPPORT. The tap bytes, the reference FIR device, and what the upload and readback sequencers do on a transport that
does not fail. -/

namespace Sys2Proof.Machine

/-! ## Tap bytes (30_encoding R74) -/

theorem join_split (u : Tap) : (u.extractLsb' 8 8 ++ u.extractLsb' 0 8 : Tap) = u := by
  ext i hi
  simp only [BitVec.getElem_append, BitVec.getElem_extractLsb']
  split
  · simp [BitVec.getLsbD_eq_getElem hi]
  · rw [show 8 + (i - 8) = i by omega, BitVec.getLsbD_eq_getElem hi]

theorem join_encodeTap (v : Int) : ((encodeTap v).1 ++ (encodeTap v).2 : Tap) = BitVec.ofInt 16 v := join_split _

/-- A tap in int16 comes back from its 16-bit pattern. -/
theorem toInt_ofInt_tap {v : Int} (h0 : -32768 ≤ v) (h1 : v ≤ 32767) : (BitVec.ofInt 16 v).toInt = v := by
  rw [BitVec.toInt_ofInt]
  exact Int.bmod_eq_of_le (by omega) (by omega)

theorem decodeTap_encodeTap {v : Int} (h0 : -32768 ≤ v) (h1 : v ≤ 32767) :
    decodeTap (encodeTap v).1 (encodeTap v).2 = v := by
  rw [decodeTap, join_encodeTap, toInt_ofInt_tap h0 h1]

/-! ## The reference device (20_memory R58) -/

theorem slot_ofNat (x : FirPath) (i : Fin 128) : ({ x with addr := BitVec.ofNat 8 i } : FirPath).slot = i := by
  apply Fin.ext
  have := i.isLt
  simp only [FirPath.slot, BitVec.toFin_extractLsb', Fin.val_ofNat, BitVec.toNat_ofNat, Nat.shiftRight_zero]
  omega

/-- One slot of an upload, on the path's registers: the tap is committed to the slot. -/
def FirPath.pushed (x : FirPath) (c : List Int) (i : Fin 128) : FirPath :=
  { addr := BitVec.ofNat 8 i, wlo := (encodeTap (c.getD i 0)).2, whi := (encodeTap (c.getD i 0)).1, cfg := 0xFE,
    bank := x.bank.set i.val (BitVec.ofInt 16 (c.getD i 0)) i.isLt }

/-- The register writes of one slot of an upload, in their order. -/
def FirRegs.slotWrites (d : FirDevice) (p : Path) (c : List Int) (r : FirRegs) (i : Fin 128) : FirRegs :=
  (((r.write d (.coeffAddr p) (BitVec.ofNat 8 i)).write d (.writeLo p) (encodeTap (c.getD i 0)).2).write d
    (.writeHi p) (encodeTap (c.getD i 0)).1).write d (.firConfig p) pushWord

theorem FirRegs.slotWrites_reference (p : Path) (c : List Int) (r : FirRegs) (i : Fin 128) :
    r.slotWrites .reference p c i = r.setPath p ((r.paths.get p).pushed c i) := by
  have hpush : (pushWord.getLsbD 2 && pushWord.getLsbD 1) = true := by decide
  have hslot : ∀ x : FirPath, x.addr = BitVec.ofNat 8 i → x.slot = i := by
    intro x hx
    rw [← slot_ofNat x i, ← hx]
  simp only [FirRegs.slotWrites, FirRegs.write, FirRegs.refWrite, FirRegs.setPath, PerPath.get_set, PerPath.set_set,
    if_true, FirPath.writeConfig, hpush, FirPath.commit, FirPath.pending, FirPath.pushed]
  congr 2
  rw [join_encodeTap]
  congr 1
  simp only [hslot]

/-- The slots of a list are written, on the path's registers. -/
theorem FirRegs.foldl_slotWrites_reference (p : Path) (c : List Int) (l : List (Fin 128)) (r : FirRegs) :
    l.foldl (FirRegs.slotWrites .reference p c) r
      = r.setPath p (l.foldl (fun x i => x.pushed c i) (r.paths.get p)) := by
  induction l generalizing r with
  | nil => cases p <;> rfl
  | cons i l ih =>
    rw [List.foldl_cons, FirRegs.slotWrites_reference, ih]
    simp [FirRegs.setPath]

/-- After its slots were pushed, the bank holds the taps in those slots and what it held in the others. -/
theorem FirPath.bank_foldl_pushed (c : List Int) (l : List (Fin 128)) (x : FirPath) (k : Fin 128) :
    (l.foldl (fun x i => x.pushed c i) x).bank[k.val]'k.isLt
      = if k ∈ l then BitVec.ofInt 16 (c.getD k 0) else x.bank[k.val]'k.isLt := by
  induction l generalizing x with
  | nil => simp
  | cons i l ih =>
    rw [List.foldl_cons, ih]
    by_cases hl : k ∈ l
    · simp [hl]
    · by_cases hk : k = i
      · subst hk; simp [hl, FirPath.pushed]
      · have : i.val ≠ k.val := fun h => hk (Fin.ext h.symm)
        simp [hl, hk, FirPath.pushed, this]

theorem allSlots_eq : allSlots = allSlots.take 127 ++ [127] := by decide

/-- All 128 slots pushed: the state an upload leaves before its last two configuration words (R38). -/
theorem FirPath.foldl_allSlots (c : List Int) (x : FirPath) :
    allSlots.foldl (fun x i => x.pushed c i) x = { uploadedPath c 0xFE with cfg := 0xFE } := by
  have hb : (allSlots.foldl (fun x i => x.pushed c i) x).bank = uploadedBank c := by
    apply Vector.ext
    intro k hk
    have := FirPath.bank_foldl_pushed c allSlots x ⟨k, hk⟩
    rw [if_pos (show (⟨k, hk⟩ : Fin 128) ∈ allSlots from List.mem_finRange _)] at this
    simpa [uploadedBank] using this
  have hlast : ∀ y : FirPath, y = { uploadedPath c 0xFE with cfg := 0xFE, bank := y.bank } → y.bank = uploadedBank c →
      y = { uploadedPath c 0xFE with cfg := 0xFE } := by
    intro y h1 h2; rw [h1, h2]; rfl
  refine hlast _ ?_ hb
  rw [allSlots_eq, List.foldl_append]
  simp [FirPath.pushed, uploadedPath]

/-! ## The upload on any device -/

theorem regWrite_done {s : State} {rest : List Draw} (h : s.transport = .done :: rest) (r : WriteReg) (v : Byte) :
    regWrite r v s = .ok () ((s.issue (.regWrite r v)).storeReg r v) := writeTransaction_done h _ _

theorem pushTap_done {s : State} {p : Path} {c : List Int} {i : Fin 128} (h : s.perfect 4) :
    pushTap p c i s = .ok ()
      { s.ran (slotTrace p c i) with
        seq := .loop i, fir := { s.fir with regs := s.fir.regs.slotWrites s.setup.firDevice p c i } } := by
  obtain ⟨rest, hr⟩ := State.perfect_split h
  simp [pushTap, regWrite, writeTransaction, State.outcome, hr, List.replicate]
  apply State.ext_fields <;>
    simp [State.ran, slotTrace, hr, FirRegs.slotWrites, List.replicate, pushWord]

theorem slotTrace_length (p : Path) (c : List Int) (l : List (Fin 128)) :
    (l.flatMap (slotTrace p c)).length = 4 * l.length := by
  induction l with
  | nil => rfl
  | cons i l ih => simp [slotTrace, ih]; omega

theorem slotTrace_sum (p : Path) (c : List Int) (l : List (Fin 128)) :
    (l.map fun i => (slotTrace p c i).length).sum = 4 * l.length := by
  rw [← slotTrace_length p c l, List.length_flatMap]

theorem pushTaps_done {s : State} {p : Path} {c : List Int} (l : List (Fin 128)) (h : s.perfect (4 * l.length)) :
    pushTaps p c l s = .ok ()
      { s.ran (l.flatMap (slotTrace p c)) with
        seq := l.foldl (fun _ i => .loop i) s.seq
        fir := { s.fir with regs := l.foldl (FirRegs.slotWrites s.setup.firDevice p c) s.fir.regs } } := by
  induction l generalizing s with
  | nil => simp [pushTaps, State.ran]
  | cons i l ih =>
    have h4 : s.perfect 4 := State.perfect_mono h (by simp)
    have hrest : (s.ran (slotTrace p c i)).perfect (4 * l.length) :=
      State.perfect_ran (by rwa [show (slotTrace p c i).length + 4 * l.length = 4 * (i :: l).length by
        simp [slotTrace]; omega])
    rw [pushTaps, Cmd.bind_apply, pushTap_done h4]
    refine (ih (s := { s.ran (slotTrace p c i) with
        seq := .loop i, fir := { s.fir with regs := s.fir.regs.slotWrites s.setup.firDevice p c i } }) hrest).trans ?_
    congr 1
    apply State.ext_fields <;> simp [State.ran, List.drop_drop]
    omega

/-- The FIR registers after the register writes of an upload over a list of slots, in their order. -/
def FirRegs.uploadWritesOver (l : List (Fin 128)) (d : FirDevice) (p : Path) (c : List Int) (cfg : Byte)
    (gcode : Option (BitVec 2)) (r : FirRegs) : FirRegs :=
  let r := match gcode with
    | some code => r.write d .firGain (code.zeroExtend 8)
    | none => r
  let r := (r.write d (.firConfig p) (cfg ||| 0x02)).write d (.firConfig p) (cfg ||| 0x06)
  let r := l.foldl (FirRegs.slotWrites d p c) r
  (r.write d (.firConfig p) (cfg ||| 0x02)).write d (.firConfig p) cfg

/-- The FIR registers after the register writes of an upload (43_fir_programmer R171). -/
def FirRegs.uploadWrites (d : FirDevice) (p : Path) (c : List Int) (cfg : Byte) (gcode : Option (BitVec 2))
    (r : FirRegs) : FirRegs := r.uploadWritesOver allSlots d p c cfg gcode

/-- The transactions of an upload over a list of slots. -/
def uploadTraceOver (l : List (Fin 128)) (p : Path) (c : List Int) (cfg : Byte) (gain : Rat) : List Transaction :=
  [.attrSetS .enable "0"] ++ gainTrace p gain
    ++ [.regWrite (.firConfig p) (cfg ||| 0x02), .regWrite (.firConfig p) (cfg ||| 0x06)]
    ++ l.flatMap (slotTrace p c)
    ++ [.regWrite (.firConfig p) (cfg ||| 0x02), .regWrite (.firConfig p) cfg, .attrSetS .enable "1"]

/-- The gain code of an upload (42_fir_codec R153). -/
def gainCode (p : Path) (gain : Rat) : Option (BitVec 2) :=
  match p with
  | .tx => none
  | .rx => some (rxGainCode gain)

theorem uploadTrace_length (p : Path) (c : List Int) (cfg : Byte) (gain : Rat) :
    (uploadTrace p c cfg gain).length = uploadCount p := by
  have := slotTrace_length p c allSlots
  rw [show allSlots.length = 128 from List.length_finRange] at this
  cases p <;> simp [uploadTrace, gainTrace, uploadCount, this]

theorem writeGain_done {s : State} {p : Path} {gain : Rat} (h : s.perfect (gainTrace p gain).length) :
    writeGain (gainCode p gain) s = .ok ()
      { s.ran (gainTrace p gain) with
        fir := { s.fir with
          regs := match gainCode p gain with
            | some code => s.fir.regs.write s.setup.firDevice .firGain (code.zeroExtend 8)
            | none => s.fir.regs } } := by
  cases p with
  | tx => simp [writeGain, gainCode, gainTrace, State.ran]
  | rx =>
    obtain ⟨rest, hr⟩ := State.perfect_split h
    simp [gainTrace] at hr
    simp only [gainCode, writeGain]
    rw [regWrite_done hr]
    congr 1
    apply State.ext_fields <;> simp [State.ran, gainTrace, hr]

/-- The upload sequence over any list of slots. -/
def uploadOver (l : List (Fin 128)) (p : Path) (c : List Int) (cfg : Byte) (gcode : Option (BitVec 2)) : Cmd Unit := do
  setSeq .disabled
  attrSetS .enable "0"
  writeGain gcode
  setSeq .clockRunning
  regWrite (.firConfig p) (cfg ||| 0x02)
  setSeq .writeEnabled
  regWrite (.firConfig p) (cfg ||| 0x06)
  pushTaps p c l
  setSeq .writeDisabled
  regWrite (.firConfig p) (cfg ||| 0x02)
  setSeq .clockStopped
  regWrite (.firConfig p) cfg
  setSeq .enabled
  attrSetS .enable "1"
  clearIndet p
  setSeq .idle

theorem upload_eq : upload = uploadOver allSlots := rfl

theorem uploadOver_done {s : State} {p : Path} {c : List Int} {cfg : Byte} {gain : Rat} {l : List (Fin 128)}
    (h : s.perfect ((gainTrace p gain).length + 4 * l.length + 6)) :
    uploadOver l p c cfg (gainCode p gain) s = .ok ()
      { s.ran (uploadTraceOver l p c cfg gain) with
        seq := .idle
        indet := s.indet.set p false
        fir := { s.fir with
          enable := "1", regs := s.fir.regs.uploadWritesOver l s.setup.firDevice p c cfg (gainCode p gain) } } := by
  obtain ⟨rest, hr⟩ : ∃ rest, s.transport = .done :: (List.replicate (gainTrace p gain).length .done ++ .done :: .done
      :: (List.replicate (4 * l.length) .done ++ .done :: .done :: .done :: rest)) := by
    obtain ⟨rest, hr⟩ := State.perfect_split h
    refine ⟨rest, ?_⟩
    rw [hr, show (gainTrace p gain).length + 4 * l.length + 6
      = 1 + ((gainTrace p gain).length + (2 + (4 * l.length + 3))) by omega, List.replicate_add, List.replicate_add,
      List.replicate_add, List.replicate_add]
    simp [List.replicate]
  simp only [uploadOver, Cmd.bind_apply, setSeq_apply, attrSetS, clearIndet_apply]
  rw [writeTransaction_done (by exact hr)]
  dsimp only
  rw [writeGain_done (by simp [State.perfect, hr])]
  dsimp only
  rw [regWrite_done (by simp [State.ran, hr]; rfl)]
  dsimp only
  rw [regWrite_done (by simp [State.ran, hr]; rfl)]
  dsimp only
  rw [pushTaps_done l (by simp [State.perfect, State.ran, hr])]
  dsimp only
  rw [regWrite_done (by simp [State.ran, hr, slotTrace_sum]; rfl)]
  dsimp only
  rw [regWrite_done (by simp [State.ran, hr, slotTrace_sum]; rfl)]
  dsimp only
  rw [writeTransaction_done (by simp [State.ran, hr, slotTrace_sum]; rfl)]
  dsimp only
  refine congrArg (EStateM.Result.ok ()) (State.ext_fields ?_ ?_ ?_ ?_ ?_ ?_ ?_ ?_ ?_ ?_ ?_ ?_)
  all_goals simp [State.ran, uploadTraceOver, FirRegs.uploadWritesOver, hr, slotTrace_sum]
  · rw [← List.drop_drop]
    simp [List.drop_append]
  · omega

/-- The upload sequence on any FIR device (R171). -/
theorem upload_done {s : State} {p : Path} {c : List Int} {cfg : Byte} {gain : Rat} (h : s.perfect (uploadCount p)) :
    upload p c cfg (gainCode p gain) s = .ok ()
      { s.ran (uploadTrace p c cfg gain) with
        seq := .idle
        indet := s.indet.set p false
        fir := { s.fir with
          enable := "1", regs := s.fir.regs.uploadWrites s.setup.firDevice p c cfg (gainCode p gain) } } := by
  rw [upload_eq]
  refine uploadOver_done ?_
  rw [show allSlots.length = 128 from List.length_finRange]
  cases p <;> exact h

theorem FirPath.writeConfig_plain {x : FirPath} {v : Byte} (h : v.getLsbD 2 = false) :
    x.writeConfig v = { x with cfg := v } := by
  rw [FirPath.writeConfig, h, Bool.false_and, if_neg Bool.false_ne_true]

theorem uploadWrites_reference (p : Path) (c : List Int) (cfg : Byte) (gain : Rat) (r : FirRegs)
    (hb : cfg.getLsbD 2 = false) :
    r.uploadWrites .reference p c cfg (gainCode p gain)
      = { paths := r.paths.set p (uploadedPath c cfg), gain := uploadedGain p gain r.gain } := by
  have h2 : (cfg ||| 0x02).getLsbD 2 = false := by rw [BitVec.getLsbD_or, hb]; rfl
  have hw : ∀ (r : FirRegs) (v : Byte), r.refWrite (.firConfig p) v = r.setPath p ((r.paths.get p).writeConfig v) :=
    fun _ _ => rfl
  simp only [FirRegs.uploadWrites, FirRegs.uploadWritesOver, FirRegs.foldl_slotWrites_reference,
    FirPath.foldl_allSlots, FirRegs.write, hw, FirRegs.setPath, PerPath.get_set, PerPath.set_set, if_true,
    FirPath.writeConfig_plain h2, FirPath.writeConfig_plain hb]
  cases p <;> rfl

/-! ## The readback on the reference device -/

theorem readSlot_done {s : State} {p : Path} {i : Fin 128} (hd : s.setup.firDevice = .reference)
    (hp : s.indet.get p = false) (h : s.perfect 3) :
    readSlot p i s = .ok (((s.fir.regs.paths.get p).bank[i.val]'i.isLt).toInt)
      { s.ran (readSlotTrace p i) with
        seq := .readLoop i
        fir := { s.fir with regs := s.fir.regs.setPath p { s.fir.regs.paths.get p with addr := BitVec.ofNat 8 i } } } := by
  obtain ⟨rest, hr⟩ := State.perfect_split h
  have hsel : ∀ x : FirPath, ({ x with addr := BitVec.ofNat 8 i } : FirPath).selected = x.bank[i.val]'i.isLt := by
    intro x
    simp only [FirPath.selected, slot_ofNat]
  simp [readSlot, regWrite, regRead, readTransaction, writeTransaction, State.outcome, hr, List.replicate,
    State.showReg, hp, hd, FirRegs.write, FirRegs.read, FirRegs.refWrite, FirRegs.refRead, FirRegs.setPath,
    ReadReg.path, FirPath.readLo, FirPath.readHi, hsel, decodeTap, join_split]
  apply State.ext_fields <;>
    simp [State.ran, hr, List.replicate, readSlotTrace, hd, FirRegs.write, FirRegs.refWrite, FirRegs.setPath]

/-- COEFF_ADDR after a readback's loop over a list of slots. -/
def lastAddr (a : Byte) (l : List (Fin 128)) : Byte := l.foldl (fun _ (i : Fin 128) => BitVec.ofNat 8 i.val) a

theorem readSlots_done {s : State} {p : Path} (l : List (Fin 128)) (hd : s.setup.firDevice = .reference)
    (hp : s.indet.get p = false) (h : s.perfect (3 * l.length)) :
    readSlots p l s = .ok (l.map fun i => ((s.fir.regs.paths.get p).bank[i.val]'i.isLt).toInt)
      { s.ran (l.flatMap (readSlotTrace p)) with
        seq := l.foldl (fun _ i => .readLoop i) s.seq
        fir := { s.fir with
          regs := s.fir.regs.setPath p
            { s.fir.regs.paths.get p with addr := lastAddr (s.fir.regs.paths.get p).addr l } } } := by
  induction l generalizing s with
  | nil =>
    simp only [readSlots, Cmd.pure_apply, List.map_nil, List.foldl_nil, lastAddr, List.flatMap_nil,
      State.ran_nil]
    cases p <;> rfl
  | cons i l ih =>
    have h3 : s.perfect 3 := State.perfect_mono h (by simp)
    rw [readSlots, Cmd.bind_apply, readSlot_done hd hp h3]
    dsimp only
    rw [Cmd.bind_apply, ih (by simpa [State.ran] using hd) (by simpa [State.ran] using hp) (by
      have := State.perfect_ran (s := s) (k := 3 * l.length)
        (xs := readSlotTrace p i)
        (State.perfect_mono h (by simp [readSlotTrace]; omega))
      exact this)]
    simp only [Cmd.pure_apply, List.map_cons, FirRegs.setPath, PerPath.get_set, if_true]
    refine congrArg (EStateM.Result.ok _) (State.ext_fields ?_ ?_ ?_ ?_ ?_ ?_ ?_ ?_ ?_ ?_ ?_ ?_)
    all_goals simp [State.ran, lastAddr, List.drop_drop, readSlotTrace]
    · omega
    · omega

theorem finRange_map_bank (b : Vector Tap 128) : (allSlots.map fun i => (b[i.val]'i.isLt).toInt) = bankTaps b := by
  apply List.ext_getElem
  · simp [bankTaps, allSlots]
  · intro k h1 h2
    simp [bankTaps, allSlots]

theorem readSlotTrace_length (p : Path) (l : List (Fin 128)) : (l.flatMap (readSlotTrace p)).length = 3 * l.length := by
  induction l with
  | nil => rfl
  | cons i l ih => simp [readSlotTrace]; omega

theorem lastAddr_allSlots (a : Byte) : lastAddr a allSlots = 127 := by
  rw [allSlots_eq, lastAddr, List.foldl_append]; rfl

/-- The readback over any list of slots. -/
def firReadOver (l : List (Fin 128)) (p : Path) : Cmd Value := do
  setSeq .readTrigger
  regWrite (.firConfig p) readTriggerWord
  let r ← readSlots p l
  setSeq .idle
  return .taps (trim r)

theorem firRead_eq : firRead = firReadOver allSlots := rfl

theorem firReadOver_done {s : State} {p : Path} {l : List (Fin 128)} (hd : s.setup.firDevice = .reference)
    (hp : s.indet.get p = false) (h : s.perfect (3 * l.length + 1)) :
    firReadOver l p s = .ok (.taps (trim (l.map fun i => ((s.fir.regs.paths.get p).bank[i.val]'i.isLt).toInt)))
      { s.ran (.regWrite (.firConfig p) 0xEA :: l.flatMap (readSlotTrace p)) with
        seq := .idle
        fir := { s.fir with
          regs := s.fir.regs.setPath p
            { s.fir.regs.paths.get p with addr := lastAddr (s.fir.regs.paths.get p).addr l, cfg := 0xEA } } } := by
  obtain ⟨rest, hr, hk⟩ := State.perfect_succ h
  have htrig : readTriggerWord.getLsbD 2 = false := by decide
  have hw : s.fir.regs.write s.setup.firDevice (.firConfig p) readTriggerWord
      = s.fir.regs.setPath p { s.fir.regs.paths.get p with cfg := readTriggerWord } := by
    rw [hd, ← FirPath.writeConfig_plain htrig]; rfl
  simp only [firReadOver, Cmd.bind_apply, setSeq_apply]
  rw [regWrite_done (rest := rest) (by exact hr)]
  dsimp only
  rw [readSlots_done l (by simpa using hd) (by simpa using hp) (by simpa [State.perfect, hr] using hk)]
  simp only [Cmd.pure_apply]
  simp [State.storeReg, hw, FirRegs.setPath, hr, State.ran]
  exact ⟨rfl, by omega, rfl⟩

theorem firRead_done {s : State} {p : Path} (hd : s.setup.firDevice = .reference) (hp : s.indet.get p = false)
    (h : s.perfect 385) :
    firRead p s = .ok (.taps (trim (bankTaps (s.fir.regs.paths.get p).bank)))
      { s.ran (readbackTrace p) with
        seq := .idle
        fir := { s.fir with regs := s.fir.regs.setPath p { s.fir.regs.paths.get p with addr := 127, cfg := 0xEA } } } := by
  rw [firRead_eq, firReadOver_done hd hp (by rwa [show allSlots.length = 128 from List.length_finRange]),
    lastAddr_allSlots, finRange_map_bank]
  rfl

/-! ## Validation (43_fir_programmer R170) -/

theorem checkTapValues_legal {c : List Int} (h : ∀ v ∈ c, -32768 ≤ v ∧ v ≤ 32767) (s : State) :
    checkTapValues c s = .ok () s := by
  induction c with
  | nil => rfl
  | cons v c ih =>
    have := h v (by simp)
    simp [checkTapValues, checkRange, not_lt.mpr this.1, not_lt.mpr this.2, ih fun u hu => h u (by simp [hu])]

theorem checkTapValues_illegal {a b : List Int} {v : Int} (h : ∀ u ∈ a, -32768 ≤ u ∧ u ≤ 32767)
    (hv : v < -32768 ∨ 32767 < v) (s : State) : checkTapValues (a ++ v :: b) s = .error ⟨.validation, .int v⟩ s := by
  induction a with
  | nil => simp [checkTapValues, checkRange, hv]
  | cons u a ih =>
    have := h u (by simp)
    simp [checkTapValues, checkRange, not_lt.mpr this.1, not_lt.mpr this.2, ih fun w hw => h w (by simp [hw])]

theorem buildConfig_legal {p : Path} {taps : Int} {gain : Rat} (h0 : 16 ≤ taps) (h1 : taps ≤ 128) (h2 : taps % 16 = 0)
    (hg : gain ∈ legalGains p) (s : State) :
    buildConfig p taps gain s = .ok (configWord taps (gainBit p gain), gainCode p gain) s := by
  simp [buildConfig, checkTaps, not_lt.mpr h0, not_lt.mpr h1, h2, hg]
  cases p <;> rfl

theorem buildConfig_taps {p : Path} {taps : Int} {gain : Rat} (h : taps < 16 ∨ 128 < taps ∨ taps % 16 ≠ 0) (s : State) :
    buildConfig p taps gain s = .error ⟨.validation, .int taps⟩ s := by
  have h' : taps < 16 ∨ taps > 128 ∨ taps % 16 ≠ 0 := h
  unfold buildConfig checkTaps
  rw [Cmd.bind_apply, if_pos h', raise_apply]

theorem buildConfig_gain {p : Path} {taps : Int} {gain : Rat} (h0 : 16 ≤ taps) (h1 : taps ≤ 128) (h2 : taps % 16 = 0)
    (hg : gain ∉ legalGains p) (s : State) :
    buildConfig p taps gain s = .error ⟨.range, .legal (legalGains p)⟩ s := by
  simp [buildConfig, checkTaps, not_lt.mpr h0, not_lt.mpr h1, h2, hg]

theorem validateWrite_legal {p : Path} {c : List Int} {taps : Int} {gain : Rat} (h : LegalUpload p c taps gain)
    (s : State) : validateWrite p c taps gain s = .ok (configWord taps (gainBit p gain), gainCode p gain) s := by
  simp [validateWrite, buildConfig_legal h.taps_low h.taps_high h.taps_granule h.gain_legal, not_lt.mpr h.length_le,
    checkTapValues_legal h.values]

/-- No configuration word has write-enable or clock-enable set (30_encoding R72). -/
theorem configWord_bits {p : Path} {c : List Int} {taps : Int} {gain : Rat} (h : LegalUpload p c taps gain) :
    (configWord taps (gainBit p gain)).getLsbD 2 = false := by
  obtain ⟨h0, h1, h2, -, -, -⟩ := h
  have hg : gainBit p gain = 0 ∨ gainBit p gain = 1 := by
    cases p with
    | rx => exact .inl rfl
    | tx => unfold gainBit txGainBit; by_cases hg : gain = -6 <;> simp [hg]
  have : taps = 16 ∨ taps = 32 ∨ taps = 48 ∨ taps = 64 ∨ taps = 80 ∨ taps = 96 ∨ taps = 112 ∨ taps = 128 := by omega
  rcases this with rfl | rfl | rfl | rfl | rfl | rfl | rfl | rfl <;> rcases hg with hg | hg <;> rw [hg] <;> decide

/-! ## `trim` (43_fir_programmer R175) -/

theorem dropWhile_replicate_append (n : Nat) (l : List Int) :
    (List.replicate n 0 ++ l).dropWhile (· = 0) = l.dropWhile (· = 0) := by
  induction n with
  | zero => rfl
  | succ n ih => simp [List.replicate_succ, ih]

theorem dropWhile_append_zeros (l : List Int) (n : Nat) :
    (l ++ List.replicate n 0).dropWhile (· = 0)
      = if l.dropWhile (· = 0) = [] then [] else l.dropWhile (· = 0) ++ List.replicate n 0 := by
  rw [List.dropWhile_append]
  by_cases h : l.dropWhile (· = 0) = []
  · simp [h]
  · rw [if_neg h, if_neg (by simpa using h)]

/-- Zeros after the taps do not change what `trim` answers. -/
theorem trim_append_zeros (l : List Int) (n : Nat) : trim (l ++ List.replicate n 0) = trim l := by
  unfold trim
  rw [dropWhile_append_zeros]
  by_cases h : l.dropWhile (· = 0) = []
  · simp [h]
  · rw [if_neg h, List.reverse_append, List.reverse_replicate, dropWhile_replicate_append]

/-- The bank an upload leaves, as taps: the taps and zeros (10_state R38). -/
theorem bankTaps_uploaded {c : List Int} (hl : c.length ≤ 128) (hv : ∀ v ∈ c, -32768 ≤ v ∧ v ≤ 32767) :
    bankTaps (uploadedBank c) = c ++ List.replicate (128 - c.length) 0 := by
  apply List.ext_getElem
  · simp [bankTaps]; omega
  · intro k h1 h2
    have hk : k < 128 := by simpa [bankTaps] using h1
    simp only [bankTaps, uploadedBank, List.getElem_map, Vector.getElem_toList, Vector.getElem_ofFn]
    by_cases hc : k < c.length
    · rw [List.getElem_append_left hc, List.getD_eq_getElem _ _ hc]
      exact toInt_ofInt_tap (hv _ (List.getElem_mem hc)).1 (hv _ (List.getElem_mem hc)).2
    · rw [List.getElem_append_right (by omega), List.getD_eq_default _ _ (by omega)]
      simp

end Sys2Proof.Machine
end

