-- ==== Sys2Proof/Laws/Transport.lean ====
section
/-! SUPPORT. How a program meets the transport (60_exceptions R205): its transactions are fixed by the state it starts
from, as long as none fails; the first that fails ends it. `Script` says so for one program and is closed under
sequencing, so that what holds of every command on every transport is proved once. -/

namespace Sys2Proof.Machine

variable {α β : Type}

/-- The same state with another transport. -/
def State.withTransport (s : State) (T : List Draw) : State := { s with transport := T }

@[simp] theorem State.withTransport_tones (s : State) (T : List Draw) : (s.withTransport T).tones = s.tones := rfl
@[simp] theorem State.withTransport_resp (s : State) (T : List Draw) : (s.withTransport T).resp = s.resp := rfl
@[simp] theorem State.withTransport_seq (s : State) (T : List Draw) : (s.withTransport T).seq = s.seq := rfl
@[simp] theorem State.withTransport_indet (s : State) (T : List Draw) : (s.withTransport T).indet = s.indet := rfl
@[simp] theorem State.withTransport_boot (s : State) (T : List Draw) : (s.withTransport T).boot = s.boot := rfl
@[simp] theorem State.withTransport_dds (s : State) (T : List Draw) : (s.withTransport T).dds = s.dds := rfl
@[simp] theorem State.withTransport_fir (s : State) (T : List Draw) : (s.withTransport T).fir = s.fir := rfl
@[simp] theorem State.withTransport_port (s : State) (T : List Draw) : (s.withTransport T).port = s.port := rfl
@[simp] theorem State.withTransport_setup (s : State) (T : List Draw) : (s.withTransport T).setup = s.setup := rfl
@[simp] theorem State.withTransport_draws (s : State) (T : List Draw) : (s.withTransport T).draws = s.draws := rfl
@[simp] theorem State.withTransport_trace (s : State) (T : List Draw) : (s.withTransport T).trace = s.trace := rfl
@[simp] theorem State.withTransport_transport (s : State) (T : List Draw) : (s.withTransport T).transport = T := rfl

/-- The same ending with another transport. -/
def rewire (r : EStateM.Result Failure State α) (T : List Draw) : EStateM.Result Failure State α :=
  match r with
  | .ok a s => .ok a (s.withTransport T)
  | .error e s => .error e (s.withTransport T)

/-- The state an ending leaves. -/
def endState (r : EStateM.Result Failure State α) : State :=
  match r with
  | .ok _ s => s
  | .error _ s => s

/-- What becomes of the j-th transaction from now, when `n` free values were drawn so far. -/
def drawAt (T : List Draw) (n j : Nat) (x : Transaction) : Draw :=
  match T[j]? with
  | some d => d
  | none => Config.draw (n + j) x

theorem withTransport_self (s : State) : s.withTransport s.transport = s := rfl

theorem outcome_withTransport (s : State) (T : List Draw) (x : Transaction) :
    (s.withTransport T).outcome x = drawAt T s.draws 0 x := by
  cases T <;> rfl

theorem drawAt_add (T : List Draw) (n k j : Nat) (x : Transaction) :
    drawAt T n (k + j) x = drawAt (T.drop k) (n + k) j x := by
  simp [drawAt, Nat.add_assoc]

theorem drawAt_replicate {n k j : Nat} {T : List Draw} {x : Transaction} (h : j < k) :
    drawAt (List.replicate k .done ++ T) n j x = .done := by
  unfold drawAt
  rw [List.getElem?_append_left (by simpa using h)]
  simp [h]

theorem drawAt_failed {n k : Nat} {b : Bool} {T : List Draw} {x : Transaction} :
    drawAt (List.replicate k .done ++ .failed b :: T) n k x = .failed b := by
  simp [drawAt]

/-! ## What a program has done when its transactions stop -/

/-- The registers of the block that a command writes while it runs: the tones' registers, SEQ and INDET. -/
structure Ctl where
  tones : PerTone ToneRegs
  seq : Seq
  indet : PerPath Bool

/-- Where those registers stand. -/
def State.ctl (s : State) : Ctl := ⟨s.tones, s.seq, s.indet⟩

/-- The same state with those registers replaced. -/
def State.withCtl (s : State) (k : Ctl) : State := { s with tones := k.tones, seq := k.seq, indet := k.indet }

/-- The state after the transactions `issued`, of which `effects` took effect, with the block's registers at `k` and `T`
left of the transport. -/
def State.reached (s : State) (effects issued : List Transaction) (k : Ctl) (T : List Draw) : State :=
  { s.performed effects with
    tones := k.tones, seq := k.seq, indet := k.indet
    trace := s.trace ++ issued, transport := T, draws := s.draws + issued.length }

@[simp] theorem State.performed_nil (s : State) : s.performed [] = s := rfl

theorem State.performed_append (s : State) (xs ys : List Transaction) :
    s.performed (xs ++ ys) = (s.performed xs).performed ys := List.foldl_append

/-- A transaction's effect is on the device alone: it does not look at the block's registers or the transport. -/
theorem State.applied_frame (s : State) (k : Ctl) (c : List Transaction) (T : List Draw) (n : Nat) (x : Transaction) :
    State.applied { s with
        tones := k.tones, seq := k.seq, indet := k.indet, trace := c, transport := T, draws := n } x
      = { s.applied x with
        tones := k.tones, seq := k.seq, indet := k.indet, trace := c, transport := T, draws := n } := by
  cases x with
  | attrSetS a v => cases a <;> rfl
  | _ => rfl

theorem State.performed_frame (s : State) (k : Ctl) (c : List Transaction) (T : List Draw) (n : Nat)
    (xs : List Transaction) :
    State.performed { s with
        tones := k.tones, seq := k.seq, indet := k.indet, trace := c, transport := T, draws := n } xs
      = { s.performed xs with
        tones := k.tones, seq := k.seq, indet := k.indet, trace := c, transport := T, draws := n } := by
  induction xs generalizing s with
  | nil => rfl
  | cons x xs ih =>
    change State.performed (State.applied _ x) xs = _
    rw [s.applied_frame, ih]
    rfl

/-- What the transactions leave on the device depends on the device and the launch parameters alone. -/
theorem State.performed_device {s t : State} (hd : s.dds = t.dds) (hf : s.fir = t.fir) (hs : s.setup = t.setup)
    (xs : List Transaction) : (s.performed xs).dds = (t.performed xs).dds ∧ (s.performed xs).fir = (t.performed xs).fir := by
  induction xs generalizing s t with
  | nil => exact ⟨hd, hf⟩
  | cons x xs ih =>
    have h : (s.applied x).dds = (t.applied x).dds ∧ (s.applied x).fir = (t.applied x).fir
        ∧ (s.applied x).setup = (t.applied x).setup := by
      cases x with
      | attrGet => exact ⟨hd, hf, hs⟩
      | regRead => exact ⟨hd, hf, hs⟩
      | attrSet ch a v => exact ⟨by simp [State.applied, State.channel, hd, hs], hf, hs⟩
      | regWrite r v => exact ⟨hd, by simp [State.applied, hf, hs], hs⟩
      | attrSetS a v => cases a <;> exact ⟨hd, by simp [State.applied, hf], hs⟩
    exact ih h.1 h.2.1 h.2.2

theorem State.applied_keeps (s : State) (x : Transaction) :
    (s.applied x).tones = s.tones ∧ (s.applied x).resp = s.resp ∧ (s.applied x).seq = s.seq
      ∧ (s.applied x).indet = s.indet ∧ (s.applied x).boot = s.boot ∧ (s.applied x).port = s.port
      ∧ (s.applied x).setup = s.setup ∧ (s.applied x).transport = s.transport ∧ (s.applied x).draws = s.draws
      ∧ (s.applied x).trace = s.trace := by
  cases x with
  | attrSetS a v => cases a <;> exact ⟨rfl, rfl, rfl, rfl, rfl, rfl, rfl, rfl, rfl, rfl⟩
  | _ => exact ⟨rfl, rfl, rfl, rfl, rfl, rfl, rfl, rfl, rfl, rfl⟩

theorem State.performed_keeps (s : State) (xs : List Transaction) :
    (s.performed xs).tones = s.tones ∧ (s.performed xs).resp = s.resp ∧ (s.performed xs).seq = s.seq
      ∧ (s.performed xs).indet = s.indet ∧ (s.performed xs).boot = s.boot ∧ (s.performed xs).port = s.port
      ∧ (s.performed xs).setup = s.setup ∧ (s.performed xs).transport = s.transport
      ∧ (s.performed xs).draws = s.draws ∧ (s.performed xs).trace = s.trace := by
  induction xs generalizing s with
  | nil => exact ⟨rfl, rfl, rfl, rfl, rfl, rfl, rfl, rfl, rfl, rfl⟩
  | cons x xs ih =>
    obtain ⟨h1, h2, h3, h4, h5, h6, h7, h8, h9, h10⟩ := ih (s.applied x)
    obtain ⟨g1, g2, g3, g4, g5, g6, g7, g8, g9, g10⟩ := s.applied_keeps x
    exact ⟨h1.trans g1, h2.trans g2, h3.trans g3, h4.trans g4, h5.trans g5, h6.trans g6, h7.trans g7, h8.trans g8,
      h9.trans g9, h10.trans g10⟩

theorem State.reached_reached (s : State) (e f c d : List Transaction) (k l : Ctl) (T U : List Draw) :
    (s.reached e c k T).reached f d l U = s.reached (e ++ f) (c ++ d) l U := by
  simp only [State.reached, State.performed_frame, State.performed_append, List.append_assoc, List.length_append,
    Nat.add_assoc]

theorem State.reached_withTransport (s : State) (e c : List Transaction) (k : Ctl) (T U : List Draw) :
    (s.withTransport U).reached e c k T = s.reached e c k T := by
  have h := s.performed_frame s.ctl s.trace U s.draws e
  change State.performed (s.withTransport U) e = _ at h
  simp only [State.reached, h]
  rfl

theorem State.withCtl_withTransport (s : State) (k : Ctl) (T : List Draw) :
    (s.withCtl k).withTransport T = s.reached [] [] k T := by
  simp [State.reached, State.withCtl, State.withTransport]

theorem State.issue_applied (s : State) (x : Transaction) (T : List Draw) :
    ((s.withTransport T).issue x).applied x = s.reached [x] [x] s.ctl T.tail :=
  State.applied_frame s s.ctl (s.trace ++ [x]) T.tail (s.draws + 1) x

theorem State.issue_eq (s : State) (x : Transaction) (T : List Draw) :
    (s.withTransport T).issue x = s.reached [] [x] s.ctl T.tail := rfl

/-- The first `k` transactions of the list are done on transport `T`. -/
def allDone (T : List Draw) (n : Nat) (xs : List (Transaction × Ctl)) (k : Nat) : Prop :=
  ∀ j x, j < k → xs[j]? = some x → drawAt T n j x.1 = .done

/-- The transactions that took effect where number `j` fails. -/
def tookEffect (xs : List (Transaction × Ctl)) (j : Nat) (b : Bool) : List Transaction :=
  (xs.take (if b then j + 1 else j)).map Prod.fst

/-- From `s`, the program `c` issues the transactions `xs` (each with the block's registers at that moment) and ends with
`r`, if none of them fails; the first that fails ends it with TransportError there. -/
structure Script (c : Cmd α) (s : State) (xs : List (Transaction × Ctl)) (r : EStateM.Result Failure State α) : Prop where
  done : ∀ T, allDone T s.draws xs xs.length → c (s.withTransport T) = rewire r (T.drop xs.length)
  fails : ∀ T j x b, xs[j]? = some x → allDone T s.draws xs j → drawAt T s.draws j x.1 = .failed b →
    c (s.withTransport T) = .error (transportError x.1)
      (s.reached (tookEffect xs j b) ((xs.take (j + 1)).map Prod.fst) x.2 (T.drop (j + 1)))
  raises : ∀ e s', r = .error e s' → e.kind ≠ .transport
  ends : ∀ T, (endState r).withTransport T = s.reached (xs.map Prod.fst) (xs.map Prod.fst) (endState r).ctl T

variable {c : Cmd α} {s : State} {xs : List (Transaction × Ctl)} {r : EStateM.Result Failure State α}

theorem Script.trace (h : Script c s xs r) : (endState r).trace = s.trace ++ xs.map Prod.fst :=
  congrArg State.trace (h.ends [])

theorem Script.draws (h : Script c s xs r) : (endState r).draws = s.draws + xs.length := by
  simpa [State.reached] using congrArg State.draws (h.ends [])

/-- A program that makes no transaction and does not look at the transport. -/
theorem Script.quiet (h : ∀ T, c (s.withTransport T) = rewire r T) (he : ∀ e s', r = .error e s' → e.kind ≠ .transport)
    (hk : endState r = s.withCtl (endState r).ctl) : Script c s [] r where
  done T _ := by simpa using h T
  fails T j x b hx := by simp at hx
  raises := he
  ends T := by rw [hk]; exact s.withCtl_withTransport _ T

theorem Script.pure (a : α) (s : State) : Script (pure a) s [] (.ok a s) :=
  .quiet (fun _ => rfl) (fun _ _ h => by cases h) rfl

theorem Script.raise {k : ErrKind} {i : Info} (s : State) (h : k ≠ .transport) :
    Script (raise k i : Cmd α) s [] (.error ⟨k, i⟩ s) :=
  .quiet (fun _ => rfl) (fun _ _ h' => by cases h'; exact h) rfl

/-- A change of the registers of the block. -/
theorem Script.update {f : State → State} {s : State} (h : ∀ T, f (s.withTransport T) = (f s).withTransport T)
    (hk : f s = s.withCtl (f s).ctl) : Script (update f) s [] (.ok () (f s)) :=
  .quiet (fun T => congrArg (EStateM.Result.ok ()) (h T)) (fun _ _ h => by cases h) hk

theorem singleton_index {x : Transaction} {k : Ctl} {j : Nat} {y : Transaction × Ctl} (h : [(x, k)][j]? = some y) :
    j = 0 ∧ (x, k) = y := by
  cases j <;> simp_all

theorem Script.read {x : Transaction} {value : State → α} {s : State}
    (h : ∀ T, value (s.withTransport T) = value s) (hx : ∀ u : State, u.applied x = u) :
    Script (readTransaction x value) s [(x, s.ctl)] (.ok (value s) (s.issue x)) where
  done T hT := by
    have h0 := hT 0 (x, s.ctl) (by simp) rfl
    rw [← outcome_withTransport] at h0
    unfold readTransaction
    simp only at h0
    rw [h0, h]
    simp only [rewire, List.length_singleton, List.drop_one]
    rfl
  fails T j y b hy _ hb := by
    obtain ⟨rfl, rfl⟩ := singleton_index hy
    rw [← outcome_withTransport] at hb
    simp only at hb
    unfold readTransaction
    rw [hb]
    cases b with
    | false => simp [tookEffect, s.issue_eq x T]
    | true => simp [tookEffect, ← s.issue_applied x T, hx]
  raises _ _ h' := by cases h'
  ends T := by
    have := s.issue_applied x (.done :: T)
    rw [hx] at this
    exact this

theorem Script.write {x : Transaction} {effect : State → State} (s : State) (h : ∀ u : State, effect u = u.applied x) :
    Script (writeTransaction x effect) s [(x, s.ctl)] (.ok () (effect (s.issue x))) where
  done T hT := by
    have h0 := hT 0 (x, s.ctl) (by simp) rfl
    rw [← outcome_withTransport] at h0
    simp only at h0
    unfold writeTransaction
    rw [h0, h, h]
    have h1 := s.issue_applied x T
    have h2 := s.issue_applied x s.transport
    rw [withTransport_self] at h2
    simp only [rewire, List.length_singleton, List.drop_one, h1, h2]
    rfl
  fails T j y b hy _ hb := by
    obtain ⟨rfl, rfl⟩ := singleton_index hy
    rw [← outcome_withTransport] at hb
    simp only at hb
    unfold writeTransaction
    rw [hb]
    cases b with
    | false => simp [tookEffect, s.issue_eq x T]
    | true => simp [tookEffect, h, s.issue_applied x T]
  raises _ _ h' := by cases h'
  ends T := by
    have h2 := s.issue_applied x s.transport
    rw [withTransport_self] at h2
    simp only [endState, h, h2]
    rfl

/-- A program that raises before its continuation. -/
theorem Script.bind_error {f : α → Cmd β} {s1 : State} {e : Failure} (h : Script c s xs (.error e s1)) :
    Script (c >>= f) s xs (.error e s1) where
  done T hT := by rw [Cmd.bind_apply, h.done T hT]; rfl
  fails T j x b hx hT hb := by rw [Cmd.bind_apply, h.fails T j x b hx hT hb]
  raises e' s' he := by cases he; exact h.raises e s1 rfl
  ends := h.ends

/-- A program followed by another. -/
theorem Script.bind_ok {f : α → Cmd β} {s1 : State} {ys : List (Transaction × Ctl)} {a : α}
    {r : EStateM.Result Failure State β} (h : Script c s xs (.ok a s1)) (g : Script (f a) s1 ys r) :
    Script (c >>= f) s (xs ++ ys) r := by
  have hd : s1.draws = s.draws + xs.length := h.draws
  have hs : s1.withTransport [] = s.reached (xs.map Prod.fst) (xs.map Prod.fst) s1.ctl [] := h.ends []
  have hrest : ∀ T k, allDone T s.draws (xs ++ ys) (xs.length + k) → allDone (T.drop xs.length) s1.draws ys k := by
    intro T k hT j x hj hx
    rw [hd, ← drawAt_add]
    exact hT (xs.length + j) x (by omega) (by rw [List.getElem?_append_right (by omega)]; simpa using hx)
  have hfirst : ∀ T k, allDone T s.draws (xs ++ ys) k → ∀ m ≤ k, m ≤ xs.length → allDone T s.draws xs m := by
    intro T k hT m hm hl j x hj hx
    exact hT j x (by omega) (by rw [List.getElem?_append_left (by omega)]; exact hx)
  refine ⟨?_, ?_, g.raises, ?_⟩
  · intro T hT
    rw [List.length_append] at hT ⊢
    rw [Cmd.bind_apply, h.done T (hfirst T _ hT _ (by omega) le_rfl)]
    change f a (s1.withTransport _) = _
    rw [g.done _ (hrest T _ hT), List.drop_drop]
  · intro T j x b hx hT hb
    by_cases hj : j < xs.length
    · rw [Cmd.bind_apply, h.fails T j x b (by rwa [List.getElem?_append_left hj] at hx) (hfirst T _ hT _ le_rfl hj.le) hb]
      simp only [tookEffect]
      have hn : (if b then j + 1 else j) ≤ xs.length := by split <;> omega
      rw [List.take_append_of_le_length hn, List.take_append_of_le_length (show j + 1 ≤ xs.length by omega)]
    · obtain ⟨k, rfl⟩ := Nat.exists_eq_add_of_le (not_lt.mp hj)
      rw [List.getElem?_append_right (by omega), Nat.add_sub_cancel_left] at hx
      have hg := g.fails (T.drop xs.length) k x b hx (hrest T k hT) (by rwa [hd, ← drawAt_add])
      rw [Cmd.bind_apply, h.done T (hfirst T _ hT _ (by omega) le_rfl)]
      change f a (s1.withTransport _) = _
      rw [hg, ← s1.reached_withTransport _ _ _ _ [], hs, State.reached_reached]
      have e1 : (if b then xs.length + k + 1 else xs.length + k) = xs.length + (if b then k + 1 else k) := by
        split <;> omega
      simp only [tookEffect]
      rw [e1, List.take_length_add_append, Nat.add_assoc, List.take_length_add_append]
      simp
  · intro T
    rw [g.ends, ← s1.reached_withTransport _ _ _ _ [], hs, State.reached_reached, List.map_append]

/-- Every run of a program with a script: it ends as if nothing failed, or at the first failure. -/
theorem Script.cases (h : Script c s xs r) :
    c s = rewire r (s.transport.drop xs.length)
      ∨ ∃ j x b, xs[j]? = some x ∧ c s = .error (transportError x.1)
          (s.reached (tookEffect xs j b) ((xs.take (j + 1)).map Prod.fst) x.2 (s.transport.drop (j + 1))) := by
  by_cases hall : allDone s.transport s.draws xs xs.length
  · exact .inl (h.done s.transport hall)
  · right
    obtain ⟨k, hk⟩ : ∃ k, ¬ allDone s.transport s.draws xs k := ⟨_, hall⟩
    induction k with
    | zero => exact absurd (fun j x hj => absurd hj (Nat.not_lt_zero j)) hk
    | succ k ih =>
      by_cases hd : allDone s.transport s.draws xs k
      · have : ∃ x b, xs[k]? = some x ∧ drawAt s.transport s.draws k x.1 = .failed b := by
          by_contra hn
          push Not at hn
          refine hk fun j x hj hx => ?_
          rcases Nat.lt_succ_iff_lt_or_eq.mp hj with hlt | rfl
          · exact hd j x hlt hx
          · cases hb : drawAt s.transport s.draws j x.1 with
            | done => rfl
            | failed b => exact absurd hb (hn x b hx)
        obtain ⟨x, b, hx, hb⟩ := this
        exact ⟨k, x, b, hx, h.fails s.transport k x b hx hd hb⟩
      · exact ih hd

/-! ## Scripts of the shared operations -/

theorem Script.ite_pos {p : Prop} [Decidable p] {d : Cmd α} (hp : p) (h : Script c s xs r) :
    Script (if p then c else d) s xs r := by rwa [if_pos hp]

theorem Script.ite_neg {p : Prop} [Decidable p] {d : Cmd α} (hp : ¬ p) (h : Script c s xs r) :
    Script (if p then d else c) s xs r := by rwa [if_neg hp]

/-- A script found for a program is the one stated when its list and its ending are. -/
theorem Script.congr {ys : List (Transaction × Ctl)} {q : EStateM.Result Failure State α} (h : Script c s xs r)
    (hx : xs = ys) (hr : ∀ T, rewire r T = rewire q T) : Script c s ys q := by
  subst hx
  cases r with
  | ok a t =>
    cases q with
    | ok b u =>
      have h' : ∀ T, EStateM.Result.ok a (t.withTransport T) = .ok b (u.withTransport T) := hr
      refine ⟨fun T hT => (h.done T hT).trans (hr _), h.fails, fun _ _ e => (nomatch e), fun T => ?_⟩
      have hu := h' T
      simp only [EStateM.Result.ok.injEq] at hu
      have hk : u.ctl = t.ctl := (congrArg State.ctl hu.2).symm
      change u.withTransport T = s.reached _ _ u.ctl T
      rw [hk, ← hu.2]
      exact h.ends T
    | error e u => exact nomatch hr []
  | error e t =>
    cases q with
    | ok b u => exact nomatch hr []
    | error f u =>
      have h' : ∀ T, (EStateM.Result.error e (t.withTransport T) : EStateM.Result Failure State α)
          = .error f (u.withTransport T) := hr
      have hu := h' []
      simp only [EStateM.Result.error.injEq] at hu
      refine ⟨fun T hT => (h.done T hT).trans (hr _), h.fails, fun e' _ he => ?_, fun T => ?_⟩
      · cases he; exact hu.1 ▸ h.raises e t rfl
      · have hT := h' T
        simp only [EStateM.Result.error.injEq] at hT
        have hk : u.ctl = t.ctl := (congrArg State.ctl hT.2).symm
        change u.withTransport T = s.reached _ _ u.ctl T
        rw [hk, ← hT.2]
        exact h.ends T

theorem allDone_replicate (n : Nat) (T : List Draw) (xs : List (Transaction × Ctl)) :
    allDone (List.replicate xs.length .done ++ T) n xs xs.length := fun _ _ hj _ => drawAt_replicate hj

/-- A script found for a program is the one stated when its list is and the program, run where nothing fails, ends so. -/
theorem Script.finish {ys : List (Transaction × Ctl)} {q : EStateM.Result Failure State α} (h : Script c s xs r)
    (hx : xs = ys) (hq : ∀ T, c (s.withTransport (List.replicate ys.length .done ++ T)) = rewire q T) :
    Script c s ys q := h.congr hx fun T => by
  subst hx
  rw [← hq T, h.done _ (allDone_replicate _ _ _), List.drop_left' (by simp)]

theorem State.perfect_scripted (s : State) (n : Nat) (T : List Draw) :
    (s.withTransport (List.replicate n .done ++ T)).perfect n := by simp [State.perfect]

theorem State.ran_scripted (s : State) (ys : List Transaction) (T : List Draw) :
    (s.withTransport (List.replicate ys.length .done ++ T)).ran ys = (s.ran ys).withTransport T := by
  simp [State.ran, State.withTransport]

theorem attrGet_script (ch : ChanId) (a : Attr) (s : State) :
    Script (attrGet ch a) s [(.attrGet ch a, s.ctl)] (.ok ((s.channel ch).get a) (s.issue (.attrGet ch a))) :=
  .read (fun _ => rfl) fun _ => rfl

theorem attrSet_script (ch : ChanId) (a : Attr) (v : Rat) (s : State) :
    Script (attrSet ch a v) s [(.attrSet ch a v, s.ctl)] (.ok () ((s.issue (.attrSet ch a v)).storeAttr ch a v)) :=
  .write s fun _ => rfl

theorem attrSetS_script (a : FirAttr) (v : String) (s : State) :
    Script (attrSetS a v) s [(.attrSetS a v, s.ctl)] (.ok () ((s.issue (.attrSetS a v)).storeFirAttr a v)) :=
  .write s fun _ => rfl

theorem regWrite_script (r : WriteReg) (v : Byte) (s : State) :
    Script (regWrite r v) s [(.regWrite r v, s.ctl)] (.ok () ((s.issue (.regWrite r v)).storeReg r v)) :=
  .write s fun _ => rfl

theorem regRead_script (r : ReadReg) (s : State) :
    Script (regRead r) s [(.regRead r, s.ctl)] (.ok (s.showReg r) (s.issue (.regRead r))) :=
  .read (fun _ => rfl) fun _ => rfl

theorem setSeq_script (x : Seq) (s : State) : Script (setSeq x) s [] (.ok () { s with seq := x }) :=
  .update (fun _ => rfl) rfl

theorem clearIndet_script (p : Path) (s : State) :
    Script (clearIndet p) s [] (.ok () { s with indet := s.indet.set p false }) :=
  .update (fun _ => rfl) rfl

theorem setMuted_script (t : Tone) (b : Bool) (s : State) :
    Script (setMuted t b) s [] (.ok () (s.setTone t { s.tones.get t with muted := b })) := .update (fun _ => rfl) rfl

theorem setCache_script (t : Tone) (a : Rat) (s : State) :
    Script (setCache t a) s [] (.ok () (s.setTone t { s.tones.get t with cache := a })) := .update (fun _ => rfl) rfl

theorem setSb_script (t : Tone) (x : Sideband) (s : State) :
    Script (setSb t x) s [] (.ok () (s.setTone t { s.tones.get t with sb := x })) := .update (fun _ => rfl) rfl

/-- A read of a register of the block. -/
theorem getState_script {f : State → α} (s : State) (h : ∀ T, f (s.withTransport T) = f s) :
    Script (do return f (← get)) s [] (.ok (f s) s) :=
  .quiet (fun T => congrArg (EStateM.Result.ok · _) (h T)) (fun _ _ h => by cases h) rfl

theorem readMuted_script (t : Tone) (s : State) : Script (readMuted t) s [] (.ok (s.tones.get t).muted s) :=
  getState_script s fun _ => rfl

theorem readCache_script (t : Tone) (s : State) : Script (readCache t) s [] (.ok (s.tones.get t).cache s) :=
  getState_script s fun _ => rfl

theorem readSb_script (t : Tone) (s : State) : Script (readSb t) s [] (.ok (s.tones.get t).sb s) :=
  getState_script s fun _ => rfl

/-! ## Scripts of the operand checks -/

theorem checkTone_script (t : Tone) (s : State) : Script (checkTone t.index) s [] (.ok t s) := by
  cases t <;> exact .pure _ s

theorem checkTone_script_illegal {z : Int} (h1 : z ≠ 1) (h2 : z ≠ 2) (s : State) :
    Script (checkTone z) s [] (.error ⟨.validation, .int z⟩ s) := by
  simp only [checkTone, toneOf, if_neg h1, if_neg h2]
  exact .raise s (by decide)

theorem checkChan_script (c : Chan) (s : State) : Script (checkChan (chanSymbol c)) s [] (.ok c s) := by
  cases c <;> exact .pure _ s

theorem checkSwitch_script (on : Bool) (s : State) : Script (checkSwitch (switchSymbol on)) s [] (.ok on s) := by
  cases on <;> exact .pure _ s

/-! ## Scripts of the tone operations: each transaction with the registers as they stand when it is issued -/

/-- The transactions `xs`, number `j` issued while the block's registers stand at `k j`. -/
def steps (k : Nat → Ctl) (xs : List Transaction) : List (Transaction × Ctl) := xs.mapIdx fun j x => (x, k j)

@[simp] theorem steps_length (k : Nat → Ctl) (xs : List Transaction) : (steps k xs).length = xs.length := by simp [steps]

@[simp] theorem steps_fst (k : Nat → Ctl) (xs : List Transaction) : (steps k xs).map Prod.fst = xs := by
  apply List.ext_getElem <;> simp [steps]

theorem steps_get (k : Nat → Ctl) (xs : List Transaction) (j : Nat) :
    (steps k xs)[j]? = xs[j]?.map fun x => (x, k j) := by simp [steps]

@[simp] theorem tookEffect_steps (k : Nat → Ctl) (xs : List Transaction) (j : Nat) (b : Bool) :
    tookEffect (steps k xs) j b = xs.take (if b then j + 1 else j) := by
  rw [tookEffect, List.map_take, steps_fst]

/-- One tone's registers replaced. -/
def Ctl.setTone (k : Ctl) (t : Tone) (r : ToneRegs) : Ctl := { k with tones := k.tones.set t r }

@[simp] theorem Ctl.setTone_get (s : State) (t : Tone) : s.ctl.setTone t (s.tones.get t) = s.ctl := by
  simp [Ctl.setTone, State.ctl]

theorem setFreq_script {s : State} {t : Tone} {f : Rat} (hb : |f| ≤ (s.dds.get t).i.fs / 2) :
    Script (setFreq t f) s
      (steps (fun j => s.ctl.setTone t (freqRegsAt (s.tones.get t) f j)) (freqTrace t (s.dds.get t) f))
      (.ok ((sidebandOf f).sign * coerce s.setup.coercion .freq |f|)
        ((s.ran (freqTrace t (s.dds.get t) f)).withTone t (freqChannels s.setup.coercion (s.dds.get t) f)
          { s.tones.get t with sb := sidebandOf f })) := by
  refine Script.finish ((attrGet_script _ _ _).bind_ok (Script.ite_neg (not_lt.mpr hb) ((attrSet_script _ _ _ _).bind_ok
    ((attrSet_script _ _ _ _).bind_ok ((attrGet_script _ _ _).bind_ok ((setSb_script _ _ _).bind_ok
      ((attrGet_script _ _ _).bind_ok ((readSb_script _ _).bind_ok ((attrSet_script _ _ _ _).bind_ok
        (.pure _ _)))))))))) ?_ fun T => ?_
  · simp [steps, freqTrace, freqRegsAt, State.ctl, Ctl.setTone, State.channel, Channel.get, Channel.put]
  · exact setFreq_within (s := s.withTransport _) (State.perfect_scripted s _ T) hb

theorem setFreq_script_beyond {s : State} {t : Tone} {f : Rat} (hb : (s.dds.get t).i.fs / 2 < |f|) :
    Script (setFreq t f) s (steps (fun _ => s.ctl) [.attrGet ⟨t, .i⟩ .fs])
      (.error ⟨.range, .bound ((s.dds.get t).i.fs / 2)⟩ (s.ran [.attrGet ⟨t, .i⟩ .fs])) := by
  refine Script.finish ((attrGet_script _ _ _).bind_ok (Script.ite_pos (c := raise _ _) hb (.raise _ (by decide))))
    ?_ fun T => ?_
  · rfl
  · exact setFreq_beyond (s := s.withTransport _) (State.perfect_scripted s _ T) hb

theorem setPhase_script (s : State) (t : Tone) (phi : Rat) :
    Script (setPhase t phi) s
      (steps (fun _ => s.ctl) (phaseTrace t s.setup.coercion (s.tones.get t).sb phi))
      (.ok () ((s.ran (phaseTrace t s.setup.coercion (s.tones.get t).sb phi)).withTone t
        (phaseChannels s.setup.coercion (s.dds.get t) (s.tones.get t).sb phi) (s.tones.get t))) := by
  refine Script.finish ((attrSet_script _ _ _ _).bind_ok ((attrGet_script _ _ _).bind_ok ((readSb_script _ _).bind_ok
    (attrSet_script _ _ _ _)))) ?_ fun T => ?_
  · simp [steps, phaseTrace, State.ctl, State.channel, Channel.get, Channel.put]
  · exact setPhase_done (s := s.withTransport _) (State.perfect_scripted s _ T)

theorem setAmp_script {s : State} {t : Tone} {a : Rat} (h0 : 0 ≤ a) (h1 : a ≤ 1) :
    Script (setAmp t a) s (steps (fun _ => s.ctl) (ampTrace t a))
      (.ok () ((s.ran (ampTrace t a)).withTone t (ampChannels s.setup.coercion (s.dds.get t) a)
        { s.tones.get t with muted := false })) := by
  refine Script.finish (Script.ite_neg (by simp [not_lt.mpr h0, not_lt.mpr h1]) ((attrSet_script _ _ _ _).bind_ok
    ((attrSet_script _ _ _ _).bind_ok (setMuted_script _ _ _)))) ?_ fun T => ?_
  · rfl
  · exact setAmp_done (s := s.withTransport _) (State.perfect_scripted s _ T) h0 h1

theorem setAmp_script_beyond {s : State} {t : Tone} {a : Rat} (h : a < 0 ∨ 1 < a) :
    Script (setAmp t a) s [] (.error ⟨.range, .interval 0 1⟩ s) := Script.ite_pos h (.raise _ (by decide))

theorem setState_script (s : State) (t : Tone) (on : Bool) :
    Script (setState t on) s
      (steps (fun j => s.ctl.setTone t (switchRegsAt (s.dds.get t) (s.tones.get t) on j))
        (switchTrace t (s.tones.get t) on))
      (.ok () ((s.ran (switchTrace t (s.tones.get t) on)).withTone t
        (switchChannels s.setup.coercion (s.dds.get t) (s.tones.get t) on)
        (switchRegs (s.dds.get t) (s.tones.get t) on))) := by
  have hend : ∀ T, setState t on (s.withTransport (List.replicate (switchTrace t (s.tones.get t) on).length .done ++ T))
      = rewire (.ok () ((s.ran (switchTrace t (s.tones.get t) on)).withTone t
        (switchChannels s.setup.coercion (s.dds.get t) (s.tones.get t) on)
        (switchRegs (s.dds.get t) (s.tones.get t) on))) T := fun T =>
    (setState_done (s := s.withTransport _) (State.perfect_scripted s _ T)).trans
      (congrArg _ (by rw [State.withTransport_tones, State.ran_scripted]; rfl))
  cases on <;> cases hm : (s.tones.get t).muted
  · refine Script.finish ((readMuted_script _ _).bind_ok (Script.ite_neg (by simp [hm]) ((attrGet_script _ _ _).bind_ok
      ((setCache_script _ _ _).bind_ok ((attrSet_script _ _ _ _).bind_ok ((attrSet_script _ _ _ _).bind_ok
        (setMuted_script _ _ _))))))) ?_ (by simpa using hend)
    simp [steps, switchTrace, ampTrace, switchRegsAt, hm, State.ctl, Ctl.setTone, State.channel, Channel.get]
  · refine Script.finish ((readMuted_script _ _).bind_ok (Script.ite_pos (c := pure ()) hm (.pure _ _))) ?_
      (by simpa using hend)
    simp [steps, switchTrace, hm]
  · refine Script.finish ((readMuted_script _ _).bind_ok (Script.ite_neg (by simp [hm]) (.pure _ _))) ?_
      (by simpa using hend)
    simp [steps, switchTrace, hm]
  · refine Script.finish ((readMuted_script _ _).bind_ok (Script.ite_pos (by simp [hm]) ((readCache_script _ _).bind_ok
      ((attrSet_script _ _ _ _).bind_ok ((attrSet_script _ _ _ _).bind_ok (setMuted_script _ _ _)))))) ?_
      (by simpa using hend)
    simp [steps, switchTrace, ampTrace, switchRegsAt, hm, State.ctl, Ctl.setTone]

theorem setLevel_script {s : State} {t : Tone} {d : Option Rat} (hd : ∀ x, d = some x → x ≤ 0) :
    Script (setLevel t d) s
      (steps (fun j => s.ctl.setTone t (levelRegsAt (s.dds.get t) (s.tones.get t) j d))
        (levelTrace t (s.tones.get t) d))
      (.ok () ((s.ran (levelTrace t (s.tones.get t) d)).withTone t
        (levelChannels s.setup.coercion (s.dds.get t) (s.tones.get t) d)
        (levelRegs (s.dds.get t) (s.tones.get t) d))) := by
  cases d with
  | none => exact setState_script s t false
  | some x =>
    have hx := hd x rfl
    simp only [levelRegsAt, Ctl.setTone_get]
    exact Script.ite_neg (not_lt.mpr hx) (setAmp_script (dbToLin_pos hx).le (dbToLin_le_one hx))

theorem setLevel_script_positive {s : State} {t : Tone} {d : Rat} (h : 0 < d) :
    Script (setLevel t (some d)) s [] (.error ⟨.range, .bound 0⟩ s) := Script.ite_pos h (.raise _ (by decide))

theorem getFreq_script (s : State) (t : Tone) :
    Script (getFreq t) s (steps (fun _ => s.ctl) (getFreqTrace t))
      (.ok (shownFreq (s.dds.get t)) (s.ran (getFreqTrace t))) := by
  refine Script.finish ((attrGet_script _ _ _).bind_ok ((attrGet_script _ _ _).bind_ok ((attrGet_script _ _ _).bind_ok
    (.pure _ _)))) ?_ fun T => ?_
  · rfl
  · exact getFreq_done (s := s.withTransport _) (State.perfect_scripted s _ T)

theorem getStatus_script (s : State) (t : Tone) :
    Script (getStatus t) s (steps (fun _ => s.ctl) (statusTrace t))
      (.ok ((s.dds.get t).i.scale, shownFreq (s.dds.get t), (s.dds.get t).i.phase) (s.ran (statusTrace t))) := by
  refine Script.finish ((attrGet_script _ _ _).bind_ok ((getFreq_script _ t).bind_ok ((attrGet_script _ _ _).bind_ok
    (.pure _ _)))) ?_ fun T => ?_
  · rfl
  · exact getStatus_done (s := s.withTransport _) (State.perfect_scripted s _ T)

/-- The reset sequence (70_reset R231): a tone's registers are written after its reads and after its writes. -/
theorem resetTones_script (s : State) :
    ∃ s1, Script resetTones s
      (steps (fun j => { s.ctl with tones :=
          ⟨resetRegsAt s.dds.one s.tones.one j, resetRegsAt s.dds.two s.tones.two (j - 4)⟩ }) resetTrace) (.ok () s1) := by
  have hset : ∀ (t : Tone) (f : State → ToneRegs) (u : State), (∀ T, f (u.withTransport T) = f u) →
      Script (update fun s => s.setTone t (f s)) u [] (.ok () (u.setTone t (f u))) := fun t f u hf =>
    .update (fun T => by simp only [hf]; rfl) rfl
  have one : ∀ (t : Tone) (u : State), Script (toneReset t) u _ _ := fun t u =>
    (attrGet_script _ _ u).bind_ok ((attrGet_script _ _ _).bind_ok ((hset t _ _ fun _ => rfl).bind_ok
      ((attrSet_script _ _ _ _).bind_ok ((attrSet_script _ _ _ _).bind_ok ((hset t _ _ fun _ => rfl).bind_ok
        (hset t _ _ fun _ => rfl))))))
  refine ⟨_, ((one .one s).bind_ok (one .two _)).congr ?_ fun _ => rfl⟩
  simp [steps, resetTrace, resetRegsAt, resetTone, State.ctl, State.channel, Channel.get, Channel.put, PerTone.set,
    PerTone.get]

end Sys2Proof.Machine
end

