-- ==== Sys2Proof/Laws/FirTransport.lean ====
section
/-! SUPPORT. The scripts of the FIR sequences (43_fir_programmer R171, R176, R182): which transactions they issue and
where SEQ stands at each, on any transport and any device; and what a FIR command leaves of an indeterminate path. -/

namespace Sys2Proof.Machine

/-! ## Validation -/

theorem checkRange_script (v lo hi : Int) (s : State) : ∃ r, Script (checkRange v lo hi) s [] r ∧ endState r = s := by
  by_cases h : v < lo ∨ v > hi
  · exact ⟨_, .ite_pos h (.raise s (by decide)), rfl⟩
  · exact ⟨_, .ite_neg h (.pure _ s), rfl⟩

/-- A program that only checks, followed by one that only checks. -/
theorem check_bind {α β : Type} {c : Cmd α} {f : α → Cmd β} {s : State} (h : ∃ r, Script c s [] r ∧ endState r = s)
    (g : ∀ a, c s = .ok a s → ∃ r, Script (f a) s [] r ∧ endState r = s) :
    ∃ r, Script (c >>= f) s [] r ∧ endState r = s := by
  obtain ⟨r, h1, h2⟩ := h
  cases r with
  | error e t => exact ⟨_, h1.bind_error, h2⟩
  | ok a t =>
    change t = s at h2
    subst h2
    have ha : c t = .ok a t := h1.done t.transport fun _ _ hj => absurd hj (Nat.not_lt_zero _)
    obtain ⟨q, g1, g2⟩ := g a ha
    exact ⟨q, h1.bind_ok g1, g2⟩

theorem checkTapValues_script (c : List Int) (s : State) : ∃ r, Script (checkTapValues c) s [] r ∧ endState r = s := by
  induction c with
  | nil => exact ⟨_, .pure _ s, rfl⟩
  | cons v c ih => exact check_bind (checkRange_script _ _ _ s) fun _ _ => ih

theorem buildConfig_script (p : Path) (taps : Int) (gain : Rat) (s : State) :
    ∃ r, Script (buildConfig p taps gain) s [] r ∧ endState r = s := by
  refine check_bind (c := checkTaps taps) ?_ fun _ _ => ?_
  · by_cases h : taps < 16 ∨ taps > 128 ∨ taps % 16 ≠ 0
    · exact ⟨_, .ite_pos h (.raise s (by decide)), rfl⟩
    · exact ⟨_, .ite_neg h (.pure _ s), rfl⟩
  · by_cases h : gain ∈ legalGains p
    · cases p <;> exact ⟨_, .ite_pos h (.pure _ s), rfl⟩
    · exact ⟨_, .ite_neg h (.raise s (by decide)), rfl⟩

theorem validateWrite_script (p : Path) (c : List Int) (taps : Int) (gain : Rat) (s : State) :
    ∃ r, Script (validateWrite p c taps gain) s [] r ∧ endState r = s := by
  refine check_bind (buildConfig_script p taps gain s) fun _ _ => ?_
  by_cases h : c.length > 128
  · exact ⟨_, .ite_pos h (.raise s (by decide)), rfl⟩
  · obtain ⟨r, h1, h2⟩ := check_bind (f := fun _ : Unit => (pure _ : Cmd (Byte × Option (BitVec 2))))
      (checkTapValues_script c s) fun _ _ => ⟨_, .pure _ s, rfl⟩
    exact ⟨r, .ite_neg h h1, h2⟩

/-- Operands that pass the validation are legal. -/
theorem legal_of_validateWrite {p : Path} {c : List Int} {taps : Int} {gain : Rat} {s t : State}
    {v : Byte × Option (BitVec 2)} (h : validateWrite p c taps gain s = .ok v t) : LegalUpload p c taps gain := by
  by_cases ht : taps < 16 ∨ 128 < taps ∨ taps % 16 ≠ 0
  · rw [validateWrite, Cmd.bind_apply, buildConfig_taps ht] at h; cases h
  push Not at ht
  by_cases hg : gain ∈ legalGains p
  · rw [validateWrite, Cmd.bind_apply, buildConfig_legal ht.1 ht.2.1 ht.2.2 hg] at h
    by_cases hl : c.length > 128
    · simp [hl] at h
    · refine ⟨ht.1, ht.2.1, ht.2.2, hg, not_lt.mp hl, ?_⟩
      by_contra hv
      push Not at hv
      obtain ⟨a, u, b, rfl, ha, hu⟩ : ∃ a u b, c = a ++ u :: b ∧ (∀ w ∈ a, -32768 ≤ w ∧ w ≤ 32767)
          ∧ (u < -32768 ∨ 32767 < u) := by
        clear h hl ht hg
        induction c with
        | nil => obtain ⟨v, hv, -⟩ := hv; simp at hv
        | cons x c ih =>
          by_cases hx : -32768 ≤ x ∧ x ≤ 32767
          · obtain ⟨w, hw, hw1⟩ := hv
            rcases List.mem_cons.mp hw with rfl | hw
            · exact absurd hx.2 (not_le.mpr (hw1 hx.1))
            · obtain ⟨a, u, b, rfl, h1, h2⟩ := ih ⟨w, hw, hw1⟩
              exact ⟨x :: a, u, b, rfl, by simpa using ⟨hx, h1⟩, h2⟩
          · exact ⟨[], x, c, rfl, by simp, by omega⟩
      dsimp only at h
      rw [if_neg hl, Cmd.bind_apply, checkTapValues_illegal ha hu] at h
      cases h
  · rw [validateWrite, Cmd.bind_apply, buildConfig_gain ht.1 ht.2.1 ht.2.2 hg] at h; cases h

/-! ## Where SEQ stands -/

/-- SEQ at another place. -/
def Ctl.atSeq (k : Ctl) (q : Seq) : Ctl := { k with seq := q }

/-- Transactions issued while SEQ stands at one place. -/
def during (k : Ctl) (q : Seq) (xs : List Transaction) : List (Transaction × Ctl) := xs.map fun x => (x, k.atSeq q)

@[simp] theorem during_fst (k : Ctl) (q : Seq) (xs : List Transaction) : (during k q xs).map Prod.fst = xs := by
  simp [during, Function.comp_def]

@[simp] theorem during_snd (k : Ctl) (q : Seq) (xs : List Transaction) :
    (during k q xs).map Prod.snd = (List.replicate xs.length q).map k.atSeq := by
  simp [during, Function.comp_def]

/-- A list of steps whose places are those of a function. -/
theorem eq_steps {xs : List (Transaction × Ctl)} {k : Ctl} {f : Nat → Seq}
    (h : xs.map Prod.snd = ((List.range xs.length).map f).map k.atSeq) :
    xs = steps (fun j => k.atSeq (f j)) (xs.map Prod.fst) := by
  apply List.ext_getElem
  · simp
  · intro j h1 h2
    have := congrArg (fun l => l[j]?) h
    simp [h1] at this
    simp [steps, ← this]

/-! ## The upload -/

theorem pushTap_script (p : Path) (c : List Int) (i : Fin 128) (s : State) :
    ∃ s1, Script (pushTap p c i) s (during s.ctl (.loop i) (slotTrace p c i)) (.ok () s1)
      ∧ s1.ctl = s.ctl.atSeq (.loop i) :=
  ⟨_, (setSeq_script _ s).bind_ok ((regWrite_script _ _ _).bind_ok ((regWrite_script _ _ _).bind_ok
    ((regWrite_script _ _ _).bind_ok (regWrite_script _ _ _)))), rfl⟩

/-- The transactions of R171's loop over a list of slots, each with SEQ's place. -/
def pushSteps (k : Ctl) (p : Path) (c : List Int) (l : List (Fin 128)) : List (Transaction × Ctl) :=
  l.flatMap fun i => during k (.loop i) (slotTrace p c i)

theorem pushTaps_script (p : Path) (c : List Int) (l : List (Fin 128)) (k : Ctl) (s : State)
    (hk : ∀ q, s.ctl.atSeq q = k.atSeq q) :
    ∃ s1, Script (pushTaps p c l) s (pushSteps k p c l) (.ok () s1) ∧ ∀ q, s1.ctl.atSeq q = k.atSeq q := by
  induction l generalizing s with
  | nil => exact ⟨s, .pure _ s, hk⟩
  | cons i l ih =>
    obtain ⟨s1, h1, h2⟩ := pushTap_script p c i s
    obtain ⟨s2, h3, h4⟩ := ih s1 fun q => by rw [h2]; exact hk q
    have hd : during s.ctl (.loop i) (slotTrace p c i) = during k (.loop i) (slotTrace p c i) := by
      simp only [during, hk]
    rw [hd] at h1
    exact ⟨s2, h1.bind_ok h3, h4⟩

theorem writeGain_script (p : Path) (gain : Rat) (s : State) :
    ∃ s1, Script (writeGain (gainCode p gain)) s ((gainTrace p gain).map fun x => (x, s.ctl)) (.ok () s1)
      ∧ s1.ctl = s.ctl := by
  cases p with
  | tx => exact ⟨s, .pure _ s, rfl⟩
  | rx => exact ⟨_, regWrite_script _ _ s, rfl⟩

/-- The transactions of an upload over a list of slots, each with SEQ's place (R171). -/
def uploadSteps (k : Ctl) (l : List (Fin 128)) (p : Path) (c : List Int) (cfg : Byte) (gain : Rat) :
    List (Transaction × Ctl) :=
  during k .disabled (.attrSetS .enable "0" :: gainTrace p gain)
    ++ during k .clockRunning [.regWrite (.firConfig p) (cfg ||| 0x02)]
    ++ during k .writeEnabled [.regWrite (.firConfig p) (cfg ||| 0x06)]
    ++ pushSteps k p c l
    ++ during k .writeDisabled [.regWrite (.firConfig p) (cfg ||| 0x02)]
    ++ during k .clockStopped [.regWrite (.firConfig p) cfg]
    ++ during k .enabled [.attrSetS .enable "1"]

theorem uploadSteps_fst (k : Ctl) (l : List (Fin 128)) (p : Path) (c : List Int) (cfg : Byte) (gain : Rat) :
    (uploadSteps k l p c cfg gain).map Prod.fst = uploadTraceOver l p c cfg gain := by
  simp [uploadSteps, pushSteps, uploadTraceOver, List.map_flatMap]

/-- The upload over a list of slots issues its transactions, SEQ where R171 puts it. -/
theorem uploadOver_script (l : List (Fin 128)) (p : Path) (c : List Int) (cfg : Byte) (gain : Rat) (s : State) :
    ∃ s1, Script (uploadOver l p c cfg (gainCode p gain)) s (uploadSteps s.ctl l p c cfg gain) (.ok () s1)
      ∧ s1.ctl = { s.ctl with seq := .idle, indet := s.indet.set p false } := by
  have h0 := setSeq_script .disabled s
  have h1 := attrSetS_script .enable "0" { s with seq := .disabled }
  obtain ⟨s2, h2, k2⟩ := writeGain_script p gain
    ((State.issue { s with seq := .disabled } (.attrSetS .enable "0")).storeFirAttr .enable "0")
  have k2' : ∀ q, s2.ctl.atSeq q = s.ctl.atSeq q := fun q => by rw [k2]; rfl
  obtain ⟨s3, h3, k3⟩ : ∃ s3, (∀ {f : Cmd Unit} {ys r}, Script f s3 ys r → Script (do
        setSeq .clockRunning
        regWrite (.firConfig p) (cfg ||| 0x02)
        setSeq .writeEnabled
        regWrite (.firConfig p) (cfg ||| 0x06)
        f) s2 ([] ++ ([(.regWrite (.firConfig p) (cfg ||| 0x02), s2.ctl.atSeq .clockRunning)] ++ ([]
          ++ ([(.regWrite (.firConfig p) (cfg ||| 0x06), s2.ctl.atSeq .writeEnabled)] ++ ys)))) r)
        ∧ s3.ctl = s2.ctl.atSeq .writeEnabled :=
    ⟨_, fun g => (setSeq_script _ _).bind_ok ((regWrite_script _ _ _).bind_ok ((setSeq_script _ _).bind_ok
      ((regWrite_script _ _ _).bind_ok g))), rfl⟩
  obtain ⟨s4, h4, k4⟩ := pushTaps_script p c l s.ctl s3 fun q => by rw [k3]; exact k2' q
  have tail : ∃ s9, Script (do
      setSeq .writeDisabled
      regWrite (.firConfig p) (cfg ||| 0x02)
      setSeq .clockStopped
      regWrite (.firConfig p) cfg
      setSeq .enabled
      attrSetS .enable "1"
      clearIndet p
      setSeq .idle) s4
        [(.regWrite (.firConfig p) (cfg ||| 0x02), s4.ctl.atSeq .writeDisabled),
          (.regWrite (.firConfig p) cfg, s4.ctl.atSeq .clockStopped),
          (.attrSetS .enable "1", s4.ctl.atSeq .enabled)] (.ok () s9)
        ∧ s9.ctl = { s4.ctl.atSeq .idle with indet := s4.indet.set p false } :=
    ⟨_, (setSeq_script _ _).bind_ok ((regWrite_script _ _ _).bind_ok ((setSeq_script _ _).bind_ok
      ((regWrite_script _ _ _).bind_ok ((setSeq_script _ _).bind_ok ((attrSetS_script _ _ _).bind_ok
        ((clearIndet_script _ _).bind_ok (setSeq_script _ _))))))), rfl⟩
  obtain ⟨s9, h9, k9⟩ := tail
  have hi : s4.indet = s.indet := congrArg Ctl.indet (k4 .idle)
  refine ⟨s9, Script.congr (h0.bind_ok (h1.bind_ok (h2.bind_ok (h3 (h4.bind_ok h9))))) ?_ fun _ => rfl, ?_⟩
  · simp only [k2', k4, uploadSteps, during]
    simp [State.ctl, Ctl.atSeq]
  · rw [k9, hi, k4]; rfl

/-- SEQ's places over an upload, one for each transaction (R171). -/
def uploadSeqs (p : Path) : List Seq :=
  (match p with | .tx => [.disabled] | .rx => [.disabled, .disabled]) ++ [.clockRunning, .writeEnabled]
    ++ allSlots.flatMap (fun i => List.replicate 4 (.loop i)) ++ [.writeDisabled, .clockStopped, .enabled]

theorem uploadSeqs_eq (p : Path) : uploadSeqs p = (List.range (uploadCount p)).map (uploadSeq p) := by
  cases p <;> decide +kernel

theorem uploadSteps_snd (k : Ctl) (p : Path) (c : List Int) (cfg : Byte) (gain : Rat) :
    (uploadSteps k allSlots p c cfg gain).map Prod.snd = (uploadSeqs p).map k.atSeq := by
  cases p <;> simp [uploadSteps, uploadSeqs, pushSteps, gainTrace, slotTrace, List.map_flatMap, during]

/-- The steps of an upload: its mandatory sequence, SEQ at its transaction's place. -/
theorem uploadSteps_eq (k : Ctl) (p : Path) (c : List Int) (cfg : Byte) (gain : Rat) :
    uploadSteps k allSlots p c cfg gain = steps (fun j => k.atSeq (uploadSeq p j)) (uploadTrace p c cfg gain) := by
  have hf := uploadSteps_fst k allSlots p c cfg gain
  have hl : (uploadSteps k allSlots p c cfg gain).length = uploadCount p := by
    rw [← uploadTrace_length p c cfg gain]
    exact (List.length_map _).symm.trans (congrArg List.length hf)
  have := eq_steps (xs := uploadSteps k allSlots p c cfg gain) (k := k) (f := uploadSeq p)
    (by rw [hl, uploadSteps_snd, uploadSeqs_eq])
  rwa [hf] at this

/-- FIR.WRITETX and FIR.WRITERX with legal operands. -/
theorem firWrite_script {p : Path} {c : List Int} {taps : Int} {gain : Rat} (h : LegalUpload p c taps gain) (s : State) :
    ∃ s1, Script (firWrite p c taps gain) s
        (steps (fun j => s.ctl.atSeq (uploadSeq p j)) (uploadTrace p c (configWord taps (gainBit p gain)) gain))
        (.ok .unit s1)
      ∧ s1.ctl = { s.ctl with seq := .idle, indet := s.indet.set p false } := by
  obtain ⟨r, h1, -⟩ := validateWrite_script p c taps gain s
  have h0 : Script (validateWrite p c taps gain) s [] (.ok (configWord taps (gainBit p gain), gainCode p gain) s) :=
    h1.finish rfl fun T => validateWrite_legal h (s.withTransport T)
  obtain ⟨s1, h2, h3⟩ := uploadOver_script allSlots p c (configWord taps (gainBit p gain)) gain s
  rw [uploadSteps_eq] at h2
  have h4 : Script (do upload p c (configWord taps (gainBit p gain)) (gainCode p gain); return Value.unit) s _ _ :=
    h2.bind_ok (.pure _ _)
  exact ⟨s1, (h0.bind_ok h4).congr (by simp) fun _ => rfl, h3⟩

/-- An upload with an operand that is not legal makes no transaction. -/
theorem firWrite_script_illegal {p : Path} {c : List Int} {taps : Int} {gain : Rat} (h : ¬ LegalUpload p c taps gain)
    (s : State) : ∃ e, Script (firWrite p c taps gain) s [] (.error e s) := by
  obtain ⟨r, h1, h2⟩ := validateWrite_script p c taps gain s
  cases r with
  | error e t => cases h2; exact ⟨e, h1.bind_error⟩
  | ok a t =>
    exact absurd (legal_of_validateWrite (h1.done s.transport fun _ _ hj => absurd hj (Nat.not_lt_zero _))) h

/-! ## The readback -/

theorem readSlot_script (p : Path) (i : Fin 128) (s : State) :
    ∃ v s1, Script (readSlot p i) s (during s.ctl (.readLoop i) (readSlotTrace p i)) (.ok v s1)
      ∧ s1.ctl = s.ctl.atSeq (.readLoop i) :=
  ⟨_, _, (setSeq_script _ s).bind_ok ((regWrite_script _ _ _).bind_ok ((regRead_script _ _).bind_ok
    ((regRead_script _ _).bind_ok (.pure _ _)))), rfl⟩

theorem readSlots_script (p : Path) (l : List (Fin 128)) (k : Ctl) (s : State) (hk : ∀ q, s.ctl.atSeq q = k.atSeq q) :
    ∃ v s1, Script (readSlots p l) s (l.flatMap fun i => during k (.readLoop i) (readSlotTrace p i)) (.ok v s1)
      ∧ ∀ q, s1.ctl.atSeq q = k.atSeq q := by
  induction l generalizing s with
  | nil => exact ⟨_, s, .pure _ s, hk⟩
  | cons i l ih =>
    obtain ⟨v, s1, h1, h2⟩ := readSlot_script p i s
    obtain ⟨vs, s2, h3, h4⟩ := ih s1 fun q => by rw [h2]; exact hk q
    have hd : during s.ctl (.readLoop i) (readSlotTrace p i) = during k (.readLoop i) (readSlotTrace p i) := by
      simp only [during, hk]
    rw [hd] at h1
    have h5 : Script (do let vs ← readSlots p l; return v :: vs) s1 _ _ := h3.bind_ok (.pure _ _)
    exact ⟨_, s2, (h1.bind_ok h5).congr (by simp) fun _ => rfl, h4⟩

/-- SEQ's places over a readback, one for each transaction (R176). -/
def readbackSeqs : List Seq := .readTrigger :: allSlots.flatMap fun i => List.replicate 3 (.readLoop i)

theorem readbackSeqs_eq : readbackSeqs = (List.range 385).map readbackSeq := by decide +kernel

theorem readbackTrace_length (p : Path) : (readbackTrace p).length = 385 := by
  have := readSlotTrace_length p allSlots
  rw [show allSlots.length = 128 from List.length_finRange] at this
  simp [readbackTrace, this]

/-- FIR.READTX and FIR.READRX. -/
theorem firRead_script (p : Path) (s : State) :
    ∃ v s1, Script (firRead p) s (steps (fun j => s.ctl.atSeq (readbackSeq j)) (readbackTrace p)) (.ok v s1)
      ∧ s1.ctl = s.ctl.atSeq .idle := by
  obtain ⟨r, s2, h3, k3⟩ := readSlots_script p allSlots s.ctl
    ((State.issue { s with seq := .readTrigger } (.regWrite (.firConfig p) readTriggerWord)).storeReg (.firConfig p)
      readTriggerWord) fun _ => rfl
  refine ⟨_, _, Script.congr ((setSeq_script .readTrigger s).bind_ok ((regWrite_script _ _ _).bind_ok (h3.bind_ok
    ((setSeq_script .idle s2).bind_ok (.pure _ _))))) ?_ fun _ => rfl, k3 .idle⟩
  have hf : ∀ xs : List (Transaction × Ctl), xs.map Prod.fst = readbackTrace p →
      xs.map Prod.snd = readbackSeqs.map s.ctl.atSeq →
        xs = steps (fun j => s.ctl.atSeq (readbackSeq j)) (readbackTrace p) := by
    intro xs h1 h2
    have hl : xs.length = 385 := by
      rw [← readbackTrace_length p, ← h1, List.length_map]
    rw [eq_steps (xs := xs) (k := s.ctl) (f := readbackSeq) (by rw [h2, readbackSeqs_eq, hl]), h1]
  refine hf _ ?_ ?_
  · simp [readbackTrace, readTriggerWord, List.map_flatMap]
  · simp [readbackSeqs, List.map_flatMap, readSlotTrace]
    rfl

/-! ## The load of a blob -/

theorem findFile_script {name b : String} {s : State} (h : s.setup.files.lookup name = some b) :
    Script (findFile name) s [] (.ok b s) :=
  .quiet (fun T => by simp [findFile, h, rewire]) (fun _ _ e => (nomatch e)) rfl

theorem findFile_script_absent {name : String} {s : State} (h : s.setup.files.lookup name = none) :
    Script (findFile name) s [] (.error ⟨.notFound, .name name⟩ s) :=
  .quiet (fun T => by simp [findFile, h, rewire]) (fun _ _ e => by cases e; exact ErrKind.noConfusion) rfl

/-- FIR.LOADFILE once the file is found. -/
theorem loadBlob_script (b : String) (s : State) :
    ∃ s1, Script (loadBlob b) s (steps (fun j => s.ctl.atSeq (loadSeq j)) (loadTrace b)) (.ok () s1)
      ∧ s1.ctl = { s.ctl with seq := .idle, indet := ⟨false, false⟩ } :=
  ⟨_, (Script.congr ((setSeq_script _ s).bind_ok ((attrSetS_script _ _ _).bind_ok ((attrSetS_script _ _ _).bind_ok
    ((setSeq_script _ _).bind_ok ((attrSetS_script _ _ _).bind_ok ((clearIndet_script _ _).bind_ok
      ((clearIndet_script _ _).bind_ok (setSeq_script _ _)))))))) rfl fun _ => rfl), rfl⟩

/-! ## A FIR command on its paths -/

theorem onPaths_ok {α : Type} {c : Cmd α} {ps : List Path} {s t : State} {a : α} (h : c s = .ok a t) :
    onPaths ps c s = .ok a t.blur := by unfold onPaths; rw [h]

theorem onPaths_transport {α : Type} {c : Cmd α} {ps : List Path} {s t : State} {x : Transaction}
    (h : c s = .error (transportError x) t) : onPaths ps c s = .error (transportError x) (t.markIndet ps).blur := by
  unfold onPaths; rw [h]; rfl

theorem onPaths_error {α : Type} {c : Cmd α} {ps : List Path} {s t : State} {e : Failure} (h : c s = .error e t)
    (he : e.kind ≠ .transport) : onPaths ps c s = .error e t := by
  unfold onPaths; rw [h]; simp [he]

end Sys2Proof.Machine
end

