-- ==== Sys2Proof/Laws/Frame.lean ====
section
/-! SUPPORT. Frames: a relation between the state before and the state after that holds of a program however it ends,
and is closed under sequencing. -/

namespace Sys2Proof.Machine

variable {α β : Type} {P : State → State → Prop}

/-- A relation that a sequence of programs keeps when each keeps it. -/
structure Framing (P : State → State → Prop) : Prop where
  refl : ∀ s, P s s
  trans : ∀ s t u, P s t → P t u → P s u

/-- The program keeps the relation, whether it ends with a value or raises. -/
def Keeps (P : State → State → Prop) (c : Cmd α) : Prop := ∀ s, P s (endState (c s))

theorem Keeps.pure (h : Framing P) (a : α) : Keeps P (pure a : Cmd α) := fun s => h.refl s

theorem Keeps.raise (h : Framing P) (k : ErrKind) (x : Info) : Keeps P (raise k x : Cmd α) := fun s => h.refl s

theorem Keeps.update {f : State → State} (hf : ∀ s, P s (f s)) : Keeps P (update f) := hf

theorem Keeps.bind (h : Framing P) {c : Cmd α} {f : α → Cmd β} (hc : Keeps P c) (hf : ∀ a, Keeps P (f a)) :
    Keeps P (c >>= f) := by
  intro s
  have h1 := hc s
  rw [Cmd.bind_apply]
  cases hr : c s with
  | ok a s1 => rw [hr] at h1; exact h.trans _ _ _ h1 (hf a s1)
  | error e s1 => rw [hr] at h1; exact h1

theorem Keeps.ite {p : Prop} [Decidable p] {c d : Cmd α} (hc : Keeps P c) (hd : Keeps P d) :
    Keeps P (if p then c else d) := by
  by_cases h : p <;> simpa [h]

theorem Keeps.read {x : Transaction} {value : State → α} (hi : ∀ s, P s (s.issue x)) :
    Keeps P (readTransaction x value) := by
  intro s
  rcases readTransaction_cases s x value with ⟨_, h⟩ | ⟨_, _, h⟩ <;> rw [h] <;> exact hi s

theorem Keeps.write {x : Transaction} {effect : State → State} (h : Framing P) (hi : ∀ s, P s (s.issue x))
    (he : ∀ s, P s (effect s)) : Keeps P (writeTransaction x effect) := by
  intro s
  rcases writeTransaction_cases s x effect with ⟨_, h'⟩ | ⟨_, h'⟩ | ⟨_, h'⟩ <;> rw [h']
  · exact h.trans _ _ _ (hi s) (he _)
  · exact h.trans _ _ _ (hi s) (he _)
  · exact hi s

/-- A read of a register of the block. -/
theorem Keeps.getState (h : Framing P) (f : State → α) : Keeps P (do return f (← get) : Cmd α) := fun s => h.refl s

/-! ## Frames of the shared operations -/

/-- What a frame must allow for the tone operations on `t` to keep it. -/
structure ToneFrame (P : State → State → Prop) (t : Tone) : Prop extends Framing P where
  issue : ∀ s x, P s (s.issue x)
  store : ∀ s c a v, P s (s.storeAttr ⟨t, c⟩ a v)
  regs : ∀ s r, P s (s.setTone t r)

/-- What a frame must allow for the reads of a tone to keep it. -/
structure ReadFrame (P : State → State → Prop) : Prop extends Framing P where
  issue : ∀ s x, P s (s.issue x)

theorem ToneFrame.toReadFrame {t : Tone} (h : ToneFrame P t) : ReadFrame P := ⟨h.toFraming, h.issue⟩

theorem ReadFrame.attrGet (h : ReadFrame P) (ch : ChanId) (a : Attr) : Keeps P (attrGet ch a) := .read fun s => h.issue s _

theorem ToneFrame.attrSet {t : Tone} (h : ToneFrame P t) (c : Chan) (a : Attr) (v : Rat) :
    Keeps P (attrSet ⟨t, c⟩ a v) := .write h.toFraming (fun s => h.issue s _) fun s => h.store s c a v

theorem ReadFrame.checkTone (h : ReadFrame P) (z : Int) : Keeps P (checkTone z) := by
  unfold Machine.checkTone
  split
  · exact .pure h.toFraming _
  · exact .raise h.toFraming _ _

theorem ReadFrame.checkChan (h : ReadFrame P) (x : Symbol) : Keeps P (checkChan x) := by
  unfold Machine.checkChan
  split
  · exact .pure h.toFraming _
  · exact .raise h.toFraming _ _

theorem ReadFrame.checkSwitch (h : ReadFrame P) (x : Symbol) : Keeps P (checkSwitch x) := by
  unfold Machine.checkSwitch
  split
  · exact .pure h.toFraming _
  · exact .raise h.toFraming _ _

theorem ReadFrame.getFreq (h : ReadFrame P) (t : Tone) : Keeps P (getFreq t) :=
  .bind h.toFraming (h.attrGet _ _) fun _ => .bind h.toFraming (h.attrGet _ _) fun _ =>
    .bind h.toFraming (h.attrGet _ _) fun _ => .pure h.toFraming _

theorem ReadFrame.getStatus (h : ReadFrame P) (t : Tone) : Keeps P (getStatus t) :=
  .bind h.toFraming (h.attrGet _ _) fun _ => .bind h.toFraming (h.getFreq t) fun _ =>
    .bind h.toFraming (h.attrGet _ _) fun _ => .pure h.toFraming _

theorem ToneFrame.setFreq {t : Tone} (h : ToneFrame P t) (f : Rat) : Keeps P (setFreq t f) :=
  have r := h.toReadFrame
  .bind h.toFraming (r.attrGet _ _) fun _ => .ite (.raise h.toFraming _ _)
    (.bind h.toFraming (h.attrSet _ _ _) fun _ => .bind h.toFraming (h.attrSet _ _ _) fun _ =>
      .bind h.toFraming (r.attrGet _ _) fun _ => .bind h.toFraming (.update fun s => h.regs s _) fun _ =>
        .bind h.toFraming (r.attrGet _ _) fun _ => .bind h.toFraming (.getState h.toFraming _) fun _ =>
          .bind h.toFraming (h.attrSet _ _ _) fun _ => .pure h.toFraming _)

theorem ToneFrame.setPhase {t : Tone} (h : ToneFrame P t) (phi : Rat) : Keeps P (setPhase t phi) :=
  .bind h.toFraming (h.attrSet _ _ _) fun _ => .bind h.toFraming (h.toReadFrame.attrGet _ _) fun _ =>
    .bind h.toFraming (.getState h.toFraming _) fun _ => h.attrSet _ _ _

theorem ToneFrame.setAmp {t : Tone} (h : ToneFrame P t) (a : Rat) : Keeps P (setAmp t a) :=
  .ite (.raise h.toFraming _ _) (.bind h.toFraming (h.attrSet _ _ _) fun _ =>
    .bind h.toFraming (h.attrSet _ _ _) fun _ => .update fun s => h.regs s _)

theorem ToneFrame.setState {t : Tone} (h : ToneFrame P t) (on : Bool) : Keeps P (setState t on) := by
  refine .ite (p := on = true) ?_ ?_
  · refine .bind h.toFraming (.getState h.toFraming _) fun b => .ite (p := b = true) ?_ (.pure h.toFraming _)
    exact .bind h.toFraming (.getState h.toFraming _) fun _ => .bind h.toFraming (h.attrSet _ _ _) fun _ =>
      .bind h.toFraming (h.attrSet _ _ _) fun _ => .update fun s => h.regs s _
  · refine .bind h.toFraming (.getState h.toFraming _) fun b => .ite (p := b = true) (.pure h.toFraming _) ?_
    exact .bind h.toFraming (h.toReadFrame.attrGet _ _) fun _ => .bind h.toFraming (.update fun s => h.regs s _) fun _ =>
      .bind h.toFraming (h.attrSet _ _ _) fun _ => .bind h.toFraming (h.attrSet _ _ _) fun _ => .update fun s => h.regs s _

theorem ToneFrame.setLevel {t : Tone} (h : ToneFrame P t) (d : Option Rat) : Keeps P (setLevel t d) := by
  cases d with
  | none => exact h.setState false
  | some d => exact .ite (.raise h.toFraming _ _) (h.setAmp _)

theorem Keeps.whenGiven (h : Framing P) {d : Option Rat} {f : Rat → Cmd Unit} (hf : ∀ x, Keeps P (f x)) :
    Keeps P (whenGiven d f) := by
  cases d with
  | none => exact .pure h _
  | some x => exact hf x

/-- The path a written register belongs to; FIR_GAIN is the RX path's (20_memory R52). -/
def WriteReg.path : WriteReg → Path
  | .coeffAddr p | .writeLo p | .writeHi p | .firConfig p => p
  | .firGain => .rx

/-- What a frame must allow for the FIR sequences on `p` to keep it. -/
structure PathFrame (P : State → State → Prop) (p : Path) : Prop extends Framing P where
  issue : ∀ s x, P s (s.issue x)
  reg : ∀ s r v, WriteReg.path r = p → P s (s.storeReg r v)
  enable : ∀ s v, P s (s.storeFirAttr .enable v)
  seq : ∀ s x, P s { s with seq := x }
  indet : ∀ s b, P s { s with indet := s.indet.set p b }
  blur : ∀ s, P s s.blur

/-- What a frame must allow for every FIR sequence to keep it. -/
structure FirFrame (P : State → State → Prop) : Prop extends Framing P where
  issue : ∀ s x, P s (s.issue x)
  reg : ∀ s r v, P s (s.storeReg r v)
  attr : ∀ s a v, P s (s.storeFirAttr a v)
  seq : ∀ s x, P s { s with seq := x }
  indet : ∀ s x, P s { s with indet := x }
  blur : ∀ s, P s s.blur

theorem FirFrame.path (h : FirFrame P) (p : Path) : PathFrame P p :=
  { h.toFraming with
    issue := h.issue
    reg := fun s r v _ => h.reg s r v
    enable := fun s v => h.attr s .enable v
    seq := h.seq
    indet := fun s _ => h.indet s _
    blur := h.blur }

variable {p : Path}

theorem PathFrame.regWrite (h : PathFrame P p) (r : WriteReg) (hr : WriteReg.path r = p) (v : Byte) :
    Keeps P (regWrite r v) := .write h.toFraming (fun s => h.issue s _) fun s => h.reg s _ _ hr

theorem PathFrame.setEnable (h : PathFrame P p) (v : String) : Keeps P (attrSetS .enable v) :=
  .write h.toFraming (fun s => h.issue s _) fun s => h.enable s _

theorem PathFrame.regRead (h : PathFrame P p) (r : ReadReg) : Keeps P (regRead r) := .read fun s => h.issue s _

theorem PathFrame.setSeq (h : PathFrame P p) (x : Seq) : Keeps P (setSeq x) := .update fun s => h.seq s x

theorem Keeps.checkRange (h : Framing P) (v lo hi : Int) : Keeps P (checkRange v lo hi) :=
  .ite (.raise h _ _) (.pure h _)

theorem Keeps.checkTapValues (h : Framing P) (c : List Int) : Keeps P (checkTapValues c) := by
  induction c with
  | nil => exact .pure h _
  | cons v c ih => exact .bind h (.checkRange h _ _ _) fun _ => ih

theorem Keeps.buildConfig (h : Framing P) (p : Path) (taps : Int) (gain : Rat) : Keeps P (buildConfig p taps gain) := by
  refine .bind h (.ite (.raise h _ _) (.pure h _)) fun _ => .ite ?_ (.raise h _ _)
  cases p <;> exact .pure h _

theorem Keeps.validateWrite (h : Framing P) (p : Path) (c : List Int) (taps : Int) (gain : Rat) :
    Keeps P (validateWrite p c taps gain) :=
  .bind h (.buildConfig h p taps gain) fun _ => .ite (.raise h _ _) (.bind h (.checkTapValues h c) fun _ => .pure h _)

theorem PathFrame.pushTaps (h : PathFrame P p) (c : List Int) (l : List (Fin 128)) : Keeps P (pushTaps p c l) := by
  induction l with
  | nil => exact .pure h.toFraming _
  | cons i l ih =>
    exact .bind h.toFraming (.bind h.toFraming (h.setSeq _) fun _ => .bind h.toFraming (h.regWrite _ rfl _) fun _ =>
      .bind h.toFraming (h.regWrite _ rfl _) fun _ => .bind h.toFraming (h.regWrite _ rfl _) fun _ =>
        h.regWrite _ rfl _) fun _ => ih

/-- The gain write keeps a frame of the path whose gain it is: RX, or none. -/
theorem PathFrame.writeGain (h : PathFrame P p) {g : Option (BitVec 2)} (hg : p = .tx → g = none) :
    Keeps P (writeGain g) := by
  cases g with
  | none => exact .pure h.toFraming _
  | some g =>
    cases p with
    | tx => exact nomatch hg rfl
    | rx => exact h.regWrite _ rfl _

theorem PathFrame.upload (h : PathFrame P p) (c : List Int) (cfg : Byte) {g : Option (BitVec 2)}
    (hg : p = .tx → g = none) : Keeps P (upload p c cfg g) := by
  have f := h.toFraming
  exact .bind f (h.setSeq _) fun _ => .bind f (h.setEnable _) fun _ => .bind f (h.writeGain hg) fun _ =>
    .bind f (h.setSeq _) fun _ => .bind f (h.regWrite _ rfl _) fun _ => .bind f (h.setSeq _) fun _ =>
      .bind f (h.regWrite _ rfl _) fun _ => .bind f (h.pushTaps c _) fun _ => .bind f (h.setSeq _) fun _ =>
        .bind f (h.regWrite _ rfl _) fun _ => .bind f (h.setSeq _) fun _ => .bind f (h.regWrite _ rfl _) fun _ =>
          .bind f (h.setSeq _) fun _ => .bind f (h.setEnable _) fun _ =>
            .bind f (.update fun s => h.indet s _) fun _ => h.setSeq _

theorem PathFrame.readSlots (h : PathFrame P p) (l : List (Fin 128)) : Keeps P (readSlots p l) := by
  have f := h.toFraming
  induction l with
  | nil => exact .pure f _
  | cons i l ih =>
    exact .bind f (.bind f (h.setSeq _) fun _ => .bind f (h.regWrite _ rfl _) fun _ => .bind f (h.regRead _) fun _ =>
      .bind f (h.regRead _) fun _ => .pure f _) fun _ => .bind f ih fun _ => .pure f _

theorem PathFrame.firRead (h : PathFrame P p) : Keeps P (firRead p) :=
  have f := h.toFraming
  .bind f (h.setSeq _) fun _ => .bind f (h.regWrite _ rfl _) fun _ => .bind f (h.readSlots _) fun _ =>
    .bind f (h.setSeq _) fun _ => .pure f _

/-- A TX configuration carries no RX gain code (42_fir_codec R153). -/
theorem buildConfig_tx_gain {taps : Int} {gain : Rat} {s t : State} {v : Byte × Option (BitVec 2)}
    (h : buildConfig .tx taps gain s = .ok v t) : v.2 = none := by
  unfold buildConfig checkTaps at h
  rw [Cmd.bind_apply] at h
  repeat' split at h
  all_goals first
    | (cases h; rfl)
    | cases h

theorem PathFrame.firWrite (h : PathFrame P p) (c : List Int) (taps : Int) (gain : Rat) :
    Keeps P (firWrite p c taps gain) := by
  have f := h.toFraming
  intro s
  have h1 := Keeps.validateWrite f p c taps gain s
  unfold Machine.firWrite
  rw [Cmd.bind_apply]
  cases hv : validateWrite p c taps gain s with
  | error e s1 => rw [hv] at h1; exact h1
  | ok v s1 =>
    rw [hv] at h1
    refine f.trans _ _ _ h1 (Keeps.bind f (h.upload c v.1 ?_) (fun _ => .pure f _) s1)
    rintro rfl
    unfold validateWrite at hv
    rw [Cmd.bind_apply] at hv
    cases hb : buildConfig .tx taps gain s with
    | error e s2 => rw [hb] at hv; cases hv
    | ok w s2 =>
      rw [hb] at hv
      change (if c.length > 128 then raise _ _ else _ : Cmd _) s2 = _ at hv
      split at hv
      · cases hv
      · rw [Cmd.bind_apply] at hv
        cases hc : checkTapValues c s2 with
        | error e s3 => rw [hc] at hv; cases hv
        | ok u s3 => rw [hc] at hv; cases hv; exact buildConfig_tx_gain hb

theorem PathFrame.onPath (h : PathFrame P p) {c : Cmd α} (hc : Keeps P c) : Keeps P (onPaths [p] c) := by
  intro s
  have h1 := hc s
  unfold Machine.onPaths
  cases hr : c s with
  | ok a s1 => rw [hr] at h1; exact h.trans _ _ _ h1 (h.blur s1)
  | error e s1 =>
    rw [hr] at h1
    change P s (if e.kind = .transport then (s1.markIndet [p]).blur else s1)
    split
    · exact h.trans _ _ _ h1 (h.trans _ _ _ (h.indet s1 true) (h.blur _))
    · exact h1

theorem FirFrame.attrSetS (h : FirFrame P) (a : FirAttr) (v : String) : Keeps P (attrSetS a v) :=
  .write h.toFraming (fun s => h.issue s _) fun s => h.attr s _ _

theorem FirFrame.setSeq (h : FirFrame P) (x : Seq) : Keeps P (setSeq x) := .update fun s => h.seq s x

theorem FirFrame.clearIndet (h : FirFrame P) (p : Path) : Keeps P (clearIndet p) := .update fun s => h.indet s _

theorem FirFrame.firRead (h : FirFrame P) (p : Path) : Keeps P (firRead p) := (h.path p).firRead

theorem FirFrame.firWrite (h : FirFrame P) (p : Path) (c : List Int) (taps : Int) (gain : Rat) :
    Keeps P (firWrite p c taps gain) := (h.path p).firWrite c taps gain

theorem FirFrame.loadBlob (h : FirFrame P) (b : String) : Keeps P (loadBlob b) :=
  have f := h.toFraming
  .bind f (h.setSeq _) fun _ => .bind f (h.attrSetS _ _) fun _ => .bind f (h.attrSetS _ _) fun _ =>
    .bind f (h.setSeq _) fun _ => .bind f (h.attrSetS _ _) fun _ => .bind f (h.clearIndet _) fun _ =>
      .bind f (h.clearIndet _) fun _ => h.setSeq _

theorem Keeps.findFile (h : Framing P) (name : String) : Keeps P (findFile name) :=
  .bind h (fun s => h.refl s) fun u => by
    cases u.setup.files.lookup name with
    | none => exact .raise h _ _
    | some b => exact .pure h _

theorem FirFrame.onPaths (h : FirFrame P) {c : Cmd α} (hc : Keeps P c) (ps : List Path) : Keeps P (onPaths ps c) := by
  intro s
  have h1 := hc s
  unfold Machine.onPaths
  cases hr : c s with
  | ok a s1 => rw [hr] at h1; exact h.trans _ _ _ h1 (h.blur s1)
  | error e s1 =>
    rw [hr] at h1
    change P s (if e.kind = .transport then (s1.markIndet ps).blur else s1)
    split
    · exact h.trans _ _ _ h1 (h.trans _ _ _ (h.indet s1 _) (h.blur _))
    · exact h1

/-- A command keeps every frame its program keeps and that the start and the response keep. -/
theorem Keeps.run (h : Framing P) (hb : ∀ s, P s s.begin) (hr : ∀ s r, P s (s.respond r)) {c : Cmd Value} (hc : Keeps P c)
    (s : State) : P s (s.complete c) := by
  have h1 := hc s.begin
  unfold State.complete
  cases hcs : c s.begin with
  | ok v s1 => rw [hcs] at h1; exact h.trans _ _ _ (hb s) (h.trans _ _ _ h1 (hr _ _))
  | error e s1 => rw [hcs] at h1; exact h.trans _ _ _ (hb s) (h.trans _ _ _ h1 (hr _ _))

end Sys2Proof.Machine
end

