-- ==== Sys2Proof/Laws/PerInstr.lean ====
section
/-! SUPPORT. Statements about every command as syntax, one lemma per constructor: a header byte with any other number of
operands than the command's is an illegal command (30_encoding R78). -/

namespace Sys2Proof.Laws

theorem take0_arity {i : Instr} {l : List Operand} (h : l.length ≠ 0) : take0 i l = .error .wrongArity := by
  cases l with
  | nil => exact absurd rfl h
  | cons x l => rfl

theorem take1_arity {α : Type} {a : Operand → Option α} {f : α → Instr} {l : List Operand} (h : l.length ≠ 1) :
    take1 a f l = .error .wrongArity := by
  match l, h with
  | [], _ => rfl
  | [_], h => exact absurd rfl h
  | _ :: _ :: _, _ => rfl

theorem take2_arity {α β : Type} {a : Operand → Option α} {b : Operand → Option β} {f : α → β → Instr}
    {l : List Operand} (h : l.length ≠ 2) : take2 a b f l = .error .wrongArity := by
  match l, h with
  | [], _ => rfl
  | [_], _ => rfl
  | [_, _], h => exact absurd rfl h
  | _ :: _ :: _ :: _, _ => rfl

theorem take3_arity {α β γ : Type} {a : Operand → Option α} {b : Operand → Option β} {c : Operand → Option γ}
    {f : α → β → γ → Instr} {l : List Operand} (h : l.length ≠ 3) : take3 a b c f l = .error .wrongArity := by
  match l, h with
  | [], _ => rfl
  | [_], _ => rfl
  | [_, _], _ => rfl
  | [_, _, _], h => exact absurd rfl h
  | _ :: _ :: _ :: _ :: _, _ => rfl

namespace Arity

/-- The command's opcode with another number of operands than the command has is an illegal command (R78). -/
def Statement (i : Instr) : Prop :=
  ∀ l : List Operand, l.length ≠ i.operands.length → decode ⟨i.opcode, l⟩ = .error .wrongArity

theorem toneGetFs (t : Int) : Statement (.toneGetFs t) := fun _ h => take1_arity h

theorem toneSetFreq (t : Int) (f : Rat) : Statement (.toneSetFreq t f) := fun _ h => take2_arity h

theorem toneGetFreq (t : Int) : Statement (.toneGetFreq t) := fun _ h => take1_arity h

theorem toneSetPhase (t : Int) (phi : Rat) : Statement (.toneSetPhase t phi) := fun _ h => take2_arity h

theorem toneGetPhase (t : Int) (ch : Symbol) : Statement (.toneGetPhase t ch) := fun _ h => take2_arity h

theorem toneSetAmp (t : Int) (a : Rat) : Statement (.toneSetAmp t a) := fun _ h => take2_arity h

theorem toneGetAmp (t : Int) : Statement (.toneGetAmp t) := fun _ h => take1_arity h

theorem toneState (t : Int) (sw : Symbol) : Statement (.toneState t sw) := fun _ h => take2_arity h

theorem toneStatus (t : Int) : Statement (.toneStatus t) := fun _ h => take1_arity h

theorem ddsSetAmp (d1 d2 : Option Rat) : Statement (.ddsSetAmp d1 d2) := fun _ h => take2_arity h

theorem ddsSetFreq (f1 : Rat) (f2 : Option Rat) : Statement (.ddsSetFreq f1 f2) := fun _ h => take2_arity h

theorem ddsSetPhase (p1 : Rat) (p2 : Option Rat) : Statement (.ddsSetPhase p1 p2) := fun _ h => take2_arity h

theorem ddsIsOff : Statement .ddsIsOff := fun _ h => take0_arity h

theorem ddsStatus (k : Int) : Statement (.ddsStatus k) := fun _ h => take1_arity h

theorem ddsState (sw : Symbol) : Statement (.ddsState sw) := fun _ h => take1_arity h

theorem firEncode (v : Int) : Statement (.firEncode v) := fun _ h => take1_arity h

theorem firDecode (hi lo : Int) : Statement (.firDecode hi lo) := fun _ h => take2_arity h

theorem firSetBit (i w : Int) (sw : Symbol) : Statement (.firSetBit i w sw) := fun _ h => take3_arity h

theorem firBuildCfg (path : Symbol) (taps : Int) (gain : Rat) : Statement (.firBuildCfg path taps gain) := fun _ h => take3_arity h

theorem firWriteTx (c : List Int) (taps : Int) (gain : Rat) : Statement (.firWriteTx c taps gain) := fun _ h => take3_arity h

theorem firWriteRx (c : List Int) (taps : Int) (gain : Rat) : Statement (.firWriteRx c taps gain) := fun _ h => take3_arity h

theorem firReadTx : Statement .firReadTx := fun _ h => take0_arity h

theorem firReadRx : Statement .firReadRx := fun _ h => take0_arity h

theorem firLoadFile (name : String) : Statement (.firLoadFile name) := fun _ h => take1_arity h

end Arity

end Sys2Proof.Laws
end

