-- ==== Sys2Proof/Laws/Replay.lean ====
section
/-! SUPPORT. A program whose transactions meet free draws runs as it does where those outcomes are scripted: `Replays`
says so for one program, and is closed under sequencing. -/

namespace Sys2Proof.Machine

variable {α β : Type}

theorem freeScript_append (n : Nat) (xs ys : List Transaction) :
    freeScript n (xs ++ ys) = freeScript n xs ++ freeScript (n + xs.length) ys := by
  simp only [freeScript, List.mapIdx_append]
  congr 2
  funext j x
  rw [Nat.add_assoc, Nat.add_comm j]

/-- From every state whose transport is not scripted: the transactions issued, and that their free draws, scripted,
lead to the same ending with the rest of the script left. -/
def Replays (c : Cmd α) : Prop :=
  ∀ s, s.transport = [] → ∃ xs, (endState (c s)).trace = s.trace ++ xs ∧ (endState (c s)).transport = []
    ∧ (∀ a t, c s = .ok a t → t.draws = s.draws + xs.length)
    ∧ ∀ m, c (s.withTransport (freeScript s.draws xs ++ m)) = rewire (c s) m

theorem Replays.pure (a : α) : Replays (pure a : Cmd α) := fun s hs =>
  ⟨[], by simp [endState], hs, fun _ _ h => by cases h; rfl, fun _ => rfl⟩

theorem Replays.raise (k : ErrKind) (x : Info) : Replays (raise k x : Cmd α) := fun s hs =>
  ⟨[], by simp [endState], hs, fun _ _ h => (nomatch h), fun _ => rfl⟩

/-- A change of the registers, the transport and its bookkeeping apart. -/
theorem Replays.update {f : State → State} (h : ∀ s T, f (s.withTransport T) = (f s).withTransport T)
    (ht : ∀ s, (f s).trace = s.trace) (hp : ∀ s, (f s).transport = s.transport) (hd : ∀ s, (f s).draws = s.draws) :
    Replays (update f) := fun s hs =>
  ⟨[], by simp [endState, ht], (hp s).trans hs, fun _ _ e => by cases e; exact hd s,
    fun m => congrArg (EStateM.Result.ok ()) (h s m)⟩

/-- A read of a register of the block. -/
theorem Replays.getState {f : State → α} (h : ∀ s T, f (s.withTransport T) = f s) : Replays (do return f (← get)) :=
  fun s hs => ⟨[], by simp [endState], hs, fun _ _ e => by cases e; rfl,
    fun m => congrArg (EStateM.Result.ok · (s.withTransport m)) (h s m)⟩

theorem outcome_freeScript {s : State} (hs : s.transport = []) (x : Transaction) (m : List Draw) :
    (s.withTransport (freeScript s.draws [x] ++ m)).outcome x = s.outcome x := by
  simp [freeScript, State.outcome, hs]

theorem Replays.read {x : Transaction} {value : State → α} (h : ∀ s T, value (s.withTransport T) = value s) :
    Replays (readTransaction x value) := by
  intro s hs
  have ho := outcome_freeScript hs x
  refine ⟨[x], ?_, ?_, ?_, fun m => ?_⟩
  · rcases readTransaction_cases s x value with ⟨_, e⟩ | ⟨_, _, e⟩ <;> rw [e] <;> rfl
  · rcases readTransaction_cases s x value with ⟨_, e⟩ | ⟨_, _, e⟩ <;> rw [e] <;> simp [endState, State.issue, hs]
  · rcases readTransaction_cases s x value with ⟨_, e⟩ | ⟨_, _, e⟩ <;> rw [e] <;> intro _ _ e' <;> cases e'
    rfl
  · unfold readTransaction
    rw [ho m, h]
    cases s.outcome x <;> rfl

theorem Replays.write {x : Transaction} {effect : State → State}
    (h : ∀ s T, effect (s.withTransport T) = (effect s).withTransport T) (ht : ∀ s, (effect s).trace = s.trace)
    (hp : ∀ s, (effect s).transport = s.transport) (hd : ∀ s, (effect s).draws = s.draws) :
    Replays (writeTransaction x effect) := by
  intro s hs
  have ho := outcome_freeScript hs x
  have hi : ∀ m, (s.withTransport (freeScript s.draws [x] ++ m)).issue x = (s.issue x).withTransport m := fun _ => rfl
  refine ⟨[x], ?_, ?_, ?_, fun m => ?_⟩
  · rcases writeTransaction_cases s x effect with ⟨_, e⟩ | ⟨_, e⟩ | ⟨_, e⟩ <;> rw [e] <;> simp [endState, ht, State.issue]
  · rcases writeTransaction_cases s x effect with ⟨_, e⟩ | ⟨_, e⟩ | ⟨_, e⟩ <;> rw [e] <;>
      simp [endState, hp, State.issue, hs]
  · rcases writeTransaction_cases s x effect with ⟨_, e⟩ | ⟨_, e⟩ | ⟨_, e⟩ <;> rw [e] <;> intro _ _ e' <;> cases e'
    exact hd _
  · unfold writeTransaction
    rw [ho m, hi m, h]
    cases s.outcome x with
    | done => rfl
    | failed b => cases b <;> rfl

theorem Replays.bind {c : Cmd α} {f : α → Cmd β} (hc : Replays c) (hf : ∀ a, Replays (f a)) : Replays (c >>= f) := by
  intro s hs
  obtain ⟨xs, h1, h2, h3, h4⟩ := hc s hs
  cases hr : c s with
  | error e t =>
    rw [hr] at h1 h2 h4
    refine ⟨xs, by rw [Cmd.bind_apply, hr]; exact h1, by rw [Cmd.bind_apply, hr]; exact h2, ?_, fun m => ?_⟩
    · intro _ _ e'; rw [Cmd.bind_apply, hr] at e'; cases e'
    · rw [Cmd.bind_apply, Cmd.bind_apply, hr, h4 m]; rfl
  | ok a t =>
    rw [hr] at h1 h2 h4
    have hd := h3 a t hr
    obtain ⟨ys, g1, g2, g3, g4⟩ := hf a t h2
    have hb : (c >>= f) s = f a t := by rw [Cmd.bind_apply, hr]
    refine ⟨xs ++ ys, ?_, by rw [hb]; exact g2, ?_, fun m => ?_⟩
    · rw [hb, g1, show t.trace = s.trace ++ xs from h1, List.append_assoc]
    · intro b u e; rw [hb] at e
      rw [g3 b u e, hd, List.length_append, Nat.add_assoc]
    · rw [hb, Cmd.bind_apply, freeScript_append, List.append_assoc, h4, ← g4 m, hd]
      rfl

theorem Replays.ite {p : Prop} [Decidable p] {c d : Cmd α} (hc : Replays c) (hd : Replays d) :
    Replays (if p then c else d) := by
  by_cases h : p <;> simpa [h]

theorem attrGet_replays (ch : ChanId) (a : Attr) : Replays (attrGet ch a) := .read fun _ _ => rfl

theorem attrSet_replays (ch : ChanId) (a : Attr) (v : Rat) : Replays (attrSet ch a v) :=
  .write (fun _ _ => rfl) (fun _ => rfl) (fun _ => rfl) fun _ => rfl

theorem attrSetS_replays (a : FirAttr) (v : String) : Replays (attrSetS a v) := by
  cases a <;> exact .write (fun _ _ => rfl) (fun _ => rfl) (fun _ => rfl) fun _ => rfl

theorem regRead_replays (r : ReadReg) : Replays (regRead r) := .read fun _ _ => rfl

theorem regWrite_replays (r : WriteReg) (v : Byte) : Replays (regWrite r v) :=
  .write (fun _ _ => rfl) (fun _ => rfl) (fun _ => rfl) fun _ => rfl

/-- The same of a whole command, whose ending may draw free values of its own. -/
def Reruns (c : Cmd α) : Prop :=
  ∀ s, s.transport = [] → ∃ xs, (endState (c s)).trace = s.trace ++ xs
    ∧ ∀ m, c (s.withTransport (freeScript s.draws xs ++ m)) = rewire (c s) m

theorem Replays.reruns {c : Cmd α} (h : Replays c) : Reruns c := fun s hs =>
  let ⟨xs, h1, _, _, h4⟩ := h s hs
  ⟨xs, h1, h4⟩

theorem State.blur_withTransport (s : State) (T : List Draw) : (s.withTransport T).blur = s.blur.withTransport T := by
  unfold State.blur
  by_cases h : (s.indet.tx || s.indet.rx) = true
  · rw [if_pos h, if_pos (show ((s.withTransport T).indet.tx || (s.withTransport T).indet.rx) = true from h)]
    rfl
  · rw [if_neg h, if_neg (show ¬ ((s.withTransport T).indet.tx || (s.withTransport T).indet.rx) = true from h)]

/-- What a FIR command leaves unknown depends on no script. -/
theorem Replays.onPaths {c : Cmd α} (hc : Replays c) (ps : List Path) : Reruns (onPaths ps c) := by
  intro s hs
  obtain ⟨xs, h1, -, -, h4⟩ := hc s hs
  refine ⟨xs, ?_, fun m => ?_⟩
  · unfold Machine.onPaths
    cases hr : c s with
    | ok a t => rw [hr] at h1; simpa [endState] using h1
    | error e t =>
      rw [hr] at h1
      by_cases hk : e.kind = .transport <;> simpa [endState, hk] using h1
  · unfold Machine.onPaths
    rw [h4 m]
    cases c s with
    | ok a t => simp only [rewire, State.blur_withTransport]
    | error e t =>
      have hm : (t.withTransport m).markIndet ps = (t.markIndet ps).withTransport m := rfl
      by_cases hk : e.kind = .transport <;> simp [rewire, hk, hm, State.blur_withTransport]

/-- A command, run to completion. -/
theorem Reruns.complete {c : Cmd Value} (hc : Reruns c) {s : State} (hs : s.transport = []) (m : List Draw) :
    (s.withTransport (freeScript s.draws (s.complete c).trace ++ m)).complete c = (s.complete c).withTransport m := by
  obtain ⟨xs, h1, h4⟩ := hc s.begin hs
  have ht : (s.complete c).trace = xs := by
    unfold State.complete
    cases hr : c s.begin with
    | ok v t => rw [hr] at h1; exact h1
    | error e t => rw [hr] at h1; exact h1
  rw [ht]
  have h4 : c ((s.withTransport (freeScript s.draws xs ++ m)).begin) = rewire (c s.begin) m := h4 m
  unfold State.complete
  rw [h4]
  cases c s.begin <;> rfl

end Sys2Proof.Machine
end

