-- ==== Sys2Proof/Machine/Text.lean ====
section
/-! DEFINITION. The text forms of the spec: the assembly syntax of 30_encoding R79 with the pseudo-instructions of
R80, and the text rendering of the frequency bound (60_exceptions R213). The block itself sees commands, never text. -/

namespace Sys2Proof.Machine

/-! ## The frequency bound (60_exceptions R213) -/

/-- The digits after the decimal point, `k` of them, of `m / 10^k`. -/
def fractionDigits (m k : Nat) : String :=
  let d := (Nat.repr (m % 10 ^ k)).toList
  String.ofList (List.replicate (k - d.length) '0' ++ d)

/-- A rational as a decimal, or as a fraction n/d where no decimal of up to 64 digits is exact (R79's spellings). -/
def decimalText (q : Rat) : String :=
  let sign := if q < 0 then "-" else ""
  let m := q.num.natAbs
  match (List.range 65).find? fun k => 10 ^ k % q.den = 0 with
  | some 0 => sign ++ Nat.repr m
  | some k => let v := m * (10 ^ k / q.den); sign ++ Nat.repr (v / 10 ^ k) ++ "." ++ fractionDigits v k
  | none => sign ++ Nat.repr m ++ "/" ++ Nat.repr q.den

/-- The text rendering of a frequency RangeError with the bound `Fs/2` (R213). -/
def frequencyBoundText (bound : Rat) : String := "frequency not within ±Fs/2 i.e. " ++ decimalText bound ++ " MHz"

/-! ## Assembly (30_encoding R79) -/

/-- The text before a comment, which starts with `;` outside a quoted name. -/
def stripComment : Bool → List Char → List Char
  | _, [] => []
  | quoted, c :: cs =>
    if c = ';' ∧ ¬quoted then [] else c :: stripComment (if c = '"' then !quoted else quoted) cs

/-- Without the white space at both ends. -/
def trimSpace (cs : List Char) : List Char :=
  ((cs.dropWhile Char.isWhitespace).reverse.dropWhile Char.isWhitespace).reverse

/-- The parts of a list of operands: split at the commas outside brackets and quotes. -/
def splitOperands (depth : Nat) (quoted : Bool) (part : List Char) : List Char → List (List Char)
  | [] => [part.reverse]
  | c :: cs =>
    if quoted then splitOperands depth (c != '"') (c :: part) cs
    else if c = ',' ∧ depth = 0 then part.reverse :: splitOperands 0 false [] cs
    else
      let depth := if c = '[' then depth + 1 else if c = ']' then depth - 1 else depth
      splitOperands depth (c = '"') (c :: part) cs

/-- The trimmed parts of a list, none for a blank text. -/
def listParts (cs : List Char) : List (List Char) :=
  let cs := trimSpace cs
  if cs.isEmpty then [] else (splitOperands 0 false [] cs).map trimSpace

/-- The value of a digit in a base up to 16. -/
def digitOf (base : Nat) (c : Char) : Option Nat :=
  let v :=
    if '0' ≤ c ∧ c ≤ '9' then c.toNat - 48
    else if 'a' ≤ c ∧ c ≤ 'f' then c.toNat - 87
    else if 'A' ≤ c ∧ c ≤ 'F' then c.toNat - 55
    else base
  if v < base then some v else none

/-- A non-empty run of digits. -/
def digitsOf (base : Nat) : List Char → Option Nat
  | [] => none
  | c :: cs => (c :: cs).foldl (fun acc c => do return (← acc) * base + (← digitOf base c)) (some 0)

/-- An unsigned number: hexadecimal `0x..` (00_scope R8), a fraction `1/3`, a decimal `1.5` or an integer (R79). -/
def unsignedOf (cs : List Char) : Option Rat :=
  match cs with
  | '0' :: 'x' :: hex => (digitsOf 16 hex).map fun (n : Nat) => (n : Rat)
  | _ =>
    match cs.span (· != '/') with
    | (num, _ :: den) => do
      let n ← digitsOf 10 num
      let d ← digitsOf 10 den
      if d = 0 then none else some ((n : Rat) / (d : Rat))
    | (num, []) =>
      match num.span (· != '.') with
      | (whole, _ :: frac) => do
        let w ← digitsOf 10 whole
        let f ← digitsOf 10 frac
        return (w : Rat) + (f : Rat) / (10 ^ frac.length : Nat)
      | (whole, []) => (digitsOf 10 whole).map fun (n : Nat) => (n : Rat)

/-- A number with an optional sign. -/
def numberOf : List Char → Option Rat
  | '-' :: cs => (unsignedOf cs).map fun q => -q
  | '+' :: cs => unsignedOf cs
  | cs => unsignedOf cs

/-- A bare symbol (R79). -/
def symbolOf (cs : List Char) : Symbol :=
  match String.ofList cs with
  | "I" => .I
  | "Q" => .Q
  | "on" => .on
  | "off" => .off
  | "TX" => .TX
  | "RX" => .RX
  | other => .other other

/-- The characters of a symbol: letters, digits and `_`, a letter first (log entry 24). -/
def isSymbol : List Char → Bool
  | [] => false
  | c :: cs => c.isAlpha && cs.all fun c => c.isAlphanum || c = '_'

/-- One operand value in the spelling of its type (R79). -/
def operandOf (cs : List Char) : Option Operand :=
  match cs with
  | ['_'] => some .absent
  | '"' :: rest =>
    match rest.reverse with
    | '"' :: name => if name.contains '"' then none else some (.name (String.ofList name.reverse))
    | _ => none
  | '[' :: rest =>
    match rest.reverse with
    | ']' :: inner => (listParts inner.reverse).mapM numberOf |>.map .vec
    | _ => none
  | cs =>
    match numberOf cs with
    | some q => some (.num q)
    | none => if isSymbol cs then some (.sym (symbolOf cs)) else none

/-- The opcode and the operand names of each mnemonic (R77). -/
def mnemonicTable : List (String × Byte × List String) :=
  [ ("TONE.GETFS", 0x01, ["t"]), ("TONE.SETFREQ", 0x02, ["t", "f"]), ("TONE.GETFREQ", 0x03, ["t"]),
    ("TONE.SETPHASE", 0x04, ["t", "phi"]), ("TONE.GETPHASE", 0x05, ["t", "ch"]), ("TONE.SETAMP", 0x06, ["t", "a"]),
    ("TONE.GETAMP", 0x07, ["t"]), ("TONE.STATE", 0x08, ["t", "sw"]), ("TONE.STATUS", 0x09, ["t"]),
    ("DDS.SETAMP", 0x10, ["d1", "d2"]), ("DDS.SETFREQ", 0x11, ["f1", "f2"]), ("DDS.SETPHASE", 0x12, ["p1", "p2"]),
    ("DDS.ISOFF", 0x13, []), ("DDS.STATUS", 0x14, ["k"]), ("DDS.STATE", 0x15, ["sw"]) ]
  ++
  [ ("FIR.ENCODE", 0x20, ["v"]), ("FIR.DECODE", 0x21, ["hi", "lo"]), ("FIR.SETBIT", 0x22, ["i", "w", "on"]),
    ("FIR.BUILDCFG", 0x23, ["path", "taps", "gain"]), ("FIR.WRITETX", 0x30, ["c", "taps", "gain"]),
    ("FIR.WRITERX", 0x31, ["c", "taps", "gain"]), ("FIR.READTX", 0x32, []), ("FIR.READRX", 0x33, []),
    ("FIR.LOADFILE", 0x34, ["name"]) ]

/-- One operand, by position or as `name=value` with the name R77 gives that position (R79). -/
def namedOperand (field : Option String) (cs : List Char) : Option Operand :=
  match operandOf cs with
  | some x => some x
  | none =>
    match cs.span (· != '=') with
    | (name, _ :: value) => if some (String.ofList (trimSpace name)) = field then operandOf (trimSpace value) else none
    | _ => none

/-- The operands, each against the name of its position. -/
def namedOperands : List String → List (List Char) → Option (List Operand)
  | _, [] => some []
  | [], x :: xs => do return (← namedOperand none x) :: (← namedOperands [] xs)
  | f :: fs, x :: xs => do return (← namedOperand (some f) x) :: (← namedOperands fs xs)

/-- The operand names of the pseudo-instructions whose mnemonic is no command's: those of the command each expands to
(R79, R80). -/
def pseudoNames : List (String × List String) :=
  [("TONE.ON", ["t"]), ("TONE.OFF", ["t"]), ("DDS.MUTE", []), ("DDS.ON", []), ("DDS.OFF", [])]

/-- The operand names a mnemonic's line may use, in the order of R77. -/
def operandNames (mnemonic : String) : List String :=
  match mnemonicTable.lookup mnemonic with
  | some row => row.2
  | none => (pseudoNames.lookup mnemonic).getD []

/-- `FIR.WRITE` and `FIR.READ` with the path they name first stand for the command of that path (R80). -/
def pathForm (mnemonic : String) (parts : List (List Char)) : String × List (List Char) :=
  match mnemonic, parts.map String.ofList with
  | "FIR.WRITE", "TX" :: _ => ("FIR.WRITETX", parts.tail)
  | "FIR.WRITE", "RX" :: _ => ("FIR.WRITERX", parts.tail)
  | "FIR.READ", "TX" :: _ => ("FIR.READTX", parts.tail)
  | "FIR.READ", "RX" :: _ => ("FIR.READRX", parts.tail)
  | _, _ => (mnemonic, parts)

/-- The command a pseudo-instruction with these operands expands to (R80), the operands taken as they stand: one of the
wrong type makes an illegal command, as it would in the expansion. -/
def expandLine (mnemonic : String) (ops : List Operand) : Option RawCommand :=
  match mnemonic, ops with
  | "TONE.ON", [t] => some ⟨0x08, [t, .sym .on]⟩
  | "TONE.OFF", [t] => some ⟨0x08, [t, .sym .off]⟩
  | "TONE.GETPHASE", [t] => some ⟨0x05, [t, .sym .I]⟩
  | "DDS.SETFREQ", [f] => some ⟨0x11, [f, .absent]⟩
  | "DDS.SETPHASE", [p] => some ⟨0x12, [p, .absent]⟩
  | "DDS.SETAMP", [d] => some ⟨0x10, [d, .absent]⟩
  | "DDS.MUTE", [] => some ⟨0x10, [.absent, .absent]⟩
  | "DDS.ON", [] => some ⟨0x15, [.sym .on]⟩
  | "DDS.OFF", [] => some ⟨0x15, [.sym .off]⟩
  | "FIR.WRITETX", [c] => some ⟨0x30, [c, .num 128, .num 0]⟩
  | "FIR.WRITERX", [c] => some ⟨0x31, [c, .num 128, .num 0]⟩
  | _, _ => none

/-- The command one line of a program spells (R79): `MNEMONIC op1, op2, ...`. None for a line that spells none. -/
def assemble (line : String) : Option RawCommand :=
  let cs := trimSpace (stripComment false line.toList)
  let (word, rest) := cs.span fun c => !c.isWhitespace
  let (mnemonic, parts) := pathForm (String.ofList word) (listParts rest)
  match namedOperands (operandNames mnemonic) parts with
  | none => none
  | some ops =>
    match expandLine mnemonic ops with
    | some c => some c
    | none => (mnemonicTable.lookup mnemonic).map fun row => ⟨row.1, ops⟩

end Sys2Proof.Machine
end

