-- ==== Sys2Proof/Tests/Slice0.lean ====
section
/-! SUPPORT. The model's own tests. Expected values are those of 95_test_vectors and of the rules named; the last part
shows for each statement with hypotheses that they can be met together. -/

set_option Elab.async false

namespace Sys2Proof.Tests

open Sys2Proof.Machine

/-! ## WellFormed refuses what is ill formed (30_encoding R71) -/

theorem test_wellFormed_accepts : (Instr.toneGetPhase 2 .Q).wellFormed = true := by decide
theorem test_wellFormed_refuses_tone : (Instr.toneGetFs 3).wellFormed = false := by decide
theorem test_wellFormed_refuses_tone_zero : (Instr.ddsStatus 0).wellFormed = false := by decide
theorem test_wellFormed_refuses_channel : (Instr.toneGetPhase 1 .on).wellFormed = false := by decide
theorem test_wellFormed_refuses_switch : (Instr.toneState 1 (.other "dim")).wellFormed = false := by decide
theorem test_wellFormed_refuses_path : (Instr.firBuildCfg .I 64 0).wellFormed = false := by decide

/-! ## Decoding of commands written out from 30_encoding R77 -/

theorem test_decode_toneGetFs : decode ⟨0x01, [.num 2]⟩ = .ok (.toneGetFs 2) := rfl
theorem test_decode_toneSetFreq : decode ⟨0x02, [.num 1, .num (-3)]⟩ = .ok (.toneSetFreq 1 (-3)) := rfl
theorem test_decode_toneGetFreq : decode ⟨0x03, [.num 1]⟩ = .ok (.toneGetFreq 1) := rfl
theorem test_decode_toneSetPhase : decode ⟨0x04, [.num 1, .num (-90)]⟩ = .ok (.toneSetPhase 1 (-90)) := rfl
theorem test_decode_toneGetPhase : decode ⟨0x05, [.num 1, .sym .Q]⟩ = .ok (.toneGetPhase 1 .Q) := rfl
theorem test_decode_toneSetAmp : decode ⟨0x06, [.num 1, .num 0]⟩ = .ok (.toneSetAmp 1 0) := rfl
theorem test_decode_toneGetAmp : decode ⟨0x07, [.num 2]⟩ = .ok (.toneGetAmp 2) := rfl
theorem test_decode_toneState : decode ⟨0x08, [.num 1, .sym .off]⟩ = .ok (.toneState 1 .off) := rfl
theorem test_decode_toneStatus : decode ⟨0x09, [.num 1]⟩ = .ok (.toneStatus 1) := rfl
theorem test_decode_ddsSetAmp : decode ⟨0x10, [.num (-10), .absent]⟩ = .ok (.ddsSetAmp (some (-10)) none) := rfl
theorem test_decode_ddsSetFreq : decode ⟨0x11, [.num 1, .num (-2)]⟩ = .ok (.ddsSetFreq 1 (some (-2))) := rfl
theorem test_decode_ddsSetPhase : decode ⟨0x12, [.num 30, .num 45]⟩ = .ok (.ddsSetPhase 30 (some 45)) := rfl
theorem test_decode_ddsIsOff : decode ⟨0x13, []⟩ = .ok .ddsIsOff := rfl
theorem test_decode_ddsStatus : decode ⟨0x14, [.num 1]⟩ = .ok (.ddsStatus 1) := rfl
theorem test_decode_ddsState : decode ⟨0x15, [.sym .on]⟩ = .ok (.ddsState .on) := rfl
theorem test_decode_firEncode : decode ⟨0x20, [.num (-12345)]⟩ = .ok (.firEncode (-12345)) := rfl
theorem test_decode_firDecode : decode ⟨0x21, [.num 0xCF, .num 0xC7]⟩ = .ok (.firDecode 0xCF 0xC7) := rfl
theorem test_decode_firSetBit : decode ⟨0x22, [.num 1, .num 0x79, .sym .on]⟩ = .ok (.firSetBit 1 0x79 .on) := rfl
theorem test_decode_firBuildCfg :
    decode ⟨0x23, [.sym .TX, .num 64, .num (-6)]⟩ = .ok (.firBuildCfg .TX 64 (-6)) := rfl
theorem test_decode_firWriteTx :
    decode ⟨0x30, [.vec [1, 2, 3], .num 128, .num 0]⟩ = .ok (.firWriteTx [1, 2, 3] 128 0) := rfl
theorem test_decode_firWriteRx :
    decode ⟨0x31, [.vec [0, -2, 0, 300, 0], .num 16, .num (-12)]⟩ = .ok (.firWriteRx [0, -2, 0, 300, 0] 16 (-12)) := rfl
theorem test_decode_firReadTx : decode ⟨0x32, []⟩ = .ok .firReadTx := rfl
theorem test_decode_firReadRx : decode ⟨0x33, []⟩ = .ok .firReadRx := rfl
theorem test_decode_firLoadFile : decode ⟨0x34, [.name "a.ftr"]⟩ = .ok (.firLoadFile "a.ftr") := rfl

/-- E1. -/
theorem test_decode_reserved : decode ⟨0x0A, []⟩ = .error .reservedOpcode := rfl
/-- E2. -/
theorem test_decode_arity : decode ⟨0x02, [.num 1]⟩ = .error .wrongArity := rfl
/-- E3: DDS.SETFREQ with None for f1. -/
theorem test_decode_type : decode ⟨0x11, [.absent, .num 1]⟩ = .error .wrongType := rfl

/-- The table word of TONE.STATE is its header byte; the operand record is the zero record (log entry 2). -/
theorem test_decodeTableWord : decodeTableWord 8 0x08 = some (.toneState 0 .on) := rfl

/-! ## Assembly text (30_encoding R79, R80; 60_exceptions R213) -/

theorem test_assemble_pseudo : assemble "TONE.OFF 1" = some ⟨0x08, [.num 1, .sym .off]⟩ := by decide +kernel
theorem test_assemble_named :
    assemble "FIR.WRITERX [0,-2,0,300,0], taps=16, gain=-12"
      = some ⟨0x31, [.vec [0, -2, 0, 300, 0], .num 16, .num (-12)]⟩ := by decide +kernel
/-- R80 on operands: an absent level, operands by name. -/
theorem test_assemble_pseudo_absent : assemble "DDS.SETAMP _" = some ⟨0x10, [.absent, .absent]⟩ := by decide +kernel
theorem test_assemble_pseudo_named : assemble "TONE.ON t=1" = some ⟨0x08, [.num 1, .sym .on]⟩
    ∧ assemble "FIR.WRITE TX, c=[1,2]" = assemble "FIR.WRITETX c=[1,2]"
    ∧ assemble "FIR.WRITETX c=[1,2]" ≠ none := by decide +kernel
/-- S11. -/
theorem test_frequencyBoundText :
    frequencyBoundText (384 / 25) = "frequency not within ±Fs/2 i.e. 15.36 MHz" := by decide +kernel

/-! ## One step per instruction -/

/-- Tone 1 of the start state of D-F1: Fs 30.72, F 1, phases 10 and 280, scale 1/2. -/
def benchTone : PerChan Channel := ⟨⟨1, 10, 1 / 2, 768 / 25⟩, ⟨1, 280, 1 / 2, 768 / 25⟩⟩

/-- A constructed block under ideal coercion with the reference FIR device and a transport that does not fail. -/
def bench : State :=
  { (default : State) with
    tones := ⟨⟨.plus, false, 0⟩, ⟨.plus, false, 0⟩⟩
    boot := .ready
    dds := ⟨benchTone, benchTone⟩
    setup := ⟨.ideal, .reference, [("a.ftr", "blob")], []⟩
    transport := List.replicate 1000 .done }

/-- The next state has the property. -/
def nextHas (o : Host.Outcome State Fault Refusal) (p : State → Bool) : Bool :=
  match o with
  | .next s => p s
  | _ => false

theorem nextHas_spec {o : Host.Outcome State Fault Refusal} {p : State → Bool} (h : nextHas o p = true) :
    ∃ s, o = .next s ∧ p s = true := by
  cases o with
  | next s => exact ⟨s, rfl, h⟩
  | fault _ => cases h
  | refused _ => cases h

/-- The response the instruction leaves from a state. -/
def answers (i : Instr) (s : State) (r : Response) : Bool := nextHas (exec i s) fun t => t.resp = some r

/-- The bench after an instruction, for the second of two. -/
def after (i : Instr) (s : State) : State :=
  match exec i s with
  | .next t => t
  | _ => s

/-- 60_exceptions R200. -/
theorem test_codes : (Response.ok .unit).code = 0 ∧ (Response.err .range (.bound 0)).code = 1 ∧ ErrKind.validation.code = 2
    ∧ ErrKind.notFound.code = 3 ∧ ErrKind.transport.code = 4 ∧ ErrKind.illegalCommand.code = 5 := by decide
theorem test_toneGetFs : answers (.toneGetFs 1) bench (.ok (.num (768 / 25))) = true := by decide +kernel
/-- D-F2. -/
theorem test_toneSetFreq_negative :
    nextHas (exec (.toneSetFreq 1 (-5 / 2)) bench) (fun t => t.resp = some (.ok (.num (-5 / 2)))
      ∧ t.dds.one.i.freq = 5 / 2 ∧ t.dds.one.q.freq = 5 / 2 ∧ t.tones.one.sb = .minus ∧ t.dds.one.q.phase = 100
      ∧ t.trace = [.attrGet ⟨.one, .i⟩ .fs, .attrSet ⟨.one, .i⟩ .freq (5 / 2), .attrSet ⟨.one, .q⟩ .freq (5 / 2),
          .attrGet ⟨.one, .i⟩ .freq, .attrGet ⟨.one, .i⟩ .phase, .attrSet ⟨.one, .q⟩ .phase 100]) = true := by
  decide +kernel
/-- E5: the write of the Q phase fails; the frequencies and SB are new, the phase is old. -/
theorem test_toneSetFreq_fails :
    nextHas (exec (.toneSetFreq 1 (-1)) { bench with transport := List.replicate 5 .done ++ [.failed false] })
      (fun t => t.resp = some (.err .transport (.transaction (.attrSet ⟨.one, .q⟩ .phase 100)))
        ∧ t.dds.one.i.freq = 1 ∧ t.dds.one.q.freq = 1 ∧ t.tones.one.sb = .minus ∧ t.dds.one.q.phase = 280) = true := by
  decide +kernel
/-- S6. -/
theorem test_toneSetFreq_bound : answers (.toneSetFreq 1 (1537 / 100)) bench (.err .range (.bound (384 / 25))) = true := by
  decide +kernel
/-- D-F8. -/
theorem test_toneGetFreq :
    answers (.toneGetFreq 1) (after (.toneSetFreq 1 (-5 / 2)) bench) (.ok (.num (-5 / 2))) = true := by decide +kernel
/-- The boundary d = 180 of R108 reads as negative. -/
theorem test_toneGetFreq_boundary :
    answers (.toneGetFreq 1) { bench with dds := ⟨⟨⟨3, 180, 0, 1⟩, ⟨3, 0, 0, 1⟩⟩, benchTone⟩ } (.ok (.num (-3))) = true := by
  decide +kernel
/-- D-P3. -/
theorem test_toneSetPhase :
    nextHas (exec (.toneSetPhase 1 (1451 / 2)) { bench with tones := ⟨⟨.minus, false, 0⟩, ⟨.plus, false, 0⟩⟩ })
      (fun t => t.dds.one.i.phase = 11 / 2 ∧ t.dds.one.q.phase = 191 / 2) = true := by decide +kernel
theorem test_toneGetPhase : answers (.toneGetPhase 1 .Q) bench (.ok (.num 280)) = true := by decide +kernel
/-- S5. -/
theorem test_toneSetAmp_bound : answers (.toneSetAmp 1 (1001 / 1000)) bench (.err .range (.interval 0 1)) = true := by
  decide +kernel
/-- D-A6: an amplitude set while muted ends the mute. -/
theorem test_toneSetAmp_unmutes :
    nextHas (exec (.toneSetAmp 1 (1 / 4)) (after (.toneState 1 .off) bench))
      (fun t => t.dds.one.i.scale = 1 / 4 ∧ t.dds.one.q.scale = 1 / 4 ∧ t.tones.one.muted = false) = true := by
  decide +kernel
theorem test_toneGetAmp : answers (.toneGetAmp 1) bench (.ok (.num (1 / 2))) = true := by decide +kernel
/-- D-A1. -/
theorem test_toneState_off :
    nextHas (exec (.toneState 1 .off) bench) (fun t => t.dds.one.i.scale = 0 ∧ t.dds.one.q.scale = 0
      ∧ t.tones.one.cache = 1 / 2 ∧ t.tones.one.muted = true ∧ t.trace.length = 3) = true := by decide +kernel
/-- D-A2, D-A4. -/
theorem test_toneState_restores :
    nextHas (exec (.toneState 1 .on) (after (.toneState 1 .off) (after (.toneState 1 .off) bench)))
      (fun t => t.dds.one.i.scale = 1 / 2 ∧ t.tones.one.muted = false ∧ t.trace.length = 2) = true := by decide +kernel
/-- 95_test_vectors 2.3: status with the phases 10 and 100. -/
theorem test_toneStatus :
    answers (.toneStatus 1) { bench with dds := ⟨⟨⟨1, 10, 1 / 2, 1⟩, ⟨1, 100, 1 / 2, 1⟩⟩, benchTone⟩ }
      (.ok (.status (1 / 2) (-1) 10)) = true := by decide +kernel
/-- D-D6. -/
theorem test_ddsSetAmp_positive :
    nextHas (exec (.ddsSetAmp (some 1) (some (-3))) bench)
      (fun t => t.resp = some (.err .range (.bound 0)) ∧ t.trace = []) = true := by decide +kernel
/-- R130: None mutes. -/
theorem test_ddsSetAmp_mutes :
    nextHas (exec (.ddsSetAmp none none) bench)
      (fun t => t.dds.one.i.scale = 0 ∧ t.dds.two.q.scale = 0 ∧ t.tones.two.cache = 1 / 2) = true := by decide +kernel
/-- D-D9: tone 1 is set, tone 2 is beyond its bound. -/
theorem test_ddsSetFreq_partial :
    nextHas (exec (.ddsSetFreq 3 (some 20)) bench) (fun t => t.resp = some (.err .range (.bound (384 / 25)))
      ∧ t.dds.one.i.freq = 3 ∧ t.dds.two = benchTone) = true := by decide +kernel
/-- P1, line 2. -/
theorem test_ddsSetPhase :
    nextHas (exec (.ddsSetPhase 30 (some 45)) { bench with tones := ⟨⟨.plus, false, 0⟩, ⟨.minus, false, 0⟩⟩ })
      (fun t => t.dds.one.i.phase = 30 ∧ t.dds.one.q.phase = 300 ∧ t.dds.two.i.phase = 45 ∧ t.dds.two.q.phase = 135)
      = true := by decide +kernel
theorem test_ddsIsOff : answers .ddsIsOff bench (.ok (.bool false)) = true := by decide +kernel
/-- D-D13. -/
theorem test_ddsStatus_silent :
    answers (.ddsStatus 2) (after (.toneState 2 .off) bench) (.ok (.report 1 "MHz" 10 (999 / 10) "dB")) = true := by
  decide +kernel
/-- P2, lines 4 and 5: only the tone that is not muted is muted. -/
theorem test_ddsState :
    nextHas (exec (.ddsState .off) (after (.toneState 1 .off) bench))
      (fun t => t.tones.one.cache = 1 / 2 ∧ t.dds.two.i.scale = 0 ∧ t.trace.length = 3) = true := by decide +kernel
theorem test_firEncode : answers (.firEncode (-12345)) bench (.ok (.bytes 0xCF 0xC7)) = true := by decide +kernel
theorem test_firEncode_range : answers (.firEncode 32768) bench (.err .validation (.int 32768)) = true := by decide +kernel
theorem test_firDecode : answers (.firDecode 0x80 0xFF) bench (.ok (.int (-32513))) = true := by decide +kernel
theorem test_firDecode_order : answers (.firDecode 300 (-1)) bench (.err .validation (.int 300)) = true := by decide +kernel
theorem test_firSetBit : answers (.firSetBit 2 0x7F .off) bench (.ok (.byte 0x7B)) = true := by decide +kernel
theorem test_firSetBit_order :
    answers (.firSetBit 9 256 (.other "maybe")) bench (.err .validation (.int 9)) = true := by decide +kernel
theorem test_firBuildCfg_rx : answers (.firBuildCfg .RX 16 6) bench (.ok (.config 0x18 (some 3))) = true := by decide +kernel
theorem test_firBuildCfg_tx : answers (.firBuildCfg .TX 64 (-6)) bench (.ok (.config 0x79 none)) = true := by decide +kernel
/-- 95_test_vectors 2.5: the first and the last transactions of the upload of 1, 2, 3. -/
theorem test_firWriteTx :
    nextHas (exec (.firWriteTx [1, 2, 3] 128 0) bench) (fun t => t.trace.length = 518
      ∧ t.trace.take 8 = [.attrSetS .enable "0", .regWrite (.firConfig .tx) 0xFA, .regWrite (.firConfig .tx) 0xFE,
          .regWrite (.coeffAddr .tx) 0, .regWrite (.writeLo .tx) 1, .regWrite (.writeHi .tx) 0,
          .regWrite (.firConfig .tx) 0xFE, .regWrite (.coeffAddr .tx) 1]
      ∧ t.trace.drop 515 = [.regWrite (.firConfig .tx) 0xFA, .regWrite (.firConfig .tx) 0xF8, .attrSetS .enable "1"])
      = true := by decide +kernel
/-- E6: the sixth transaction fails. -/
theorem test_firWriteTx_fails :
    nextHas (exec (.firWriteTx [5] 128 0) { bench with transport := List.replicate 5 .done ++ [.failed false] })
      (fun t => t.resp = some (.err .transport (.transaction (.regWrite (.writeHi .tx) 0))) ∧ t.seq = .loop 0
        ∧ t.indet = ⟨true, false⟩) = true := by decide +kernel
/-- 95_test_vectors 2.5: the RX upload writes FIR_GAIN and has 519 transactions. -/
theorem test_firWriteRx :
    nextHas (exec (.firWriteRx [0, -2, 0, 300, 0] 16 (-12)) bench) (fun t => t.trace.length = 519
      ∧ t.trace.take 4 = [.attrSetS .enable "0", .regWrite .firGain 0, .regWrite (.firConfig .rx) 0x1A,
          .regWrite (.firConfig .rx) 0x1E]) = true := by decide +kernel
/-- S7. -/
theorem test_firReadTx :
    answers .firReadTx (after (.firWriteTx [1, 2, 3] 128 0) bench) (.ok (.taps [1, 2, 3])) = true := by decide +kernel
/-- D-R2. -/
theorem test_firReadRx :
    answers .firReadRx (after (.firWriteRx [0, -2, 0, 300, 0] 16 (-12)) bench) (.ok (.taps [-2, 0, 300])) = true := by
  decide +kernel
/-- E7. -/
theorem test_firReadRx_fails :
    nextHas (exec .firReadRx { bench with transport := [.done, .done, .failed false] })
      (fun t => t.resp = some (.err .transport (.transaction (.regRead (.readLo .rx)))) ∧ t.seq = .readLoop 0
        ∧ t.indet = ⟨false, true⟩) = true := by decide +kernel
/-- 10_state R26: while TX is indeterminate its registers and FIR_EN are unknown, and RX's are not. -/
theorem test_blur :
    ({ bench with indet := ⟨true, false⟩ } : State).blur.fir.enable = Config.indetEnable 0
      ∧ ({ bench with indet := ⟨true, false⟩ } : State).blur.fir.regs.paths
        = ⟨Config.indetPath 0 .tx, bench.fir.regs.paths.rx⟩ := ⟨rfl, rfl⟩
theorem test_firLoadFile_missing :
    nextHas (exec (.firLoadFile "missing.ftr") bench)
      (fun t => t.resp = some (.err .notFound (.name "missing.ftr")) ∧ t.trace = []) = true := by decide +kernel
theorem test_firLoadFile :
    nextHas (exec (.firLoadFile "a.ftr") bench) (fun t => t.resp = some (.ok .unit)
      ∧ t.trace = [.attrSetS .enable "0", .attrSetS .blob "blob", .attrSetS .enable "1"]) = true := by decide +kernel

/-- A command placed where the step fetches runs as the first one after reset. -/
theorem test_withFetchWord : step (State.reset.withFetchWord 8 0x32) = exec .firReadTx State.reset := rfl

/-- P1's start state: reset from a device whose phases are 0 and whose scales are 7/10 (70_reset R230). -/
theorem test_reset_from_power_on :
    nextHas (step { bench with
        port := [.reset], dds := ⟨⟨⟨0, 0, 7 / 10, 768 / 25⟩, ⟨0, 0, 7 / 10, 768 / 25⟩⟩, benchTone⟩ })
      (fun t => t.boot = .ready ∧ t.trace = resetTrace ∧ t.tones.one = ⟨.plus, true, 0⟩ ∧ t.dds.one.i.scale = 0
        ∧ t.resp = none) = true := by decide +kernel

/-- 60_exceptions R203: the block never reads or writes a Q channel's sampling frequency, so it does not need it. -/
theorem test_needed_attributes :
    (⟨.ideal, .reference, [], [.channelAttr ⟨.one, .q⟩ .fs]⟩ : Setup).firstAbsent = none
      ∧ (⟨.ideal, .reference, [], [.channelAttr ⟨.one, .i⟩ .fs]⟩ : Setup).firstAbsent
        = some (.channelAttr ⟨.one, .i⟩ .fs) := by decide +kernel

/-! ## The hypotheses of the statements can be met together -/

/-- The bench with a scripted transport. -/
def scripted (ds : List Draw) : State := { bench with transport := ds }

/-- The bench with an input waiting. -/
def waiting (x : Input) : State := { bench with port := [x] }

/-- The bench with tone 1 muted. -/
def silent : State := { bench with tones := ⟨⟨.plus, true, 1 / 4⟩, ⟨.plus, false, 0⟩⟩ }

theorem witness_EncodeOfDecode : decode ⟨0x34, [.name ""]⟩ = .ok (.firLoadFile "") := rfl
theorem witness_ReservedOpcodesRejected : ∀ i : Instr, i.opcode ≠ (⟨0x0A, []⟩ : RawCommand).opc := by
  intro i; cases i <;> simp [Instr.opcode]
theorem witness_StepRunsDecodedCommand :
    (waiting (.command ⟨0x13, []⟩)).boot = .ready ∧ (waiting (.command ⟨0x13, []⟩)).port = [.command ⟨0x13, []⟩]
      ∧ decode ⟨0x13, []⟩ = .ok .ddsIsOff := ⟨rfl, rfl, rfl⟩
/-- A listed opcode with one operand too many. -/
theorem witness_IllegalCommandAnswered :
    (waiting (.command ⟨0x13, [.absent]⟩)).boot = .ready
      ∧ (waiting (.command ⟨0x13, [.absent]⟩)).port = [.command ⟨0x13, [.absent]⟩]
      ∧ ∀ i : Instr, encode i ≠ ⟨0x13, [.absent]⟩ :=
  ⟨rfl, rfl, fun i h => by cases i <;> simp [encode, Instr.opcode, Instr.operands] at h⟩
/-- The last transaction of the longest command. -/
theorem witness_ErrorsPreciseAtTransaction :
    ∃ g, exec (.firWriteRx [] 16 0) { bench with transport := List.replicate 519 .done } = .next g
      ∧ (g.trace[518]? = some (.attrSetS .enable "1") : Bool) = true :=
  nextHas_spec (p := fun g => g.trace[518]? = some (.attrSetS .enable "1")) (by decide +kernel)
/-- A write in the middle of a tone command. -/
theorem witness_ErrorsPreciseAtTransaction_tone :
    ∃ g, exec (.toneSetFreq 1 (-1)) { bench with transport := List.replicate 519 .done } = .next g
      ∧ (g.trace[5]? = some (.attrSet ⟨.one, .q⟩ .phase 100) : Bool) = true :=
  nextHas_spec (p := fun g => g.trace[5]? = some (.attrSet ⟨.one, .q⟩ .phase 100)) (by decide +kernel)
theorem witness_ToneIndexChecked : toneIndexOf (.toneGetFs 3) = some 3 ∧ (3 : Int) ≠ 1 ∧ (3 : Int) ≠ 2 := by decide
theorem witness_ToneIndexChecked_zero : toneIndexOf (.ddsStatus 0) = some 0 ∧ (0 : Int) ≠ 1 ∧ (0 : Int) ≠ 2 := by decide
theorem witness_ToneGetFsReadsRate_done : (scripted [.done]).perfect 1 := by decide
theorem witness_ToneGetFsReadsRate_failed : (scripted [.failed true]).transport = [.failed true] := rfl
theorem witness_ToneGetFsReadsRate_index : (0 : Int) ≠ 1 ∧ (0 : Int) ≠ 2 := by decide
/-- At the bound Fs/2. -/
theorem witness_ToneSetFreqChecksAndSets_within :
    bench.perfect 6 ∧ |(-384 / 25 : Rat)| ≤ (bench.dds.get .one).i.fs / 2 := by decide +kernel
theorem witness_ToneSetFreqChecksAndSets_beyond :
    bench.perfect 1 ∧ (bench.dds.get .one).i.fs / 2 < |(1537 / 100 : Rat)| := by decide +kernel
theorem witness_ToneGetFreqReadsSign : (scripted [.done, .done, .done]).perfect 3 := by decide
theorem witness_ToneSetPhaseWraps : (scripted [.done, .done, .done]).perfect 3 := by decide
theorem witness_ToneGetPhaseReadsChannel_done : (scripted [.done]).perfect 1 := by decide
theorem witness_ToneGetPhaseReadsChannel_failed : (scripted [.failed false]).transport = [.failed false] := rfl
theorem witness_ToneGetPhaseReadsChannel_channel : Symbol.on ≠ .I ∧ Symbol.on ≠ .Q := by decide
theorem witness_ToneGetPhaseReadsChannel_index : (3 : Int) ≠ 1 ∧ (3 : Int) ≠ 2 := by decide
theorem witness_ToneSetAmpWritesBoth_low : bench.perfect 2 ∧ (0 : Rat) ≤ 0 ∧ (0 : Rat) ≤ 1 := by decide +kernel
theorem witness_ToneSetAmpWritesBoth_high : bench.perfect 2 ∧ (0 : Rat) ≤ 1 ∧ (1 : Rat) ≤ 1 := by decide +kernel
theorem witness_ToneSetAmpWritesBoth_beyond : (1001 / 1000 : Rat) < 0 ∨ 1 < (1001 / 1000 : Rat) := by decide +kernel
theorem witness_ToneGetAmpReadsScale_done : (scripted [.done]).perfect 1 := by decide
theorem witness_ToneGetAmpReadsScale_failed : (scripted [.failed true]).transport = [.failed true] := rfl
theorem witness_ToneGetAmpReadsScale_index : (-1 : Int) ≠ 1 ∧ (-1 : Int) ≠ 2 := by decide
/-- A tone that is not muted, switched off: three transactions. -/
theorem witness_ToneStateMutesAndRestores_off :
    (scripted [.done, .done, .done]).perfect (switchTrace .one (bench.tones.get .one) false).length := by decide +kernel
/-- A muted tone, switched on: two transactions. -/
theorem witness_ToneStateMutesAndRestores_on :
    silent.perfect (switchTrace .one (silent.tones.get .one) true).length := by decide +kernel
theorem witness_ToneStateMutesAndRestores_symbol : Symbol.other "dim" ≠ .on ∧ Symbol.other "dim" ≠ .off := by decide
theorem witness_RepeatedMuteRestoresAmplitude :
    bench.setup.coercion = .ideal ∧ bench.perfect 7 ∧ (0 : Rat) ≤ 1 / 2 ∧ (1 / 2 : Rat) ≤ 1 := by decide +kernel
theorem witness_ToneStatusReadsAll : bench.perfect 5 := by decide +kernel
theorem witness_ReadingCommandsChangeNothing :
    readSide (.toneStatus 1) = true ∧ ∃ t, exec (.toneStatus 1) bench = .next t := ⟨rfl, _, rfl⟩
theorem witness_ToneCommandsLeaveOtherTone :
    toneIndexOf (.toneState 1 .off) = some Tone.one.index ∧ Tone.two ≠ .one
      ∧ ∃ t, exec (.toneState 1 .off) bench = .next t := ⟨rfl, by decide, _, rfl⟩
theorem bench_toneInv : bench.ToneInv .one := ⟨by decide +kernel, rfl, rfl, fun h => (nomatch h)⟩
theorem witness_OkCommandsKeepToneInvariants :
    bench.setup.coercion = .ideal ∧ bench.ToneInv .one
      ∧ ∃ t, exec (.ddsSetFreq 1 (some (-2))) bench = .next t ∧ (t.resp = some (.ok .unit) : Bool) = true :=
  ⟨rfl, bench_toneInv, nextHas_spec (p := fun t => t.resp = some (.ok .unit)) (by decide +kernel)⟩
theorem witness_SettingFreqOrPhaseCouplesPhases_freq :
    bench.setup.coercion = .ideal
      ∧ ∃ t, exec (.toneSetFreq Tone.one.index (-2)) bench = .next t ∧ (t.resp = some (.ok (.num (-2))) : Bool) = true :=
  ⟨rfl, nextHas_spec (p := fun t => t.resp = some (.ok (.num (-2)))) (by decide +kernel)⟩
theorem witness_SettingFreqOrPhaseCouplesPhases_phase :
    bench.setup.coercion = .ideal
      ∧ ∃ t, exec (.toneSetPhase Tone.one.index 360) bench = .next t ∧ (t.resp = some (.ok .unit) : Bool) = true :=
  ⟨rfl, nextHas_spec (p := fun t => t.resp = some (.ok .unit)) (by decide +kernel)⟩
theorem witness_GetFreqReturnsSetFreq :
    bench.setup.coercion = .ideal ∧ bench.perfect 9 ∧ |(-384 / 25 : Rat)| ≤ (bench.dds.get .one).i.fs / 2 := by
  decide +kernel
theorem witness_DerivedPhasesGiveComplexTone :
    benchTone.q.scale = benchTone.i.scale ∧ benchTone.q.freq = benchTone.i.freq
      ∧ benchTone.q.phase = deriveQPhase benchTone.i.phase .plus := by decide +kernel

/-- Both levels at their highest legal value, 0 dB. -/
theorem witness_DdsSetAmpSetsLevels :
    (∀ d, some (0 : Rat) = some d → d ≤ 0)
      ∧ (scripted (List.replicate 4 .done)).perfect
        ((levelTrace .one bench.tones.one (some 0)).length + (levelTrace .two bench.tones.two (some 0)).length) :=
  ⟨fun d h => by cases h; exact le_rfl, rfl⟩
theorem witness_DdsSetAmpSetsLevels_none :
    (∀ d, (none : Option Rat) = some d → d ≤ 0)
      ∧ bench.perfect ((levelTrace .one bench.tones.one none).length + (levelTrace .two bench.tones.two none).length) :=
  ⟨fun _ h => (nomatch h), rfl⟩
theorem witness_DdsSetAmpRefusesPositiveLevel_first : (0 : Rat) < 1 / 1000 := by decide +kernel
theorem witness_DdsSetAmpRefusesPositiveLevel_second :
    (∀ d, some (0 : Rat) = some d → d ≤ 0) ∧ (0 : Rat) < 1 ∧ (scripted [.done, .done]).perfect (levelTrace .one bench.tones.one (some 0)).length :=
  ⟨fun d h => by cases h; exact le_rfl, by decide +kernel, rfl⟩
theorem witness_LevelConversionExactPoints : (0 : Rat) ≤ 0 := by decide +kernel
theorem witness_DdsSetFreqDelegates_both :
    bench.perfect 12 ∧ |(384 / 25 : Rat)| ≤ bench.dds.one.i.fs / 2 ∧ |(-384 / 25 : Rat)| ≤ bench.dds.two.i.fs / 2 := by
  decide +kernel
theorem witness_DdsSetFreqDelegates_one : bench.perfect 6 ∧ |(384 / 25 : Rat)| ≤ bench.dds.one.i.fs / 2 := by decide +kernel
theorem witness_DdsSetFreqDelegates_first : bench.perfect 1 ∧ bench.dds.one.i.fs / 2 < |(20 : Rat)| := by decide +kernel
theorem witness_DdsSetFreqDelegates_second :
    bench.perfect 7 ∧ |(384 / 25 : Rat)| ≤ bench.dds.one.i.fs / 2 ∧ bench.dds.two.i.fs / 2 < |(20 : Rat)| := by
  decide +kernel
theorem witness_DdsSetPhaseSetsTones : (scripted (List.replicate 6 .done)).perfect 6 := by decide
theorem witness_DdsSetPhaseSetsTones_one : (scripted (List.replicate 3 .done)).perfect 3 := by decide
theorem witness_DdsIsOffMeansBothSilent_done : (scripted [.done, .done]).perfect 2 := by decide
theorem witness_DdsIsOffMeansBothSilent_first : (scripted [.failed true]).transport = [.failed true] := rfl
theorem witness_DdsIsOffMeansBothSilent_second : (scripted [.done, .failed true]).transport = [.done, .failed true] := rfl
theorem witness_DdsStatusReportsLevel :
    (scripted (List.replicate 5 .done)).perfect 5 ∧ 0 < (bench.dds.get .one).i.scale ∧ (bench.dds.get .one).i.scale ≤ 1 := by
  decide +kernel
/-- Amplitude 1 on tone 1 and 0 on tone 2: the ends of the two clauses. -/
def extremes : State := { bench with dds := ⟨⟨⟨1, 10, 1, 1⟩, ⟨1, 280, 1, 1⟩⟩, ⟨⟨1, 10, 0, 1⟩, ⟨1, 280, 0, 1⟩⟩⟩ }
theorem witness_DdsStatusReportsLevel_zero : extremes.perfect 5 ∧ (extremes.dds.get .two).i.scale = 0 := by decide +kernel
theorem witness_DdsStatusReportsLevel_one :
    extremes.perfect 5 ∧ 0 < (extremes.dds.get .one).i.scale ∧ (extremes.dds.get .one).i.scale ≤ 1 := by decide +kernel
theorem witness_DdsStateSwitchesBoth :
    (scripted (List.replicate 6 .done)).perfect
      ((switchTrace .one bench.tones.one false).length + (switchTrace .two bench.tones.two false).length) := by
  decide +kernel
theorem witness_DdsStateSwitchesBoth_symbol : Symbol.I ≠ .on ∧ Symbol.I ≠ .off := by decide
theorem witness_SubsystemsIndependent :
    (ddsSide .ddsIsOff = true ∧ ∃ t, exec .ddsIsOff bench = .next t)
      ∧ ddsSide .firReadTx = false ∧ ∃ t, exec .firReadTx bench = .next t := ⟨⟨rfl, _, rfl⟩, rfl, _, rfl⟩

theorem witness_FirEncodeSplitsTap : (-32768 : Int) ≤ -32768 ∧ (-32768 : Int) ≤ 32767 ∧ (32768 : Int) > 32767 := by decide
theorem witness_FirDecodeJoinsBytes_legal : (0 : Int) ≤ 255 ∧ (255 : Int) ≤ 255 ∧ (0 : Int) ≤ 0 ∧ (0 : Int) ≤ 255 := by decide
theorem witness_FirDecodeJoinsBytes_high : (256 : Int) < 0 ∨ 255 < (256 : Int) := by decide
theorem witness_FirDecodeJoinsBytes_low : (0 : Int) ≤ 0 ∧ (0 : Int) ≤ 255 ∧ ((-1 : Int) < 0 ∨ 255 < (-1 : Int)) := by decide
theorem witness_CodecRoundTrip_encode :
    (-32768 : Int) ≤ -1 ∧ (-1 : Int) ≤ 32767
      ∧ ∃ t, exec (.firEncode (-1)) bench = .next t ∧ (t.resp = some (.ok (.bytes 0xFF 0xFF)) : Bool) = true :=
  ⟨by decide, by decide, nextHas_spec (p := fun t => t.resp = some (.ok (.bytes 0xFF 0xFF))) (by decide +kernel)⟩
theorem witness_CodecRoundTrip_decode :
    ∃ t, exec (.firDecode (0x80 : Byte).toNat (0x00 : Byte).toNat) bench = .next t
      ∧ (t.resp = some (.ok (.int (-32768))) : Bool) = true :=
  nextHas_spec (p := fun t => t.resp = some (.ok (.int (-32768)))) (by decide +kernel)
theorem witness_FirSetBitChangesOneBit_legal : (7 : Nat) ≤ 7 ∧ (255 : Nat) ≤ 255 := by decide
theorem witness_FirSetBitChangesOneBit_index : (8 : Int) < 0 ∨ 7 < (8 : Int) := by decide
theorem witness_FirSetBitChangesOneBit_word :
    (0 : Int) ≤ 7 ∧ (7 : Int) ≤ 7 ∧ ((256 : Int) < 0 ∨ 255 < (256 : Int)) := by decide
theorem witness_FirSetBitChangesOneBit_switch :
    (0 : Int) ≤ 0 ∧ (0 : Int) ≤ 7 ∧ (0 : Int) ≤ 255 ∧ (255 : Int) ≤ 255 ∧ Symbol.TX ≠ .on ∧ Symbol.TX ≠ .off := by decide
theorem witness_SetBitLaw : (7 : Nat) ≤ 7 := by decide
theorem witness_FirBuildCfgPacksWord_legal :
    (16 : Int) ≤ 128 ∧ (128 : Int) ≤ 128 ∧ (128 : Int) % 16 = 0 ∧ (6 : Rat) ∈ legalGains .rx := by decide +kernel
theorem witness_FirBuildCfgPacksWord_path : Symbol.I ≠ .TX ∧ Symbol.I ≠ .RX := by decide
theorem witness_FirBuildCfgPacksWord_taps : (144 : Int) < 16 ∨ 128 < (144 : Int) ∨ (144 : Int) % 16 ≠ 0 := by decide
theorem witness_FirBuildCfgPacksWord_gain :
    (16 : Int) ≤ 16 ∧ (16 : Int) ≤ 128 ∧ (16 : Int) % 16 = 0 ∧ (6 : Rat) ∉ legalGains .tx := by decide +kernel

/-- All 128 taps, at the ends of their range. -/
theorem witness_legalUpload : LegalUpload .rx (List.replicate 127 (-32768) ++ [32767]) 16 6 :=
  ⟨by decide, by decide, by decide, by decide +kernel, by decide +kernel, by decide +kernel⟩
theorem witness_UploadProgramsReferenceDevice :
    LegalUpload .tx [1] 128 (-6) ∧ bench.setup.firDevice = .reference ∧ bench.perfect (uploadCount .tx) :=
  ⟨⟨by decide, by decide, by decide, by decide +kernel, by decide, by decide⟩, rfl, by decide +kernel⟩
theorem witness_UploadProgramsReferenceDevice_rx :
    LegalUpload .rx (List.replicate 127 (-32768) ++ [32767]) 16 6 ∧ bench.setup.firDevice = .reference
      ∧ bench.perfect (uploadCount .rx) := ⟨witness_legalUpload, rfl, by decide +kernel⟩
theorem witness_UploadSequenceMandatory :
    LegalUpload .rx (List.replicate 127 (-32768) ++ [32767]) 16 6 ∧ bench.perfect (uploadCount .rx)
      ∧ ∀ q, q ≠ .rx → bench.indet.get q = false :=
  ⟨witness_legalUpload, by decide +kernel, fun q _ => by cases q <;> rfl⟩
theorem witness_UploadZeroFillsBank :
    bench.setup.firDevice = .reference
      ∧ ∃ t, exec (uploadInstr .rx [1, 2] 16 6) bench = .next t ∧ (t.resp = some (.ok .unit) : Bool) = true :=
  ⟨rfl, nextHas_spec (p := fun t => t.resp = some (.ok .unit)) (by decide +kernel)⟩
theorem witness_UploadValidatesBeforeTraffic_taps : (0 : Int) < 16 ∨ 128 < (0 : Int) ∨ (0 : Int) % 16 ≠ 0 := by decide
theorem witness_UploadValidatesBeforeTraffic_gain :
    (16 : Int) ≤ 64 ∧ (64 : Int) ≤ 128 ∧ (64 : Int) % 16 = 0 ∧ (12 : Rat) ∉ legalGains .rx := by decide +kernel
theorem witness_UploadValidatesBeforeTraffic_length :
    (16 : Int) ≤ 128 ∧ (128 : Int) % 16 = 0 ∧ (0 : Rat) ∈ legalGains .tx ∧ 128 < (List.replicate 129 (0 : Int)).length := by
  decide +kernel
theorem witness_UploadValidatesBeforeTraffic_tap :
    ([1, -40000, 50000] : List Int).length ≤ 128 ∧ ([1, -40000, 50000] : List Int) = [1] ++ -40000 :: [50000]
      ∧ (∀ u ∈ ([1] : List Int), -32768 ≤ u ∧ u ≤ 32767) ∧ ((-40000 : Int) < -32768 ∨ 32767 < (-40000 : Int)) := by decide
theorem witness_ReadbackReturnsTrimmedBank :
    bench.setup.firDevice = .reference ∧ bench.indet.get .rx = false ∧ bench.perfect 385 := by decide +kernel
/-- A command that makes transactions, none of them scripted. -/
theorem witness_FreeDrawsAreSomeScript :
    ({ bench with transport := [] } : State).transport = []
      ∧ ∃ t, exec (.toneSetFreq 1 1) { bench with transport := [] } = .next t := ⟨rfl, _, rfl⟩
/-- Another path's upload between the two. -/
theorem witness_UploadThenReadbackTrims :
    ∃ s t u : State, s.setup.firDevice = .reference ∧ exec (uploadInstr .tx [0, 5] 128 0) s = .next t
      ∧ t.resp = some (.ok .unit) ∧ (∀ i ∈ [Instr.firWriteRx [7] 16 6], onFirPath .tx i = false)
      ∧ Commands [.firWriteRx [7] 16 6] t u ∧ u.perfect 385 := by
  obtain ⟨t, ht, h⟩ := nextHas_spec (o := exec (uploadInstr .tx [0, 5] 128 0) { bench with transport := List.replicate 1500 .done })
    (p := fun t => t.resp = some (.ok .unit) ∧ nextHas (exec (.firWriteRx [7] 16 6) t) (fun u => u.perfect 385) = true)
    (by decide +kernel)
  obtain ⟨hr, hu⟩ := of_decide_eq_true h
  obtain ⟨u, hu, hp⟩ := nextHas_spec hu
  exact ⟨_, t, u, rfl, ht, hr, by decide, ⟨u, hu, rfl⟩, of_decide_eq_true hp⟩
theorem witness_LoadFileWritesBlob_present : bench.setup.files.lookup "a.ftr" = some "blob" ∧ bench.perfect 3 := by
  decide +kernel
theorem witness_LoadFileWritesBlob_absent : bench.setup.files.lookup "missing.ftr" = none := by decide +kernel
/-- The first transaction of an upload fails. -/
theorem witness_FirTransportErrorMarksIndeterminate_upload :
    ∃ t, exec (uploadInstr .tx [] 16 0) (scripted [.failed true]) = .next t
      ∧ (t.resp = some (.err .transport (.transaction (.attrSetS .enable "0"))) : Bool) = true :=
  nextHas_spec (p := fun t => t.resp = some (.err .transport (.transaction (.attrSetS .enable "0")))) (by decide +kernel)
theorem witness_FirTransportErrorMarksIndeterminate_readback :
    ∃ t, exec (readbackInstr .rx) (scripted [.failed true]) = .next t
      ∧ (t.resp = some (.err .transport (.transaction (.regWrite (.firConfig .rx) 0xEA))) : Bool) = true :=
  nextHas_spec (p := fun t => t.resp = some (.err .transport (.transaction (.regWrite (.firConfig .rx) 0xEA))))
    (by decide +kernel)
theorem witness_FirTransportErrorMarksIndeterminate_load :
    ∃ t, exec (.firLoadFile "a.ftr") (scripted [.done, .failed false]) = .next t
      ∧ (t.resp = some (.err .transport (.transaction (.attrSetS .blob "blob"))) : Bool) = true :=
  nextHas_spec (p := fun t => t.resp = some (.err .transport (.transaction (.attrSetS .blob "blob")))) (by decide +kernel)
theorem witness_UploadStopsWhereItFails_first :
    LegalUpload .tx [] 16 0 ∧ 0 < uploadCount .tx
      ∧ (scripted [.failed true]).transport = List.replicate 0 .done ++ .failed true :: [] :=
  ⟨⟨by decide, by decide, by decide, by decide +kernel, by decide, by decide⟩, by decide, rfl⟩
theorem witness_UploadStopsWhereItFails_last :
    517 < uploadCount .tx ∧ (scripted (List.replicate 517 .done ++ [.failed false])).transport
      = List.replicate 517 .done ++ .failed false :: [] := ⟨by decide, rfl⟩
theorem witness_UploadStopsWhereItFails_rx :
    LegalUpload .rx (List.replicate 127 (-32768) ++ [32767]) 16 6 ∧ 518 < uploadCount .rx
      ∧ (scripted (List.replicate 518 .done ++ [.failed false])).transport
        = List.replicate 518 .done ++ .failed false :: [] := ⟨witness_legalUpload, by decide, rfl⟩

theorem witness_ResetSequenceRuns :
    (waiting .reset).port = [.reset] ∧ (waiting .reset).setup.firstAbsent = none ∧ (waiting .reset).perfect 8 := by
  decide +kernel
/-- The bench on a platform that lacks tone 2's Q channel. -/
def lacking : State := { waiting .reset with setup := ⟨.ideal, .reference, [], [.channel ⟨.two, .q⟩]⟩ }
theorem witness_AbsentHandleStopsBlock_reset :
    lacking.port = [.reset] ∧ lacking.setup.firstAbsent = some (.channel ⟨.two, .q⟩) := by decide +kernel
theorem witness_AbsentHandleStopsBlock_command :
    ({ waiting (.command ⟨0x13, []⟩) with boot := .absent .transceiver } : State).boot = .absent .transceiver
      ∧ (waiting (.command ⟨0x13, []⟩)).port = [.command ⟨0x13, []⟩] := ⟨rfl, rfl⟩
theorem witness_FailedResetNotReady :
    (waiting .reset).port = [.reset] ∧ (waiting .reset).setup.firstAbsent = none
      ∧ resetTrace[7]? = some (.attrSet ⟨.two, .q⟩ .scale 0)
      ∧ ({ waiting .reset with transport := List.replicate 7 .done ++ [.failed true] } : State).transport
        = List.replicate 7 .done ++ .failed true :: [] := by decide +kernel
theorem witness_OtherInputs_none : bench.port = [] := rfl
theorem witness_OtherInputs_agent : (waiting .secondAgent).port = [.secondAgent] := rfl
theorem witness_OtherInputs_rate : (waiting (.samplingRate ⟨.one, .i⟩ 1)).port = [.samplingRate ⟨.one, .i⟩ 1] := rfl
theorem witness_StepKeepsInvariant :
    (waiting (.command ⟨0x33, []⟩)).Inv ∧ ∃ t, step (waiting (.command ⟨0x33, []⟩)) = .next t :=
  ⟨⟨fun _ h => absurd rfl h, fun p _ h => (by cases p <;> cases h), fun _ h => (nomatch h), fun _ => by decide +kernel,
    fun _ hb => (nomatch hb)⟩, _, rfl⟩
/-- A block whose RX path is indeterminate, and SEQ where the command stopped. -/
theorem witness_StepKeepsInvariant_indeterminate :
    ({ waiting (.command ⟨0x33, []⟩) with indet := ⟨false, true⟩, seq := .readLoop 0 } : State).blur.Inv where
  seq_idle _ _ := .inr rfl
  path_unknown p _ h := by cases p with
    | tx => cases h
    | rx => exact ⟨0, rfl, rfl⟩
  gain_unknown _ _ := ⟨0, rfl⟩
  ready_complete _ := by decide +kernel
  absent_missing _ hb := nomatch hb

end Sys2Proof.Tests
end

section
/-! PROOFS. The statements of 00_scope: the phase arithmetic (R11), the step (R3), the independence of the two
subsystems (R2), and runs on free draws (R7). -/

namespace Sys2Proof.Machine

/-! ## Phase arithmetic (00_scope R11, 40_dds_tone R111) -/

theorem normalizePhase_eq_of_turns {x y : Rat} {k : Int} (h0 : 0 ≤ y) (h1 : y < 360) (h : x = y + 360 * k) :
    normalizePhase x = y := by
  have hk : (x / 360).floor = k := by
    change ⌊x / 360⌋ = k
    rw [Int.floor_eq_iff]
    constructor <;> linarith
  rw [normalizePhase, hk]
  linarith

theorem normalizePhase_nonneg (x : Rat) : 0 ≤ normalizePhase x := by
  have h : ((x / 360).floor : Rat) ≤ x / 360 := Int.floor_le _
  unfold normalizePhase
  linarith

theorem normalizePhase_lt (x : Rat) : normalizePhase x < 360 := by
  have h : x / 360 < (x / 360).floor + 1 := Int.lt_floor_add_one _
  unfold normalizePhase
  linarith

/-- The difference of the phases is a quarter turn one way or the other, up to the whole turns that `normalize` took off
the derived phase. -/
theorem normalizePhase_sub_deriveQPhase (pI : Rat) (s : Sideband) :
    normalizePhase (pI - deriveQPhase pI s) = (match s with | .plus => 90 | .minus => 270) := by
  obtain ⟨k, hk⟩ : ∃ k : Int, deriveQPhase pI s = pI - s.sign * 90 - 360 * k := ⟨_, rfl⟩
  cases s with
  | plus => exact normalizePhase_eq_of_turns (k := k) (by norm_num) (by norm_num) (by rw [hk, Sideband.sign]; ring)
  | minus =>
    refine normalizePhase_eq_of_turns (k := k - 1) (by norm_num) (by norm_num) ?_
    rw [hk, Sideband.sign]
    push_cast
    ring

theorem shownSideband_deriveQPhase (pI : Rat) (s : Sideband) : shownSideband pI (deriveQPhase pI s) = s := by
  rw [shownSideband, normalizePhase_sub_deriveQPhase]
  cases s with
  | plus => exact if_pos (by norm_num)
  | minus => exact if_neg (by norm_num)

/-- Settles O10: a rational has one representative in [0, 360) up to whole turns, so the derived phase's turns vanish
from the difference. -/
theorem phaseArithmetic : Obligations.PhaseArithmetic :=
  ⟨fun x => ⟨normalizePhase_nonneg x, normalizePhase_lt x, _, rfl⟩,
    fun pI s => ⟨normalizePhase_sub_deriveQPhase pI s, shownSideband_deriveQPhase pI s⟩⟩

/-! ## The step (00_scope R3, 20_memory R59) -/

theorem accept_ready {c : RawCommand} {i : Instr} {s : State} (hb : s.boot = .ready) (hd : decode c = .ok i) :
    accept c s = exec i s := by
  simp only [accept, hb, hd]

theorem step_command {c : RawCommand} {rest : List Input} {s : State} (hp : s.port = .command c :: rest) :
    step s = accept c { s with port := rest } := by
  simp only [step, hp]

/-- Settles O5: the step hands the oldest command to `accept`, and a ready block decodes and runs it. -/
theorem stepRunsDecodedCommand : Obligations.StepRunsDecodedCommand := by
  intro s c rest i hb hp hd
  calc step s = accept c { s with port := rest } := step_command hp
    _ = exec i { s with port := rest } := accept_ready hb hd

/-! ## Subsystems (00_scope R2, 60_exceptions R212) -/

section Subsystems

variable {P : State → State → Prop} {s t : State}

/-! ### Frames of whole commands -/

/-- A frame that the start and the response of a command keep. -/
structure CommandFrame (P : State → State → Prop) : Prop extends Framing P where
  begin : ∀ s, P s s.begin
  respond : ∀ s r, P s (s.respond r)

theorem CommandFrame.of_run (h : CommandFrame P) {c : Cmd Value} (hc : Keeps P c) (he : run c s = .next t) : P s t := by
  obtain rfl : s.complete c = t := by simpa [run] using he
  exact Keeps.run h.toFraming h.begin h.respond hc s

/-- A command of the DDS subsystem keeps every frame that allows the operations of both tones. -/
theorem CommandFrame.of_dds (h : CommandFrame P) (ht : ∀ t, ToneFrame P t) {i : Instr} (hi : ddsSide i = true)
    (he : exec i s = .next t) : P s t := by
  have f := h.toFraming
  have r := (ht .one).toReadFrame
  cases i with
  | toneGetFs z => exact h.of_run (.bind f (r.checkTone z) fun _ => .bind f (r.attrGet _ _) fun _ => .pure f _) he
  | toneSetFreq z q =>
    exact h.of_run (.bind f (r.checkTone z) fun u => .bind f ((ht u).setFreq q) fun _ => .pure f _) he
  | toneGetFreq z => exact h.of_run (.bind f (r.checkTone z) fun u => .bind f (r.getFreq u) fun _ => .pure f _) he
  | toneSetPhase z q =>
    exact h.of_run (.bind f (r.checkTone z) fun u => .bind f ((ht u).setPhase q) fun _ => .pure f _) he
  | toneGetPhase z ch =>
    exact h.of_run (.bind f (r.checkTone z) fun _ => .bind f (r.checkChan ch) fun _ => .bind f (r.attrGet _ _) fun _ =>
      .pure f _) he
  | toneSetAmp z a => exact h.of_run (.bind f (r.checkTone z) fun u => .bind f ((ht u).setAmp a) fun _ => .pure f _) he
  | toneGetAmp z => exact h.of_run (.bind f (r.checkTone z) fun _ => .bind f (r.attrGet _ _) fun _ => .pure f _) he
  | toneState z sw =>
    exact h.of_run (.bind f (r.checkTone z) fun u => .bind f (r.checkSwitch sw) fun on =>
      .bind f ((ht u).setState on) fun _ => .pure f _) he
  | toneStatus z => exact h.of_run (.bind f (r.checkTone z) fun u => .bind f (r.getStatus u) fun _ => .pure f _) he
  | ddsSetAmp d1 d2 =>
    exact h.of_run (.bind f ((ht .one).setLevel d1) fun _ => .bind f ((ht .two).setLevel d2) fun _ => .pure f _) he
  | ddsSetFreq f1 f2 =>
    exact h.of_run (.bind f ((ht .one).setFreq f1) fun _ =>
      .bind f (.whenGiven f fun q => .bind f ((ht .two).setFreq q) fun _ => .pure f _) fun _ => .pure f _) he
  | ddsSetPhase p1 p2 =>
    exact h.of_run (.bind f ((ht .one).setPhase p1) fun _ => .bind f (.whenGiven f (ht .two).setPhase) fun _ =>
      .pure f _) he
  | ddsIsOff => exact h.of_run (.bind f (r.attrGet _ _) fun _ => .bind f (r.attrGet _ _) fun _ => .pure f _) he
  | ddsStatus z => exact h.of_run (.bind f (r.checkTone z) fun u => .bind f (r.getStatus u) fun _ => .pure f _) he
  | ddsState sw =>
    exact h.of_run (.bind f (r.checkSwitch sw) fun on => .bind f ((ht .one).setState on) fun _ =>
      .bind f ((ht .two).setState on) fun _ => .pure f _) he
  | firEncode | firDecode | firSetBit | firBuildCfg | firWriteTx | firWriteRx | firReadTx | firReadRx | firLoadFile =>
    exact nomatch hi

theorem Keeps.checkPath (f : Framing P) (x : Symbol) : Keeps P (checkPath x) := by
  unfold Machine.checkPath
  cases pathOf x with
  | none => exact .raise f _ _
  | some p => exact .pure f _

/-- A command of the FIR subsystem keeps every frame that allows the FIR sequences. -/
theorem CommandFrame.of_fir (h : CommandFrame P) (hf : FirFrame P) {i : Instr} (hi : ddsSide i = false)
    (he : exec i s = .next t) : P s t := by
  have f := h.toFraming
  have r : ReadFrame P := ⟨f, hf.issue⟩
  cases i with
  | firEncode v => exact h.of_run (.bind f (.checkRange f v _ _) fun _ => .pure f _) he
  | firDecode high low =>
    exact h.of_run (.bind f (.checkRange f high _ _) fun _ => .bind f (.checkRange f low _ _) fun _ => .pure f _) he
  | firSetBit j w sw =>
    exact h.of_run (.bind f (.checkRange f j _ _) fun _ => .bind f (.checkRange f w _ _) fun _ =>
      .bind f (r.checkSwitch sw) fun _ => .pure f _) he
  | firBuildCfg x taps gain =>
    exact h.of_run (.bind f (.checkPath f x) fun p => .bind f (.buildConfig f p taps gain) fun _ => .pure f _) he
  | firWriteTx c taps gain => exact h.of_run (hf.onPaths (hf.firWrite .tx c taps gain) _) he
  | firWriteRx c taps gain => exact h.of_run (hf.onPaths (hf.firWrite .rx c taps gain) _) he
  | firReadTx => exact h.of_run (hf.onPaths (hf.firRead .tx) _) he
  | firReadRx => exact h.of_run (hf.onPaths (hf.firRead .rx) _) he
  | firLoadFile name =>
    exact h.of_run (hf.onPaths (.bind f (.findFile f name) fun b => .bind f (hf.loadBlob b) fun _ => .pure f _) _) he
  | toneGetFs | toneSetFreq | toneGetFreq | toneSetPhase | toneGetPhase | toneSetAmp | toneGetAmp | toneState
  | toneStatus | ddsSetAmp | ddsSetFreq | ddsSetPhase | ddsIsOff | ddsStatus | ddsState => exact nomatch hi

/-! ### The two subsystems -/

/-- The FIR subsystem's state is the same: device, SEQ and INDET (00_scope R2). -/
structure SameFir (s t : State) : Prop where
  fir : t.fir = s.fir
  seq : t.seq = s.seq
  indet : t.indet = s.indet

/-- The DDS subsystem's state is the same: channels and tone registers (00_scope R2). -/
structure SameDds (s t : State) : Prop where
  dds : t.dds = s.dds
  tones : t.tones = s.tones

theorem SameFir.framing : Framing SameFir where
  refl _ := ⟨rfl, rfl, rfl⟩
  trans _ _ _ h k := ⟨k.fir.trans h.fir, k.seq.trans h.seq, k.indet.trans h.indet⟩

theorem SameFir.command : CommandFrame SameFir where
  toFraming := SameFir.framing
  begin _ := ⟨rfl, rfl, rfl⟩
  respond _ _ := ⟨rfl, rfl, rfl⟩

theorem SameFir.tone (t : Tone) : ToneFrame SameFir t where
  toFraming := SameFir.framing
  issue _ _ := ⟨rfl, rfl, rfl⟩
  store _ _ _ _ := ⟨rfl, rfl, rfl⟩
  regs _ _ := ⟨rfl, rfl, rfl⟩

theorem SameDds.framing : Framing SameDds where
  refl _ := ⟨rfl, rfl⟩
  trans _ _ _ h k := ⟨k.dds.trans h.dds, k.tones.trans h.tones⟩

theorem SameDds.command : CommandFrame SameDds where
  toFraming := SameDds.framing
  begin _ := ⟨rfl, rfl⟩
  respond _ _ := ⟨rfl, rfl⟩

theorem SameDds.fir : FirFrame SameDds where
  toFraming := SameDds.framing
  issue _ _ := ⟨rfl, rfl⟩
  reg _ _ _ := ⟨rfl, rfl⟩
  attr s a v := ⟨s.storeFirAttr_dds a v, s.storeFirAttr_tones a v⟩
  seq _ _ := ⟨rfl, rfl⟩
  indet _ _ := ⟨rfl, rfl⟩
  blur s := ⟨s.blur_dds, s.blur_tones⟩

/-- Settles O36: the tone operations keep `SameFir` and the FIR sequences keep `SameDds`, however each ends. -/
theorem subsystemsIndependent : Obligations.SubsystemsIndependent := by
  intro i s t he
  constructor
  · intro hi
    obtain ⟨hfir, hseq, hindet⟩ := SameFir.command.of_dds SameFir.tone hi he
    exact ⟨hfir, hseq, hindet⟩
  · intro hi
    obtain ⟨hdds, htones⟩ := SameDds.command.of_fir SameDds.fir hi he
    exact ⟨hdds, htones⟩

end Subsystems

/-! ## Free draws (00_scope R7, 60_exceptions R205) -/

section FreeDraws

variable {α : Type}

/-! ### Registers -/

theorem setSb_replays (t : Tone) (x : Sideband) : Replays (setSb t x) :=
  .update (fun _ _ => rfl) (fun _ => rfl) (fun _ => rfl) fun _ => rfl

theorem setMuted_replays (t : Tone) (b : Bool) : Replays (setMuted t b) :=
  .update (fun _ _ => rfl) (fun _ => rfl) (fun _ => rfl) fun _ => rfl

theorem setCache_replays (t : Tone) (a : Rat) : Replays (setCache t a) :=
  .update (fun _ _ => rfl) (fun _ => rfl) (fun _ => rfl) fun _ => rfl

theorem setSeq_replays (x : Seq) : Replays (setSeq x) :=
  .update (fun _ _ => rfl) (fun _ => rfl) (fun _ => rfl) fun _ => rfl

theorem clearIndet_replays (p : Path) : Replays (clearIndet p) :=
  .update (fun _ _ => rfl) (fun _ => rfl) (fun _ => rfl) fun _ => rfl

theorem readSb_replays (t : Tone) : Replays (readSb t) := .getState fun _ _ => rfl

theorem readMuted_replays (t : Tone) : Replays (readMuted t) := .getState fun _ _ => rfl

theorem readCache_replays (t : Tone) : Replays (readCache t) := .getState fun _ _ => rfl

/-! ### Operand checks -/

theorem checkTone_replays (z : Int) : Replays (checkTone z) := by
  unfold checkTone
  cases toneOf z with
  | none => exact .raise _ _
  | some t => exact .pure t

theorem checkChan_replays (x : Symbol) : Replays (checkChan x) := by
  unfold checkChan
  cases chanOf x with
  | none => exact .raise _ _
  | some c => exact .pure c

theorem checkSwitch_replays (x : Symbol) : Replays (checkSwitch x) := by
  unfold checkSwitch
  cases switchOf x with
  | none => exact .raise _ _
  | some b => exact .pure b

theorem checkPath_replays (x : Symbol) : Replays (checkPath x) := by
  unfold checkPath
  cases pathOf x with
  | none => exact .raise _ _
  | some p => exact .pure p

theorem checkRange_replays (v lo hi : Int) : Replays (checkRange v lo hi) := .ite (.raise _ _) (.pure _)

theorem checkTapValues_replays (c : List Int) : Replays (checkTapValues c) := by
  induction c with
  | nil => exact .pure _
  | cons v c ih => exact .bind (checkRange_replays v _ _) fun _ => ih

theorem buildConfig_replays (p : Path) (taps : Int) (gain : Rat) : Replays (buildConfig p taps gain) := by
  refine .bind (.ite (.raise _ _) (.pure _)) fun _ => .ite ?_ (.raise _ _)
  cases p <;> exact .pure _

theorem validateWrite_replays (p : Path) (c : List Int) (taps : Int) (gain : Rat) :
    Replays (validateWrite p c taps gain) :=
  .bind (buildConfig_replays p taps gain) fun _ => .ite (.raise _ _) (.bind (checkTapValues_replays c) fun _ => .pure _)

/-! ### Tone operations -/

theorem setFreq_replays (t : Tone) (f : Rat) : Replays (setFreq t f) :=
  .bind (attrGet_replays _ _) fun _ => .ite (.raise _ _)
    (.bind (attrSet_replays _ _ _) fun _ => .bind (attrSet_replays _ _ _) fun _ => .bind (attrGet_replays _ _) fun _ =>
      .bind (setSb_replays _ _) fun _ => .bind (attrGet_replays _ _) fun _ => .bind (readSb_replays t) fun _ =>
        .bind (attrSet_replays _ _ _) fun _ => .pure _)

theorem setPhase_replays (t : Tone) (phi : Rat) : Replays (setPhase t phi) :=
  .bind (attrSet_replays _ _ _) fun _ => .bind (attrGet_replays _ _) fun _ => .bind (readSb_replays t) fun _ =>
    attrSet_replays _ _ _

/-- One scale written to both channels, and MUTED after it (R105, R107). -/
theorem scaleWrites_replays (t : Tone) (a : Rat) (b : Bool) : Replays (do
    attrSet ⟨t, .i⟩ .scale a
    attrSet ⟨t, .q⟩ .scale a
    setMuted t b) :=
  .bind (attrSet_replays _ _ _) fun _ => .bind (attrSet_replays _ _ _) fun _ => setMuted_replays t b

theorem setAmp_replays (t : Tone) (a : Rat) : Replays (setAmp t a) := .ite (.raise _ _) (scaleWrites_replays t a false)

theorem mute_replays (t : Tone) : Replays (mute t) :=
  .bind (readMuted_replays t) fun _ => .ite (.pure _)
    (.bind (attrGet_replays _ _) fun a => .bind (setCache_replays t a) fun _ => scaleWrites_replays t 0 true)

theorem unmute_replays (t : Tone) : Replays (unmute t) :=
  .bind (readMuted_replays t) fun _ =>
    .ite (.bind (readCache_replays t) fun a => scaleWrites_replays t a false) (.pure _)

theorem setState_replays (t : Tone) (on : Bool) : Replays (setState t on) := .ite (unmute_replays t) (mute_replays t)

theorem setLevel_replays (t : Tone) (d : Option Rat) : Replays (setLevel t d) := by
  cases d with
  | none => exact setState_replays t false
  | some d => exact .ite (.raise _ _) (setAmp_replays t _)

theorem whenGiven_replays (d : Option Rat) {f : Rat → Cmd Unit} (hf : ∀ x, Replays (f x)) :
    Replays (whenGiven d f) := by
  cases d with
  | none => exact .pure _
  | some x => exact hf x

theorem getFreq_replays (t : Tone) : Replays (getFreq t) :=
  .bind (attrGet_replays _ _) fun _ => .bind (attrGet_replays _ _) fun _ => .bind (attrGet_replays _ _) fun _ => .pure _

theorem getStatus_replays (t : Tone) : Replays (getStatus t) :=
  .bind (attrGet_replays _ _) fun _ => .bind (getFreq_replays t) fun _ => .bind (attrGet_replays _ _) fun _ => .pure _

/-! ### FIR sequences -/

theorem pushTap_replays (p : Path) (c : List Int) (i : Fin 128) : Replays (pushTap p c i) :=
  .bind (setSeq_replays _) fun _ => .bind (regWrite_replays _ _) fun _ => .bind (regWrite_replays _ _) fun _ =>
    .bind (regWrite_replays _ _) fun _ => regWrite_replays _ _

theorem pushTaps_replays (p : Path) (c : List Int) (l : List (Fin 128)) : Replays (pushTaps p c l) := by
  induction l with
  | nil => exact .pure _
  | cons i l ih => exact .bind (pushTap_replays p c i) fun _ => ih

theorem writeGain_replays (g : Option (BitVec 2)) : Replays (writeGain g) := by
  cases g with
  | none => exact .pure _
  | some g => exact regWrite_replays _ _

theorem upload_replays (p : Path) (c : List Int) (cfg : Byte) (g : Option (BitVec 2)) : Replays (upload p c cfg g) :=
  .bind (setSeq_replays _) fun _ => .bind (attrSetS_replays _ _) fun _ => .bind (writeGain_replays g) fun _ =>
    .bind (setSeq_replays _) fun _ => .bind (regWrite_replays _ _) fun _ => .bind (setSeq_replays _) fun _ =>
      .bind (regWrite_replays _ _) fun _ => .bind (pushTaps_replays p c _) fun _ => .bind (setSeq_replays _) fun _ =>
        .bind (regWrite_replays _ _) fun _ => .bind (setSeq_replays _) fun _ => .bind (regWrite_replays _ _) fun _ =>
          .bind (setSeq_replays _) fun _ => .bind (attrSetS_replays _ _) fun _ =>
            .bind (clearIndet_replays p) fun _ => setSeq_replays _

theorem firWrite_replays (p : Path) (c : List Int) (taps : Int) (gain : Rat) : Replays (firWrite p c taps gain) :=
  .bind (validateWrite_replays p c taps gain) fun _ => .bind (upload_replays p c _ _) fun _ => .pure _

theorem readSlot_replays (p : Path) (i : Fin 128) : Replays (readSlot p i) :=
  .bind (setSeq_replays _) fun _ => .bind (regWrite_replays _ _) fun _ => .bind (regRead_replays _) fun _ =>
    .bind (regRead_replays _) fun _ => .pure _

theorem readSlots_replays (p : Path) (l : List (Fin 128)) : Replays (readSlots p l) := by
  induction l with
  | nil => exact .pure _
  | cons i l ih => exact .bind (readSlot_replays p i) fun _ => .bind ih fun _ => .pure _

theorem firRead_replays (p : Path) : Replays (firRead p) :=
  .bind (setSeq_replays _) fun _ => .bind (regWrite_replays _ _) fun _ => .bind (readSlots_replays p _) fun _ =>
    .bind (setSeq_replays _) fun _ => .pure _

theorem loadBlob_replays (b : String) : Replays (loadBlob b) :=
  .bind (setSeq_replays _) fun _ => .bind (attrSetS_replays _ _) fun _ => .bind (attrSetS_replays _ _) fun _ =>
    .bind (setSeq_replays _) fun _ => .bind (attrSetS_replays _ _) fun _ => .bind (clearIndet_replays _) fun _ =>
      .bind (clearIndet_replays _) fun _ => setSeq_replays _

/-- A program that reads the state first, the transport apart. -/
theorem Replays.getThen {f : State → Cmd α} (hw : ∀ s T, f (s.withTransport T) = f s) (hf : ∀ s, Replays (f s)) :
    Replays (get >>= f) := by
  intro s hs
  obtain ⟨xs, htrace, hempty, hdraws, hscript⟩ := hf s s hs
  exact ⟨xs, htrace, hempty, hdraws, fun m => (congrFun (hw s _) _).trans (hscript m)⟩

/-- The file store is a launch parameter, which no script changes. -/
theorem findFile_replays (name : String) : Replays (findFile name) :=
  .getThen (fun _ _ => rfl) fun s => by
    cases s.setup.files.lookup name with
    | none => exact .raise _ _
    | some b => exact .pure b

/-! ### The commands -/

theorem Reruns.run {c : Cmd Value} (hc : Reruns c) {s t : State} (hs : s.transport = []) (he : run c s = .next t)
    (rest : List Draw) :
    Machine.run c (s.withTransport (freeScript s.draws t.trace ++ rest)) = .next (t.withTransport rest) := by
  obtain rfl : s.complete c = t := by simpa [Machine.run] using he
  exact congrArg Host.Outcome.next (hc.complete hs rest)

/-- A command's free draws, scripted, lead to the same ending: each command is a program of transactions and of steps
that see no script. -/
theorem exec_freeScript (i : Instr) {s t : State} (hs : s.transport = []) (he : exec i s = .next t) (rest : List Draw) :
    exec i (s.withTransport (freeScript s.draws t.trace ++ rest)) = .next (t.withTransport rest) := by
  have replay {c : Cmd Value} (hc : Replays c) (he : run c s = .next t) := hc.reruns.run hs he rest
  cases i with
  | toneGetFs z => exact replay (.bind (checkTone_replays z) fun _ => .bind (attrGet_replays _ _) fun _ => .pure _) he
  | toneSetFreq z f =>
    exact replay (.bind (checkTone_replays z) fun t => .bind (setFreq_replays t f) fun _ => .pure _) he
  | toneGetFreq z => exact replay (.bind (checkTone_replays z) fun t => .bind (getFreq_replays t) fun _ => .pure _) he
  | toneSetPhase z q =>
    exact replay (.bind (checkTone_replays z) fun t => .bind (setPhase_replays t q) fun _ => .pure _) he
  | toneGetPhase z ch =>
    exact replay (.bind (checkTone_replays z) fun _ => .bind (checkChan_replays ch) fun _ =>
      .bind (attrGet_replays _ _) fun _ => .pure _) he
  | toneSetAmp z a => exact replay (.bind (checkTone_replays z) fun t => .bind (setAmp_replays t a) fun _ => .pure _) he
  | toneGetAmp z => exact replay (.bind (checkTone_replays z) fun _ => .bind (attrGet_replays _ _) fun _ => .pure _) he
  | toneState z sw =>
    exact replay (.bind (checkTone_replays z) fun t => .bind (checkSwitch_replays sw) fun on =>
      .bind (setState_replays t on) fun _ => .pure _) he
  | toneStatus z => exact replay (.bind (checkTone_replays z) fun t => .bind (getStatus_replays t) fun _ => .pure _) he
  | ddsSetAmp d1 d2 =>
    exact replay (.bind (setLevel_replays .one d1) fun _ => .bind (setLevel_replays .two d2) fun _ => .pure _) he
  | ddsSetFreq f1 f2 =>
    exact replay (.bind (setFreq_replays .one f1) fun _ =>
      .bind (whenGiven_replays f2 fun f => .bind (setFreq_replays .two f) fun _ => .pure _) fun _ => .pure _) he
  | ddsSetPhase p1 p2 =>
    exact replay (.bind (setPhase_replays .one p1) fun _ =>
      .bind (whenGiven_replays p2 (setPhase_replays .two)) fun _ => .pure _) he
  | ddsIsOff => exact replay (.bind (attrGet_replays _ _) fun _ => .bind (attrGet_replays _ _) fun _ => .pure _) he
  | ddsStatus z => exact replay (.bind (checkTone_replays z) fun t => .bind (getStatus_replays t) fun _ => .pure _) he
  | ddsState sw =>
    exact replay (.bind (checkSwitch_replays sw) fun on => .bind (setState_replays .one on) fun _ =>
      .bind (setState_replays .two on) fun _ => .pure _) he
  | firEncode v => exact replay (.bind (checkRange_replays v _ _) fun _ => .pure _) he
  | firDecode high low =>
    exact replay (.bind (checkRange_replays high _ _) fun _ => .bind (checkRange_replays low _ _) fun _ => .pure _) he
  | firSetBit j w sw =>
    exact replay (.bind (checkRange_replays j _ _) fun _ => .bind (checkRange_replays w _ _) fun _ =>
      .bind (checkSwitch_replays sw) fun _ => .pure _) he
  | firBuildCfg x taps gain =>
    exact replay (.bind (checkPath_replays x) fun p => .bind (buildConfig_replays p taps gain) fun _ => .pure _) he
  | firWriteTx c taps gain => exact ((firWrite_replays .tx c taps gain).onPaths [.tx]).run hs he rest
  | firWriteRx c taps gain => exact ((firWrite_replays .rx c taps gain).onPaths [.rx]).run hs he rest
  | firReadTx => exact ((firRead_replays .tx).onPaths [.tx]).run hs he rest
  | firReadRx => exact ((firRead_replays .rx).onPaths [.rx]).run hs he rest
  | firLoadFile name =>
    exact (Replays.onPaths (.bind (findFile_replays name) fun b => .bind (loadBlob_replays b) fun _ => .pure _)
      [.tx, .rx]).run hs he rest

/-- Settles O9: every command's program replays its free draws from the script of them (`exec_freeScript`). -/
theorem freeDrawsAreSomeScript : Obligations.FreeDrawsAreSomeScript :=
  fun i _ _ rest hs he => exec_freeScript i hs he rest

end FreeDraws

end Sys2Proof.Machine
end

section
/-! PROOFS. The statements of 10_state: that every command answers (R24), the frame of one tone (R20), the invariant of
the step (R25, R26), DDS.ISOFF (R37), the tone invariants (R36), and the upload's bank and its failures (R25, R38). -/

namespace Sys2Proof.Machine

section StateFamily

variable {α β : Type} {P : State → State → Prop} {s t u : State}

/-! ## How a program and a command end -/

theorem Cmd.bind_ok {c : Cmd α} {f : α → Cmd β} {b : β} :
    (c >>= f) s = .ok b t ↔ ∃ a u, c s = .ok a u ∧ f a u = .ok b t := by
  rw [Cmd.bind_apply]
  cases c s with
  | ok a u => exact ⟨fun h => ⟨a, u, rfl, h⟩, fun ⟨_, _, hc, hf⟩ => by cases hc; exact hf⟩
  | error e u => exact ⟨fun h => (nomatch h), fun ⟨_, _, hc, _⟩ => (nomatch hc)⟩

/-- A command that answers ok is a program that ended with that value. -/
theorem run_answered_ok {c : Cmd Value} {v : Value} (he : run c s = .next t) (hr : t.resp = some (.ok v)) :
    ∃ u, c s.begin = .ok v u ∧ t = u.respond (.ok v) := by
  obtain rfl : s.complete c = t := by simpa [run] using he
  unfold State.complete at hr ⊢
  cases hc : c s.begin with
  | ok w u =>
    rw [hc] at hr
    obtain rfl : w = v := by simpa using hr
    exact ⟨u, rfl, rfl⟩
  | error e u =>
    rw [hc] at hr
    exact nomatch hr

/-- Where a program has a script that ends with a value, an ending with a value is that one. -/
theorem Script.of_ok {c : Cmd α} {xs : List (Transaction × Ctl)} {a b : α} (h : Script c s xs (.ok a u))
    (hc : c s = .ok b t) : b = a ∧ ∃ T, t = u.withTransport T := by
  rcases h.cases with he | ⟨j, x, d, -, he⟩ <;> rw [hc] at he
  · cases he
    exact ⟨rfl, _, rfl⟩
  · cases he

/-- Where a program has a script that raises, it does not end with a value. -/
theorem Script.not_ok {c : Cmd α} {xs : List (Transaction × Ctl)} {e : Failure} {b : α} (h : Script c s xs (.error e u))
    (hc : c s = .ok b t) : False := by
  rcases h.cases with he | ⟨j, x, d, -, he⟩ <;> rw [hc] at he <;> cases he

/-! ## The command port: every command answers (R24) -/

/-- What no command touches: the inputs behind it, the launch parameters and how construction ended. -/
structure SameInputs (s t : State) : Prop where
  port : t.port = s.port
  setup : t.setup = s.setup
  boot : t.boot = s.boot

theorem SameInputs.framing : Framing SameInputs where
  refl _ := ⟨rfl, rfl, rfl⟩
  trans _ _ _ h k := ⟨k.port.trans h.port, k.setup.trans h.setup, k.boot.trans h.boot⟩

theorem SameInputs.command : CommandFrame SameInputs where
  toFraming := SameInputs.framing
  begin _ := ⟨rfl, rfl, rfl⟩
  respond _ _ := ⟨rfl, rfl, rfl⟩

theorem SameInputs.tone (t : Tone) : ToneFrame SameInputs t where
  toFraming := SameInputs.framing
  issue _ _ := ⟨rfl, rfl, rfl⟩
  store _ _ _ _ := ⟨rfl, rfl, rfl⟩
  regs _ _ := ⟨rfl, rfl, rfl⟩

theorem SameInputs.fir : FirFrame SameInputs where
  toFraming := SameInputs.framing
  issue _ _ := ⟨rfl, rfl, rfl⟩
  reg _ _ _ := ⟨rfl, rfl, rfl⟩
  attr s a v := ⟨s.storeFirAttr_port a v, s.storeFirAttr_setup a v, s.storeFirAttr_boot a v⟩
  seq _ _ := ⟨rfl, rfl, rfl⟩
  indet _ _ := ⟨rfl, rfl, rfl⟩
  blur s := ⟨s.blur_port, s.blur_setup, s.blur_boot⟩

theorem exec_keeps_inputs {i : Instr} (he : exec i s = .next t) : SameInputs s t := by
  cases hi : ddsSide i with
  | true => exact SameInputs.command.of_dds SameInputs.tone hi he
  | false => exact SameInputs.command.of_fir SameInputs.fir hi he

theorem exec_is_run (i : Instr) (s : State) : ∃ c, exec i s = run c s := by
  cases i <;> exact ⟨_, rfl⟩

theorem State.complete_resp (s : State) (c : Cmd Value) : ∃ r, (s.complete c).resp = some r := by
  unfold State.complete
  cases c s.begin with
  | ok v u => exact ⟨_, u.respond_resp (.ok v)⟩
  | error e u => exact ⟨_, u.takeError_resp e⟩

/-- Settles O7: a command is a program run to completion, which leaves a response, and it keeps `SameInputs`. -/
theorem everyCommandAnswers : Obligations.EveryCommandAnswers := by
  intro i s
  obtain ⟨c, hc⟩ := exec_is_run i s
  obtain ⟨r, hr⟩ := s.complete_resp c
  obtain ⟨hport, hsetup, hboot⟩ := exec_keeps_inputs hc
  exact ⟨s.complete c, r, hc, hr, hport, hsetup, hboot⟩

/-! ## The registers and channels of the other tone (R20) -/

/-- A program after the check of an index that names the tone. -/
theorem Keeps.checkTone_named {z : Int} {t : Tone} {f : Tone → Cmd α} (hz : some z = some t.index)
    (hf : Keeps P (f t)) : Keeps P (checkTone z >>= f) := by
  obtain rfl : z = t.index := Option.some.inj hz
  intro s
  rw [Cmd.bind_apply, checkTone_index]
  exact hf s

/-- A command on one tone keeps every frame that allows the operations of that tone. -/
theorem CommandFrame.of_tone {s s' : State} {t : Tone} (h : CommandFrame P) (ht : ToneFrame P t) {i : Instr}
    (hi : toneIndexOf i = some t.index) (he : exec i s = .next s') : P s s' := by
  have f := h.toFraming
  have r := ht.toReadFrame
  cases i with
  | toneGetFs z => exact h.of_run (.checkTone_named hi (.bind f (r.attrGet _ _) fun _ => .pure f _)) he
  | toneSetFreq z q => exact h.of_run (.checkTone_named hi (.bind f (ht.setFreq q) fun _ => .pure f _)) he
  | toneGetFreq z => exact h.of_run (.checkTone_named hi (.bind f (r.getFreq t) fun _ => .pure f _)) he
  | toneSetPhase z q => exact h.of_run (.checkTone_named hi (.bind f (ht.setPhase q) fun _ => .pure f _)) he
  | toneGetPhase z ch =>
    exact h.of_run (.checkTone_named hi (.bind f (r.checkChan ch) fun _ => .bind f (r.attrGet _ _) fun _ =>
      .pure f _)) he
  | toneSetAmp z a => exact h.of_run (.checkTone_named hi (.bind f (ht.setAmp a) fun _ => .pure f _)) he
  | toneGetAmp z => exact h.of_run (.checkTone_named hi (.bind f (r.attrGet _ _) fun _ => .pure f _)) he
  | toneState z sw =>
    exact h.of_run (.checkTone_named hi (.bind f (r.checkSwitch sw) fun on => .bind f (ht.setState on) fun _ =>
      .pure f _)) he
  | toneStatus z => exact h.of_run (.checkTone_named hi (.bind f (r.getStatus t) fun _ => .pure f _)) he
  | ddsStatus z => exact h.of_run (.checkTone_named hi (.bind f (r.getStatus t) fun _ => .pure f _)) he
  | ddsSetAmp | ddsSetFreq | ddsSetPhase | ddsIsOff | ddsState | firEncode | firDecode | firSetBit | firBuildCfg
  | firWriteTx | firWriteRx | firReadTx | firReadRx | firLoadFile => exact nomatch hi

/-- One tone's registers and channels are the same. -/
structure SameTone (u : Tone) (s t : State) : Prop where
  regs : t.tones.get u = s.tones.get u
  channels : t.dds.get u = s.dds.get u

theorem SameTone.framing (u : Tone) : Framing (SameTone u) where
  refl _ := ⟨rfl, rfl⟩
  trans _ _ _ h k := ⟨k.regs.trans h.regs, k.channels.trans h.channels⟩

theorem SameTone.command (u : Tone) : CommandFrame (SameTone u) where
  toFraming := SameTone.framing u
  begin _ := ⟨rfl, rfl⟩
  respond _ _ := ⟨rfl, rfl⟩

/-- The operations of a tone leave another one alone. -/
theorem SameTone.other {u t : Tone} (hu : u ≠ t) : ToneFrame (SameTone u) t where
  toFraming := SameTone.framing u
  issue _ _ := ⟨rfl, rfl⟩
  store s c a v := ⟨rfl, by simp [hu]⟩
  regs s r := ⟨by simp [hu], rfl⟩

/-- Settles O23: a command on tone `t` keeps what every operation of `t` keeps, and each leaves `u` alone. -/
theorem toneCommandsLeaveOtherTone : Obligations.ToneCommandsLeaveOtherTone := by
  intro i t u s s' hi hu he
  obtain ⟨hregs, hchannels⟩ := (SameTone.command u).of_tone (SameTone.other hu) hi he
  exact ⟨hregs, hchannels⟩

/-! ## The invariant of the step (R25, R26, 70_reset R232) -/

/-- What `State.Inv` says of a ready block's FIR subsystem: its sequencer and its indeterminate paths (R25, R26). -/
structure State.FirInv (s : State) : Prop where
  seq_idle : s.seq ≠ .idle → s.indet.tx = true ∨ s.indet.rx = true
  path_unknown : ∀ p, s.indet.get p = true →
    ∃ n, s.fir.regs.paths.get p = Config.indetPath n p ∧ s.fir.enable = Config.indetEnable n
  gain_unknown : s.indet.rx = true → ∃ n, s.fir.regs.gain = Config.indetGain n

theorem State.Inv.firInv (h : s.Inv) (hb : s.boot = .ready) : s.FirInv :=
  ⟨h.seq_idle hb, fun p => h.path_unknown p hb, h.gain_unknown hb⟩

theorem State.inv_of_ready (hb : s.boot = .ready) (hf : s.FirInv) (hc : s.setup.firstAbsent = none) : s.Inv where
  seq_idle _ := hf.seq_idle
  path_unknown p _ := hf.path_unknown p
  gain_unknown _ := hf.gain_unknown
  ready_complete _ := hc
  absent_missing _ h := nomatch hb.symm.trans h

theorem State.inv_of_not_ready (hb : s.boot ≠ .ready) (ha : ∀ h, s.boot = .absent h → s.setup.firstAbsent = some h) :
    s.Inv where
  seq_idle h := absurd h hb
  path_unknown _ h := absurd h hb
  gain_unknown h := absurd h hb
  ready_complete h := absurd h hb
  absent_missing := ha

/-- Of a block whose reset ended with TransportError the invariant says nothing (U20). -/
theorem State.inv_of_failed (hb : s.boot = .failed) : s.Inv :=
  inv_of_not_ready (by rw [hb]; exact Boot.noConfusion) fun _ h => nomatch hb.symm.trans h

theorem State.inv_of_absent {h : Handle} (hb : s.boot = .absent h) (ha : s.setup.firstAbsent = some h) : s.Inv :=
  inv_of_not_ready (by rw [hb]; exact Boot.noConfusion) fun k hk => by
    obtain rfl : h = k := by simpa [hb] using hk
    exact ha

theorem SameFir.firInv (h : SameFir s t) (hs : s.FirInv) : t.FirInv := by
  obtain ⟨hfir, hseq, hindet⟩ := h
  refine ⟨?_, ?_, ?_⟩
  · rw [hseq, hindet]
    exact hs.seq_idle
  · rw [hfir, hindet]
    exact hs.path_unknown
  · rw [hfir, hindet]
    exact hs.gain_unknown

/-- The invariant looks at the FIR subsystem, the launch parameters and how construction ended. -/
theorem State.Inv.congr (h : s.Inv) (hf : SameFir s t) (hi : SameInputs s t) : t.Inv := by
  cases hb : s.boot with
  | ready =>
    refine State.inv_of_ready (hi.boot.trans hb) (hf.firInv (h.firInv hb)) ?_
    rw [hi.setup, h.ready_complete hb]
  | failed => exact State.inv_of_failed (hi.boot.trans hb)
  | absent k =>
    refine State.inv_of_absent (hi.boot.trans hb) ?_
    rw [hi.setup, h.absent_missing k hb]

/-- A determinate FIR subsystem at rest has the invariant. -/
theorem State.firInv_of_determinate (hs : s.seq = .idle) (hi : s.indet = ⟨false, false⟩) : s.FirInv := by
  have hg : ∀ p, s.indet.get p = false := by
    rw [hi]
    intro p
    cases p <;> rfl
  exact ⟨fun h => absurd hs h, fun p hp => absurd ((hg p).symm.trans hp) Bool.false_ne_true,
    fun hp => absurd ((hg .rx).symm.trans hp) Bool.false_ne_true⟩

/-- What is unknown of an indeterminate path is unknown after `blur`; there remains where the sequencer stands. -/
theorem State.blur_firInv (h : s.seq ≠ .idle → s.indet.tx = true ∨ s.indet.rx = true) : s.blur.FirInv := by
  refine ⟨?_, ?_, ?_⟩
  · simpa using h
  · intro p hp
    exact ⟨s.draws, s.blur_unknown (by simpa using hp)⟩
  · intro hp
    exact ⟨s.draws, s.blur_gain (by simpa using hp)⟩

/-! ### FIR sequences -/

/-- How a FIR sequence leaves the sequencer: at rest when it completes, and untouched when it is turned away before its
first transaction (R25, 60_exceptions R206). -/
structure Settles (c : Cmd α) (s : State) : Prop where
  ok_idle : ∀ a t, c s = .ok a t → t.seq = .idle
  turned_away : ∀ e t, c s = .error e t → e.kind ≠ .transport → t = s

theorem Settles.of_completed {c : Cmd α} {xs : List (Transaction × Ctl)} {a : α} (h : Script c s xs (.ok a u))
    (hu : u.seq = .idle) : Settles c s where
  ok_idle b t hc := by
    obtain ⟨-, T, rfl⟩ := h.of_ok hc
    exact hu
  turned_away e t hc he := by
    rcases h.cases with hr | ⟨j, x, d, -, hr⟩ <;> rw [hc] at hr <;> cases hr
    exact absurd rfl he

theorem Settles.of_refused {c : Cmd α} {e : Failure} (h : Script c s [] (.error e s)) : Settles c s where
  ok_idle a t hc := (h.not_ok hc).elim
  turned_away f t hc _ := by
    rcases h.cases with hr | ⟨j, x, d, hx, -⟩
    · rw [hc] at hr
      cases hr
      rfl
    · exact nomatch hx

theorem firWrite_settles (p : Path) (c : List Int) (taps : Int) (gain : Rat) (s : State) :
    Settles (firWrite p c taps gain) s := by
  by_cases h : LegalUpload p c taps gain
  · obtain ⟨u, hu, hctl⟩ := firWrite_script h s
    exact .of_completed hu (congrArg Ctl.seq hctl)
  · obtain ⟨e, he⟩ := firWrite_script_illegal h s
    exact .of_refused he

theorem firRead_settles (p : Path) (s : State) : Settles (firRead p) s := by
  obtain ⟨v, u, hu, hctl⟩ := firRead_script p s
  exact .of_completed hu (congrArg Ctl.seq hctl)

theorem loadFile_settles (name : String) (s : State) :
    Settles (do let b ← findFile name; loadBlob b; return Value.unit) s := by
  cases h : s.setup.files.lookup name with
  | none => exact .of_refused (findFile_script_absent h).bind_error
  | some b =>
    obtain ⟨u, hu, hctl⟩ := loadBlob_script b s
    have htail : Script (do loadBlob b; return Value.unit) s _ _ := hu.bind_ok (.pure Value.unit u)
    exact .of_completed ((findFile_script h).bind_ok htail) (congrArg Ctl.seq hctl)

/-- A FIR command cut short by the transport, whatever the error carries. -/
theorem onPaths_cut {c : Cmd α} {ps : List Path} {e : Failure} (h : c s = .error e t) (he : e.kind = .transport) :
    onPaths ps c s = .error e (t.markIndet ps).blur := by
  unfold onPaths
  rw [h]
  simp [he]

/-- A FIR command ends with the invariant: completed, its sequencer rests; cut short, a path of it is indeterminate; and
turned away, nothing changed. -/
theorem Settles.onPaths_firInv {c : Cmd α} {ps : List Path}
    (hp : ∀ u : State, (u.markIndet ps).indet.tx = true ∨ (u.markIndet ps).indet.rx = true) (h : Settles c s)
    (hs : s.FirInv) : (endState (onPaths ps c s)).FirInv := by
  cases hc : c s with
  | ok a t =>
    rw [onPaths_ok hc]
    exact t.blur_firInv fun hne => absurd (h.ok_idle a t hc) hne
  | error e t =>
    by_cases he : e.kind = .transport
    · rw [onPaths_cut hc he]
      exact (t.markIndet ps).blur_firInv fun _ => hp t
    · rw [onPaths_error hc he]
      obtain rfl := h.turned_away e t hc he
      exact hs

theorem sameFir_of_run {c : Cmd Value} (he : run c s = .next t) : SameFir (endState (c s.begin)) t := by
  obtain rfl : s.complete c = t := by simpa [run] using he
  unfold State.complete
  cases c s.begin <;> exact ⟨rfl, rfl, rfl⟩

theorem Settles.run_firInv {c : Cmd Value} {ps : List Path}
    (hp : ∀ u : State, (u.markIndet ps).indet.tx = true ∨ (u.markIndet ps).indet.rx = true) (h : Settles c s.begin)
    (hs : s.FirInv) (he : run (onPaths ps c) s = .next t) : t.FirInv :=
  (sameFir_of_run he).firInv (h.onPaths_firInv hp ((SameFir.command.begin s).firInv hs))

/-! ### The commands -/

/-- A codec command keeps every frame of the operand checks. -/
theorem CommandFrame.of_codec (h : CommandFrame P) (r : ReadFrame P) {i : Instr} (hi : codecSide i = true)
    (he : exec i s = .next t) : P s t := by
  have f := h.toFraming
  cases i with
  | firEncode v => exact h.of_run (.bind f (.checkRange f v _ _) fun _ => .pure f _) he
  | firDecode high low =>
    exact h.of_run (.bind f (.checkRange f high _ _) fun _ => .bind f (.checkRange f low _ _) fun _ => .pure f _) he
  | firSetBit j w sw =>
    exact h.of_run (.bind f (.checkRange f j _ _) fun _ => .bind f (.checkRange f w _ _) fun _ =>
      .bind f (r.checkSwitch sw) fun _ => .pure f _) he
  | firBuildCfg x taps gain =>
    exact h.of_run (.bind f (.checkPath f x) fun p => .bind f (.buildConfig f p taps gain) fun _ => .pure f _) he
  | toneGetFs | toneSetFreq | toneGetFreq | toneSetPhase | toneGetPhase | toneSetAmp | toneGetAmp | toneState
  | toneStatus | ddsSetAmp | ddsSetFreq | ddsSetPhase | ddsIsOff | ddsStatus | ddsState | firWriteTx | firWriteRx
  | firReadTx | firReadRx | firLoadFile => exact nomatch hi

theorem exec_keeps_firInv {i : Instr} (hs : s.FirInv) (he : exec i s = .next t) : t.FirInv := by
  cases i with
  | firWriteTx c taps gain => exact (firWrite_settles .tx c taps gain _).run_firInv (fun _ => .inl rfl) hs he
  | firWriteRx c taps gain => exact (firWrite_settles .rx c taps gain _).run_firInv (fun _ => .inr rfl) hs he
  | firReadTx => exact (firRead_settles .tx _).run_firInv (fun _ => .inl rfl) hs he
  | firReadRx => exact (firRead_settles .rx _).run_firInv (fun _ => .inr rfl) hs he
  | firLoadFile name => exact (loadFile_settles name _).run_firInv (ps := [.tx, .rx]) (fun _ => .inl rfl) hs he
  | firEncode | firDecode | firSetBit | firBuildCfg =>
    exact (SameFir.command.of_codec (SameFir.tone .one).toReadFrame rfl he).firInv hs
  | toneGetFs | toneSetFreq | toneGetFreq | toneSetPhase | toneGetPhase | toneSetAmp | toneGetAmp | toneState
  | toneStatus | ddsSetAmp | ddsSetFreq | ddsSetPhase | ddsIsOff | ddsStatus | ddsState =>
    exact (SameFir.command.of_dds SameFir.tone rfl he).firInv hs

theorem exec_keeps_inv {i : Instr} (hs : s.Inv) (hb : s.boot = .ready) (he : exec i s = .next t) : t.Inv := by
  obtain ⟨-, hsetup, hboot⟩ := exec_keeps_inputs he
  refine State.inv_of_ready (hboot.trans hb) (exec_keeps_firInv (hs.firInv hb) he) ?_
  rw [hsetup, hs.ready_complete hb]

/-! ### The inputs of the block -/

theorem accept_keeps_inv {c : RawCommand} (hs : s.Inv) (he : accept c s = .next t) : t.Inv ∧ t.setup = s.setup := by
  cases hb : s.boot with
  | ready =>
    cases hd : decode c with
    | ok i =>
      rw [accept_ready hb hd] at he
      exact ⟨exec_keeps_inv hs hb he, (exec_keeps_inputs he).setup⟩
    | error e =>
      obtain rfl : s.refuseCommand c.opc = t := by simpa [accept, hb, hd] using he
      exact ⟨hs.congr ⟨rfl, rfl, rfl⟩ ⟨rfl, rfl, rfl⟩, rfl⟩
  | failed =>
    obtain rfl : s.forget = t := by simpa [accept, hb] using he
    exact ⟨State.inv_of_failed hb, rfl⟩
  | absent k => simp [accept, hb] at he

theorem ToneFrame.toneReset {t : Tone} (h : ToneFrame P t) : Keeps P (toneReset t) :=
  have f := h.toFraming
  have r := h.toReadFrame
  .bind f (r.attrGet _ _) fun _ => .bind f (r.attrGet _ _) fun _ => .bind f (.update fun s => h.regs s _) fun _ =>
    .bind f (h.attrSet _ _ _) fun _ => .bind f (h.attrSet _ _ _) fun _ => .bind f (.update fun s => h.regs s _) fun _ =>
      .update fun s => h.regs s _

theorem Keeps.resetTones (ht : ∀ t, ToneFrame P t) : Keeps P resetTones :=
  .bind (ht .one).toFraming (ht .one).toneReset fun _ => (ht .two).toneReset

theorem construct_absent {h : Handle} (ha : s.setup.firstAbsent = some h) :
    s.construct = { s.begin.takeError ⟨.notFound, .name (Config.handleName h)⟩ with boot := .absent h } := by
  simp only [State.construct, ha]

theorem construct_ok (ha : s.setup.firstAbsent = none) (hr : resetTones s.resetRegisters = .ok () u) :
    s.construct = { u with boot := .ready } := by
  simp only [State.construct, ha, hr]

theorem construct_error {e : Failure} (ha : s.setup.firstAbsent = none)
    (hr : resetTones s.resetRegisters = .error e u) : s.construct = { u.takeError e with boot := .failed } := by
  simp only [State.construct, ha, hr]

/-- A construction ends with the invariant, whatever the state it starts from. -/
theorem construct_inv (s : State) : s.construct.Inv ∧ s.construct.setup = s.setup := by
  cases ha : s.setup.firstAbsent with
  | some h =>
    rw [construct_absent ha]
    exact ⟨State.inv_of_absent (h := h) rfl ha, rfl⟩
  | none =>
    obtain ⟨-, hsetup, -⟩ := Keeps.resetTones SameInputs.tone s.resetRegisters
    obtain ⟨-, hseq, hindet⟩ := Keeps.resetTones SameFir.tone s.resetRegisters
    cases hr : resetTones s.resetRegisters with
    | error e u =>
      rw [construct_error ha hr]
      rw [hr] at hsetup
      exact ⟨State.inv_of_failed rfl, hsetup⟩
    | ok a u =>
      rw [construct_ok ha hr]
      rw [hr] at hsetup hseq hindet
      change u.setup = s.setup at hsetup
      refine ⟨State.inv_of_ready rfl (State.firInv_of_determinate hseq hindet) ?_, hsetup⟩
      change u.setup.firstAbsent = none
      rw [hsetup, ha]

/-- Settles O58: a command on a ready block keeps the FIR subsystem's part (`exec_keeps_firInv`), a reset makes the
invariant anew (`construct_inv`), and the other inputs touch nothing it speaks of. -/
theorem stepKeepsInvariant : Obligations.StepKeepsInvariant := by
  intro s t hs he
  unfold step at he
  cases hp : s.port with
  | nil =>
    obtain rfl : s = t := by simpa [hp] using he
    exact ⟨hs, rfl⟩
  | cons x rest =>
    rw [hp] at he
    have htaken : State.Inv { s with port := rest } := { hs with }
    cases x with
    | command c => exact accept_keeps_inv (s := { s with port := rest }) htaken he
    | reset =>
      obtain rfl : ({ s with port := rest } : State).construct = t := Host.Outcome.next.inj he
      exact construct_inv { s with port := rest }
    | samplingRate ch fs =>
      obtain rfl : ({ s with port := rest } : State).changeRate ch fs = t := Host.Outcome.next.inj he
      exact ⟨htaken.congr ⟨rfl, rfl, rfl⟩ ⟨rfl, rfl, rfl⟩, rfl⟩
    | secondAgent => exact nomatch he

/-! ### After reset -/

theorem Setup.firstAbsent_of_nil {x : Setup} (h : x.absent = []) : x.firstAbsent = none := by
  simp [Setup.firstAbsent, h]

/-- Settles O59: a completed reset leaves the sequencer at rest, both paths determinate, on a platform that lacks
nothing. -/
theorem resetHasInvariant : Obligations.ResetHasInvariant :=
  State.inv_of_ready rfl (State.firInv_of_determinate rfl rfl) (Setup.firstAbsent_of_nil rfl)

/-! ## DDS.ISOFF (R37, 41_dual_tone R133) -/

/-- Settles O33: the answer compares the two values read, and the first read that fails raises. -/
theorem ddsIsOffMeansBothSilent : Obligations.DdsIsOffMeansBothSilent := by
  refine ⟨fun s h => ?_, fun s b rest h => ?_, fun s b rest h => ?_⟩
  · refine ⟨s.dds.one.i.scale = 0 && s.dds.two.i.scale = 0, ?_, by simp⟩
    have h1 : s.begin.perfect 1 := State.perfect_mono (j := 1) h (by omega)
    have h2 : (s.begin.ran [.attrGet ⟨.one, .i⟩ .scale]).perfect 1 := State.perfect_ran (s := s.begin) h
    rw [← State.begin_ran]
    refine run_ok ?_
    rw [Cmd.bind_apply, attrGet_done h1]
    dsimp only
    rw [Cmd.bind_apply, attrGet_done h2, State.ran_ran]
    rfl
  · rw [← State.begin_ran]
    refine run_error (e := transportError _) ?_
    rw [Cmd.bind_apply, attrGet_failed (s := s.begin) h]
  · have h1 : s.begin.perfect 1 := by simp [State.perfect, State.begin, h]
    have h2 : (s.begin.ran [.attrGet ⟨.one, .i⟩ .scale]).transport = .failed b :: rest := by
      simp [State.ran, h]
    rw [← State.begin_ran]
    refine run_error (e := transportError _) ?_
    rw [Cmd.bind_apply, attrGet_done h1]
    dsimp only
    rw [Cmd.bind_apply, attrGet_failed h2, State.ran_ran]
    rfl

/-! ## The tone operations that end ok, on any transport -/

theorem setFreq_ok {t : Tone} {f : Rat} {a : Rat} (h : setFreq t f s = .ok a u) :
    ∃ T, u = ((s.ran (freqTrace t (s.dds.get t) f)).withTone t (freqChannels s.setup.coercion (s.dds.get t) f)
      { s.tones.get t with sb := sidebandOf f }).withTransport T := by
  rcases le_or_gt |f| ((s.dds.get t).i.fs / 2) with hb | hb
  · exact ((setFreq_script hb).of_ok h).2
  · exact ((setFreq_script_beyond hb).not_ok h).elim

theorem setPhase_ok {t : Tone} {phi : Rat} {a : Unit} (h : setPhase t phi s = .ok a u) :
    ∃ T, u = ((s.ran (phaseTrace t s.setup.coercion (s.tones.get t).sb phi)).withTone t
      (phaseChannels s.setup.coercion (s.dds.get t) (s.tones.get t).sb phi) (s.tones.get t)).withTransport T :=
  ((setPhase_script s t phi).of_ok h).2

theorem setAmp_ok {t : Tone} {x : Rat} {a : Unit} (h : setAmp t x s = .ok a u) :
    ∃ T, u = ((s.ran (ampTrace t x)).withTone t (ampChannels s.setup.coercion (s.dds.get t) x)
      { s.tones.get t with muted := false }).withTransport T := by
  by_cases hb : x < 0 ∨ 1 < x
  · exact ((setAmp_script_beyond hb).not_ok h).elim
  · push Not at hb
    exact ((setAmp_script hb.1 hb.2).of_ok h).2

theorem setState_ok {t : Tone} {on : Bool} {a : Unit} (h : setState t on s = .ok a u) :
    ∃ T, u = ((s.ran (switchTrace t (s.tones.get t) on)).withTone t
      (switchChannels s.setup.coercion (s.dds.get t) (s.tones.get t) on)
      (switchRegs (s.dds.get t) (s.tones.get t) on)).withTransport T :=
  ((setState_script s t on).of_ok h).2

/-! ## The tone invariants (R36) -/

section ToneInvariants

/-- The tone invariants, of one tone's channels and registers. -/
structure ToneLaw (x : PerChan Channel) (r : ToneRegs) : Prop where
  phase_q : x.q.phase = deriveQPhase x.i.phase r.sb
  same_freq : x.i.freq = x.q.freq
  same_scale : x.i.scale = x.q.scale
  muted_silent : r.muted = true → x.i.scale = 0

theorem State.toneInv_iff {t : Tone} : s.ToneInv t ↔ ToneLaw (s.dds.get t) (s.tones.get t) :=
  ⟨fun ⟨hphase, hfreq, hscale, hmuted⟩ => ⟨hphase, hfreq, hscale, hmuted⟩,
    fun ⟨hphase, hfreq, hscale, hmuted⟩ => ⟨hphase, hfreq, hscale, hmuted⟩⟩

variable {x : PerChan Channel} {r : ToneRegs}

theorem ToneLaw.freq (h : ToneLaw x r) (f : Rat) : ToneLaw (freqChannels .ideal x f) { r with sb := sidebandOf f } where
  phase_q := rfl
  same_freq := rfl
  same_scale := h.same_scale
  muted_silent := h.muted_silent

theorem ToneLaw.phase (h : ToneLaw x r) (phi : Rat) : ToneLaw (phaseChannels .ideal x r.sb phi) r where
  phase_q := rfl
  same_freq := h.same_freq
  same_scale := h.same_scale
  muted_silent := h.muted_silent

/-- One scale on both channels keeps the law where MUTED allows it. -/
theorem ToneLaw.scale (h : ToneLaw x r) (a c : Rat) {m : Bool} (hm : m = true → a = 0) :
    ToneLaw (ampChannels .ideal x a) { r with cache := c, muted := m } where
  phase_q := h.phase_q
  same_freq := h.same_freq
  same_scale := rfl
  muted_silent := hm

theorem ToneLaw.amp (h : ToneLaw x r) (a : Rat) : ToneLaw (ampChannels .ideal x a) { r with muted := false } :=
  h.scale a r.cache fun hm => nomatch hm

theorem ToneLaw.switch (h : ToneLaw x r) (on : Bool) :
    ToneLaw (switchChannels .ideal x r on) (switchRegs x r on) := by
  unfold switchChannels switchRegs
  cases on <;> cases hm : r.muted
  case true.true => exact h.amp r.cache
  case false.false => exact h.scale 0 x.i.scale fun _ => rfl
  case true.false => exact h
  case false.true => exact h

/-- The two tones under ideal coercion, of which the one looked at has its invariants. -/
structure State.IdealTone (t : Tone) (s : State) : Prop where
  ideal : s.setup.coercion = .ideal
  law : ToneLaw (s.dds.get t) (s.tones.get t)

/-- An operation that replaced some tone's channels and registers keeps the invariants of every tone, if it kept its
own tone's law. -/
theorem State.IdealTone.of_withTone {t w : Tone} {xs : List Transaction} (h : s.IdealTone w)
    (hu : ∃ T, u = ((s.ran xs).withTone t x r).withTransport T)
    (hl : ToneLaw (s.dds.get t) (s.tones.get t) → ToneLaw x r) : u.IdealTone w := by
  obtain ⟨T, rfl⟩ := hu
  refine ⟨h.ideal, ?_⟩
  by_cases hw : w = t
  · subst hw
    simpa using hl h.law
  · simpa [hw, State.ran] using h.law

/-- The program, when it ends with a value, keeps a property of the state. -/
def OkKeeps (Q : State → Prop) (c : Cmd α) : Prop := ∀ s a t, Q s → c s = .ok a t → Q t

variable {Q : State → Prop}

theorem OkKeeps.pure (a : α) : OkKeeps Q (pure a : Cmd α) := fun s b t hs h => by
  obtain ⟨-, rfl⟩ : a = b ∧ s = t := by simpa using h
  exact hs

theorem OkKeeps.raise (k : ErrKind) (i : Info) : OkKeeps Q (raise k i : Cmd α) := fun _ _ _ _ h => nomatch h

theorem OkKeeps.ite {p : Prop} [Decidable p] {c d : Cmd α} (hc : OkKeeps Q c) (hd : OkKeeps Q d) :
    OkKeeps Q (if p then c else d) := by
  by_cases h : p <;> simpa [h]

theorem OkKeeps.bind {c : Cmd α} {f : α → Cmd β} (hc : OkKeeps Q c) (hf : ∀ a, OkKeeps Q (f a)) :
    OkKeeps Q (c >>= f) := by
  intro s b t hs h
  obtain ⟨a, u, ha, hb⟩ := Cmd.bind_ok.mp h
  exact hf a u b t (hc s a u hs ha) hb

/-- What holds however a program ends holds where it ends with a value. -/
theorem OkKeeps.of_keeps {c : Cmd α} (h : Keeps P c) (hq : ∀ s t, P s t → Q s → Q t) : OkKeeps Q c := by
  intro s a t hs ha
  have hk := h s
  rw [ha] at hk
  exact hq s t hk hs

theorem OkKeeps.whenGiven {d : Option Rat} {f : Rat → Cmd Unit} (hf : ∀ x, OkKeeps Q (f x)) :
    OkKeeps Q (whenGiven d f) := by
  cases d with
  | none => exact .pure ()
  | some x => exact hf x

/-- A command that answers ok keeps what its program keeps and what the start and the response keep. -/
theorem OkKeeps.run {c : Cmd Value} {v : Value} (hc : OkKeeps Q c) (hb : ∀ s, Q s → Q s.begin)
    (hr : ∀ s r, Q s → Q (s.respond r)) (hs : Q s) (he : run c s = .next t) (hv : t.resp = some (.ok v)) : Q t := by
  obtain ⟨u, hu, rfl⟩ := run_answered_ok he hv
  exact hr u _ (hc _ _ _ (hb s hs) hu)

/-! ### The tone operations -/

section ToneOperations

variable {w : Tone}

theorem setFreq_keeps_tone (t : Tone) (f : Rat) : OkKeeps (State.IdealTone w) (setFreq t f) :=
  fun _ _ _ hs h => hs.of_withTone (setFreq_ok h) fun hl => hs.ideal ▸ hl.freq f

theorem setPhase_keeps_tone (t : Tone) (phi : Rat) : OkKeeps (State.IdealTone w) (setPhase t phi) :=
  fun _ _ _ hs h => hs.of_withTone (setPhase_ok h) fun hl => hs.ideal ▸ hl.phase phi

theorem setAmp_keeps_tone (t : Tone) (x : Rat) : OkKeeps (State.IdealTone w) (setAmp t x) :=
  fun _ _ _ hs h => hs.of_withTone (setAmp_ok h) fun hl => hs.ideal ▸ hl.amp x

theorem setState_keeps_tone (t : Tone) (on : Bool) : OkKeeps (State.IdealTone w) (setState t on) :=
  fun _ _ _ hs h => hs.of_withTone (setState_ok h) fun hl => hs.ideal ▸ hl.switch on

theorem setLevel_keeps_tone (t : Tone) (d : Option Rat) : OkKeeps (State.IdealTone w) (setLevel t d) := by
  cases d with
  | none => exact setState_keeps_tone t false
  | some d => exact .ite (.raise _ _) (setAmp_keeps_tone t _)

/-! ### The commands -/

/-- A command that only reads keeps every frame that allows the reads of the tones. -/
theorem CommandFrame.of_read (h : CommandFrame P) (r : ReadFrame P) {i : Instr} (hi : readSide i = true)
    (he : exec i s = .next t) : P s t := by
  have f := h.toFraming
  cases i with
  | toneGetFs z => exact h.of_run (.bind f (r.checkTone z) fun _ => .bind f (r.attrGet _ _) fun _ => .pure f _) he
  | toneGetFreq z => exact h.of_run (.bind f (r.checkTone z) fun u => .bind f (r.getFreq u) fun _ => .pure f _) he
  | toneGetPhase z ch =>
    exact h.of_run (.bind f (r.checkTone z) fun _ => .bind f (r.checkChan ch) fun _ => .bind f (r.attrGet _ _) fun _ =>
      .pure f _) he
  | toneGetAmp z => exact h.of_run (.bind f (r.checkTone z) fun _ => .bind f (r.attrGet _ _) fun _ => .pure f _) he
  | toneStatus z => exact h.of_run (.bind f (r.checkTone z) fun u => .bind f (r.getStatus u) fun _ => .pure f _) he
  | ddsIsOff => exact h.of_run (.bind f (r.attrGet _ _) fun _ => .bind f (r.attrGet _ _) fun _ => .pure f _) he
  | ddsStatus z => exact h.of_run (.bind f (r.checkTone z) fun u => .bind f (r.getStatus u) fun _ => .pure f _) he
  | toneSetFreq | toneSetPhase | toneSetAmp | toneState | ddsSetAmp | ddsSetFreq | ddsSetPhase | ddsState | firEncode
  | firDecode | firSetBit | firBuildCfg | firWriteTx | firWriteRx | firReadTx | firReadRx | firLoadFile =>
    exact nomatch hi

theorem SameDds.read : ReadFrame SameDds := ⟨SameDds.framing, SameDds.fir.issue⟩

/-- The tone invariants look at the DDS subsystem and the launch parameters. -/
theorem State.IdealTone.congr (h : s.IdealTone w) (hd : SameDds s t) (hi : SameInputs s t) : t.IdealTone w where
  ideal := hi.setup.symm ▸ h.ideal
  law := by
    rw [hd.dds, hd.tones]
    exact h.law

theorem State.IdealTone.reads : ReadFrame fun s t : State => s.IdealTone w → t.IdealTone w where
  refl _ := id
  trans _ _ _ h k := k ∘ h
  issue _ _ h := ⟨h.ideal, h.law⟩

theorem checkTone_keeps_tone (z : Int) : OkKeeps (State.IdealTone w) (checkTone z) :=
  .of_keeps (State.IdealTone.reads.checkTone z) fun _ _ h => h

theorem checkSwitch_keeps_tone (x : Symbol) : OkKeeps (State.IdealTone w) (checkSwitch x) :=
  .of_keeps (State.IdealTone.reads.checkSwitch x) fun _ _ h => h

/-- A command that ends ok keeps the invariants of each tone: the eight that write tones by their operations, the others
because they leave both tones alone. -/
theorem exec_ok_keeps_tone {i : Instr} {v : Value} (hs : s.IdealTone w) (he : exec i s = .next t)
    (hv : t.resp = some (.ok v)) : t.IdealTone w := by
  have writes {c : Cmd Value} (hc : OkKeeps (State.IdealTone w) c) (he : run c s = .next t) : t.IdealTone w :=
    hc.run (fun _ h => ⟨h.ideal, h.law⟩) (fun _ _ h => ⟨h.ideal, h.law⟩) hs he hv
  have leaves (hd : SameDds s t) : t.IdealTone w := hs.congr hd (exec_keeps_inputs he)
  cases i with
  | toneSetFreq z f =>
    exact writes (.bind (checkTone_keeps_tone z) fun t => .bind (setFreq_keeps_tone t f) fun _ => .pure _) he
  | toneSetPhase z q =>
    exact writes (.bind (checkTone_keeps_tone z) fun t => .bind (setPhase_keeps_tone t q) fun _ => .pure _) he
  | toneSetAmp z a =>
    exact writes (.bind (checkTone_keeps_tone z) fun t => .bind (setAmp_keeps_tone t a) fun _ => .pure _) he
  | toneState z sw =>
    exact writes (.bind (checkTone_keeps_tone z) fun t => .bind (checkSwitch_keeps_tone sw) fun on =>
      .bind (setState_keeps_tone t on) fun _ => .pure _) he
  | ddsSetAmp d1 d2 =>
    exact writes (.bind (setLevel_keeps_tone .one d1) fun _ => .bind (setLevel_keeps_tone .two d2) fun _ => .pure _) he
  | ddsSetFreq f1 f2 =>
    exact writes (.bind (setFreq_keeps_tone .one f1) fun _ =>
      .bind (.whenGiven fun f => .bind (setFreq_keeps_tone .two f) fun _ => .pure _) fun _ => .pure _) he
  | ddsSetPhase p1 p2 =>
    exact writes (.bind (setPhase_keeps_tone .one p1) fun _ => .bind (.whenGiven (setPhase_keeps_tone .two)) fun _ =>
      .pure _) he
  | ddsState sw =>
    exact writes (.bind (checkSwitch_keeps_tone sw) fun on => .bind (setState_keeps_tone .one on) fun _ =>
      .bind (setState_keeps_tone .two on) fun _ => .pure _) he
  | toneGetFs | toneGetFreq | toneGetPhase | toneGetAmp | toneStatus | ddsIsOff | ddsStatus =>
    exact leaves (SameDds.command.of_read SameDds.read rfl he)
  | firEncode | firDecode | firSetBit | firBuildCfg | firWriteTx | firWriteRx | firReadTx | firReadRx | firLoadFile =>
    exact leaves (SameDds.command.of_fir SameDds.fir rfl he)

/-- Settles O24: each tone operation that ends ok leaves channels and registers that obey the law (`ToneLaw.freq`,
`.phase`, `.amp`, `.switch`), and every command is made of them and of what leaves the tones alone. -/
theorem okCommandsKeepToneInvariants : Obligations.OkCommandsKeepToneInvariants := by
  intro i s s' t v hideal hinv he hv
  have hs : s.IdealTone t := ⟨hideal, State.toneInv_iff.mp hinv⟩
  exact State.toneInv_iff.mpr (exec_ok_keeps_tone hs he hv).law

end ToneOperations

/-! ### The coupling of the phases (40_dds_tone R101, R103) -/

/-- The Q phase derived from the I phase under the sideband in force (R36 item 1). -/
def State.PhasesCoupled (s : State) (t : Tone) : Prop :=
  (s.dds.get t).q.phase = deriveQPhase (s.dds.get t).i.phase (s.tones.get t).sb

theorem setFreq_couples {t : Tone} {f : Rat} {a : Rat} (hideal : s.setup.coercion = .ideal)
    (h : setFreq t f s = .ok a u) : u.PhasesCoupled t := by
  obtain ⟨T, rfl⟩ := setFreq_ok h
  simp [State.PhasesCoupled, hideal, freqChannels, coerce]

theorem setPhase_couples {t : Tone} {phi : Rat} {a : Unit} (hideal : s.setup.coercion = .ideal)
    (h : setPhase t phi s = .ok a u) : u.PhasesCoupled t := by
  obtain ⟨T, rfl⟩ := setPhase_ok h
  simp [State.PhasesCoupled, hideal, phaseChannels, coerce]

/-- A tone command that answers ok ran its program on the tone it names. -/
theorem tone_run_ok {t : Tone} {f : Tone → Cmd Value} {v : Value} (he : run (checkTone t.index >>= f) s = .next u)
    (hv : u.resp = some (.ok v)) : ∃ r, f t s.begin = .ok v r ∧ u = r.respond (.ok v) := by
  obtain ⟨r, hr, hu⟩ := run_answered_ok he hv
  rw [Cmd.bind_apply, checkTone_index] at hr
  exact ⟨r, hr, hu⟩

/-- Settles O25: both operations write the derived Q phase last. -/
theorem settingFreqOrPhaseCouplesPhases : Obligations.SettingFreqOrPhaseCouplesPhases := by
  intro t x s s' v hideal he hv
  have hb : s.begin.setup.coercion = .ideal := hideal
  rcases he with he | he
  · obtain ⟨r, hr, rfl⟩ := tone_run_ok he hv
    obtain ⟨a, u, hset, hpure⟩ := Cmd.bind_ok.mp hr
    cases hpure
    exact (setFreq_couples hb hset : r.PhasesCoupled t)
  · obtain ⟨r, hr, rfl⟩ := tone_run_ok he hv
    obtain ⟨a, u, hset, hpure⟩ := Cmd.bind_ok.mp hr
    cases hpure
    exact (setPhase_couples hb hset : r.PhasesCoupled t)

end ToneInvariants

/-! ## Uploads (R25, R38, 43_fir_programmer R171) -/

section Uploads

variable {p : Path} {c : List Int} {taps : Int} {gain : Rat}

theorem exec_upload (p : Path) (c : List Int) (taps : Int) (gain : Rat) (s : State) :
    exec (uploadInstr p c taps gain) s = run (onPaths [p] (firWrite p c taps gain)) s := by
  cases p <;> rfl

/-- What a legal upload leaves, before `blur`, when none of its transactions fails: on any FIR device (R171). -/
def State.uploaded (s : State) (p : Path) (c : List Int) (taps : Int) (gain : Rat) : State :=
  { s.ran (uploadTrace p c (configWord taps (gainBit p gain)) gain) with
    seq := .idle
    indet := s.indet.set p false
    fir := { s.fir with
      enable := "1"
      regs := s.fir.regs.uploadWrites s.setup.firDevice p c (configWord taps (gainBit p gain)) (gainCode p gain) } }

theorem firWrite_done (h : LegalUpload p c taps gain) (hp : s.perfect (uploadCount p)) :
    firWrite p c taps gain s = .ok .unit (s.uploaded p c taps gain) := by
  unfold firWrite
  rw [Cmd.bind_apply, validateWrite_legal h]
  dsimp only
  rw [Cmd.bind_apply, upload_done hp]
  rfl

theorem firWrite_uploaded_script (h : LegalUpload p c taps gain) (s : State) :
    Script (firWrite p c taps gain) s
      (steps (fun j => s.ctl.atSeq (uploadSeq p j)) (uploadTrace p c (configWord taps (gainBit p gain)) gain))
      (.ok .unit (s.uploaded p c taps gain)) := by
  obtain ⟨v, hv, -⟩ := firWrite_script h s
  refine hv.finish rfl fun T => ?_
  have hp : (s.withTransport (List.replicate (uploadTrace p c (configWord taps (gainBit p gain)) gain).length .done
      ++ T)).perfect (uploadCount p) := by
    rw [uploadTrace_length]
    exact s.perfect_scripted _ T
  rw [steps_length, firWrite_done h hp]
  simp only [State.uploaded, State.ran_scripted]
  rfl

/-- An upload that ends ok had legal operands and left what it leaves when nothing fails. -/
theorem firWrite_ok {v : Value} (h : firWrite p c taps gain s = .ok v u) :
    LegalUpload p c taps gain ∧ ∃ T, u = (s.uploaded p c taps gain).withTransport T := by
  by_cases hl : LegalUpload p c taps gain
  · exact ⟨hl, ((firWrite_uploaded_script hl s).of_ok h).2⟩
  · obtain ⟨e, he⟩ := firWrite_script_illegal hl s
    exact (he.not_ok h).elim

theorem onPaths_ok_inv {c : Cmd α} {ps : List Path} {a : α} (h : onPaths ps c s = .ok a t) :
    ∃ u, c s = .ok a u ∧ t = u.blur := by
  cases hc : c s with
  | ok b u =>
    rw [onPaths_ok hc] at h
    cases h
    exact ⟨u, rfl, rfl⟩
  | error e u =>
    unfold onPaths at h
    rw [hc] at h
    exact nomatch h

/-- On the reference device an upload leaves its path's registers and bank as R171 says (20_memory R58). -/
theorem State.uploaded_path_reference (h : LegalUpload p c taps gain) (hd : s.setup.firDevice = .reference) :
    (s.uploaded p c taps gain).fir.regs.paths.get p = uploadedPath c (configWord taps (gainBit p gain)) := by
  simp only [State.uploaded]
  rw [hd, uploadWrites_reference p c _ gain _ (configWord_bits h), PerPath.get_set, if_pos rfl]

/-- A slot of the bank after an upload: its tap, or zero. -/
theorem uploadedBank_toInt (h : ∀ v ∈ c, -32768 ≤ v ∧ v ≤ 32767) (k : Fin 128) :
    ((uploadedBank c)[k.val]'k.isLt).toInt = if k.val < c.length then c.getD k 0 else 0 := by
  simp only [uploadedBank, Vector.getElem_ofFn]
  by_cases hk : k.val < c.length
  · obtain ⟨hlow, hhigh⟩ := h _ (List.getElem_mem hk)
    rw [if_pos hk, List.getD_eq_getElem _ _ hk, toInt_ofInt_tap hlow hhigh]
  · rw [if_neg hk, List.getD_eq_default _ _ (not_lt.mp hk)]
    rfl

/-- Settles O45: an upload that ends ok had no transaction fail, so the bank is R171's; its path is determinate after
it, so `blur` leaves the bank alone. -/
theorem uploadZeroFillsBank : Obligations.UploadZeroFillsBank := by
  intro p c taps gain s t hd he hr k
  rw [exec_upload] at he
  obtain ⟨r, hrun, rfl⟩ := run_answered_ok he hr
  obtain ⟨u, hu, rfl⟩ := onPaths_ok_inv hrun
  obtain ⟨hl, T, rfl⟩ := firWrite_ok hu
  have hdet : ((s.begin.uploaded p c taps gain).withTransport T).indet.get p = false := by
    simp [State.uploaded]
  have hpath : ((s.begin.uploaded p c taps gain).withTransport T).blur.fir.regs.paths.get p
      = uploadedPath c (configWord taps (gainBit p gain)) :=
    (State.blur_path _ hdet).trans (State.uploaded_path_reference hl hd)
  rw [State.respond_fir, hpath]
  exact uploadedBank_toInt hl.values k

/-- A program with a script, on a transport that fails at transaction `n` of it, stops there. -/
theorem Script.fails_at {c : Cmd α} {k : Nat → Ctl} {xs : List Transaction} {r : EStateM.Result Failure State α}
    {n : Nat} {b : Bool} {rest : List Draw} (h : Script c s (steps k xs) r) (hn : n < xs.length)
    (hs : s.transport = List.replicate n .done ++ .failed b :: rest) :
    ∃ e, c s = .error (transportError xs[n]) (s.reached e (xs.take (n + 1)) (k n) rest) := by
  have hx : (steps k xs)[n]? = some (xs[n], k n) := by
    rw [steps_get, List.getElem?_eq_getElem hn]
    rfl
  have hdone : allDone s.transport s.draws (steps k xs) n := by
    rw [hs]
    exact fun _ _ hj _ => drawAt_replicate hj
  have hfail : drawAt s.transport s.draws n xs[n] = .failed b := by
    rw [hs]
    exact drawAt_failed
  have hrest : s.transport.drop (n + 1) = rest := by simp [hs, List.drop_append]
  have hc := h.fails s.transport n _ b hx hdone hfail
  rw [withTransport_self, List.map_take, steps_fst, hrest] at hc
  exact ⟨_, hc⟩

/-- Settles O52: the upload's script says where SEQ stands at transaction `n`, and a transport error marks the path. -/
theorem uploadStopsWhereItFails : Obligations.UploadStopsWhereItFails := by
  intro p c taps gain s n b rest hl hn hs
  obtain ⟨v, hv, -⟩ := firWrite_script hl s.begin
  rw [← uploadTrace_length p c (configWord taps (gainBit p gain)) gain] at hn
  obtain ⟨e, hw⟩ := hv.fails_at hn hs
  rw [exec_upload]
  refine ⟨_, run_error (onPaths_transport hw), ?_, ?_, ?_⟩
  · simp [State.reached, Ctl.atSeq]
  · simp [State.reached, Ctl.atSeq, State.ctl]
  · simp [State.reached]

end Uploads

end StateFamily

end Sys2Proof.Machine
end

section
/-! PROOFS. The statements of 20_memory: that the reading commands leave registers and device values alone (R56), and
the register map (R50, R52). -/

namespace Sys2Proof.Machine

/-! ## The reading commands of the DDS (R56, 60_exceptions R210) -/

theorem SameFir.read : ReadFrame SameFir := (SameFir.tone .one).toReadFrame

/-- Settles O22: the reads of a tone keep the state of both subsystems, and a reading command is made of such reads. -/
theorem readingCommandsChangeNothing : Obligations.ReadingCommandsChangeNothing := by
  intro i s t hi he
  obtain ⟨hdds, htones⟩ := SameDds.command.of_read SameDds.read hi he
  obtain ⟨hfir, hseq, hindet⟩ := SameFir.command.of_read SameFir.read hi he
  exact ⟨hdds, htones, hfir, hseq, hindet⟩

/-! ## The register map (R50, R52) -/

/-- The map read backwards: the register at an address. -/
def registerAt : Nat → Option (WriteReg ⊕ ReadReg)
  | 0x60 => some (.inl (.coeffAddr .tx))
  | 0x61 => some (.inl (.writeLo .tx))
  | 0x62 => some (.inl (.writeHi .tx))
  | 0x63 => some (.inr (.readLo .tx))
  | 0x64 => some (.inr (.readHi .tx))
  | 0x65 => some (.inl (.firConfig .tx))
  | 0xF0 => some (.inl (.coeffAddr .rx))
  | 0xF1 => some (.inl (.writeLo .rx))
  | 0xF2 => some (.inl (.writeHi .rx))
  | 0xF3 => some (.inr (.readLo .rx))
  | 0xF4 => some (.inr (.readHi .rx))
  | 0xF5 => some (.inl (.firConfig .rx))
  | 0xF6 => some (.inl .firGain)
  | _ => none

theorem registerAt_writeReg (r : WriteReg) : registerAt r.addr = some (.inl r) := by
  cases r with
  | coeffAddr p | writeLo p | writeHi p | firConfig p => cases p <;> rfl
  | firGain => rfl

theorem registerAt_readReg (r : ReadReg) : registerAt r.addr = some (.inr r) := by
  cases r with
  | readLo p | readHi p => cases p <;> rfl

theorem WriteReg.addr_injective : Function.Injective WriteReg.addr := by
  intro r q h
  have hr := registerAt_writeReg r
  rw [h, registerAt_writeReg q] at hr
  exact (Sum.inl.inj (Option.some.inj hr)).symm

theorem ReadReg.addr_injective : Function.Injective ReadReg.addr := by
  intro r q h
  have hr := registerAt_readReg r
  rw [h, registerAt_readReg q] at hr
  exact (Sum.inr.inj (Option.some.inj hr)).symm

theorem WriteReg.addr_ne_readReg (r : WriteReg) (q : ReadReg) : r.addr ≠ q.addr := by
  intro h
  have hr := registerAt_writeReg r
  rw [h, registerAt_readReg q] at hr
  exact nomatch hr

theorem WriteReg.addr_lt_byte (r : WriteReg) : r.addr < 2 ^ 8 := by
  cases r with
  | coeffAddr p | writeLo p | writeHi p | firConfig p => cases p <;> decide
  | firGain => decide

theorem ReadReg.addr_lt_byte (r : ReadReg) : r.addr < 2 ^ 8 := by
  cases r with
  | readLo p | readHi p => cases p <;> decide

/-- An address bus of REG_ADDR_W bits reaches what eight bits reach (R50). -/
theorem byte_le_regAddrW : 2 ^ 8 ≤ 2 ^ Config.regAddrW := Nat.pow_le_pow_right (by decide) (Nat.le_add_right 8 _)

/-- Settles O60: `registerAt` tells the registers apart by their addresses, which fit in eight bits; the rest is the
table of R52. -/
theorem registerMapMirrored : Obligations.RegisterMapMirrored := by
  refine ⟨fun r => r.addr_lt_byte.trans_le byte_le_regAddrW, fun r => r.addr_lt_byte.trans_le byte_le_regAddrW,
    fun _ _ h => WriteReg.addr_injective h, fun _ _ h => ReadReg.addr_injective h, WriteReg.addr_ne_readReg, ?_⟩
  decide

end Sys2Proof.Machine
end

section
/-! PROOFS. The statements of 30_encoding: that the decoder and the encoder are inverse to each other (R70, R71, R77),
that every opcode of no command is reserved (R78), and the commands written out by hand. -/

namespace Sys2Proof

/-! ## Operand types (R71): the operands a type's reader accepts are the ones its writer makes -/

/-- The reader of an operand type accepts exactly the operands the writer makes, and reads back what was written. -/
def Reads {α : Type} (read : Operand → Option α) (write : α → Operand) : Prop :=
  ∀ x u, read x = some u ↔ write u = x

theorem asInteger_eq_some_iff {q : Rat} {z : Int} : asInteger q = some z ↔ (z : Rat) = q := by
  unfold asInteger
  split
  next hq => rw [Option.some_inj, ← Rat.intCast_inj, (Rat.den_eq_one_iff q).1 hq, eq_comm]
  next hq => exact iff_of_false nofun fun h => hq (h ▸ Rat.den_intCast z)

theorem mapM_asInteger_eq_some_iff {l : List Rat} {c : List Int} :
    l.mapM asInteger = some c ↔ c.map (fun (z : Int) => (z : Rat)) = l := by
  induction l generalizing c with
  | nil => simp [eq_comm]
  | cons q l ih => cases c <;> simp [List.mapM_cons, Option.bind_eq_some_iff, asInteger_eq_some_iff, ih]

theorem toInt?_reads : Reads Operand.toInt? Operand.ofInt := fun x _ => by
  cases x <;> simp [Operand.toInt?, Operand.ofInt, asInteger_eq_some_iff]

theorem toRat?_reads : Reads Operand.toRat? Operand.num := fun x _ => by
  cases x <;> simp [Operand.toRat?, eq_comm]

theorem toOptRat?_reads : Reads Operand.toOptRat? Operand.ofOptRat := fun x u => by
  cases u <;> cases x <;> simp [Operand.toOptRat?, Operand.ofOptRat, eq_comm]

theorem toSymbol?_reads : Reads Operand.toSymbol? Operand.sym := fun x _ => by
  cases x <;> simp [Operand.toSymbol?, eq_comm]

theorem toVec?_reads : Reads Operand.toVec? Operand.ofVec := fun x _ => by
  cases x <;> simp [Operand.toVec?, Operand.ofVec, mapM_asInteger_eq_some_iff]

theorem toName?_reads : Reads Operand.toName? Operand.name := fun x _ => by
  cases x <;> simp [Operand.toName?, eq_comm]

/-! ## Operand records (R70): what a record of each length is taken for -/

section Records

variable {α β γ : Type} {a : Operand → Option α} {b : Operand → Option β} {c : Operand → Option γ}
  {wa : α → Operand} {wb : β → Operand} {wc : γ → Operand} {l : List Operand} {i j : Instr}

theorem take0_eq_ok_iff : take0 j l = .ok i ↔ l = [] ∧ j = i := by
  cases l <;> simp [take0]

theorem take1_eq_ok_iff {f : α → Instr} (ha : Reads a wa) : take1 a f l = .ok i ↔ ∃ u, l = [wa u] ∧ f u = i := by
  constructor
  · intro h
    unfold take1 at h
    split at h
    next x =>
      split at h
      next u hu => exact ⟨u, by rw [(ha x u).1 hu], Except.ok.inj h⟩
      next => cases h
    next => cases h
  · rintro ⟨u, rfl, rfl⟩
    simp only [take1, (ha _ u).2 rfl]

theorem take2_eq_ok_iff {f : α → β → Instr} (ha : Reads a wa) (hb : Reads b wb) :
    take2 a b f l = .ok i ↔ ∃ u v, l = [wa u, wb v] ∧ f u v = i := by
  constructor
  · intro h
    unfold take2 at h
    split at h
    next x y =>
      split at h
      next u v hu hv => exact ⟨u, v, by rw [(ha x u).1 hu, (hb y v).1 hv], Except.ok.inj h⟩
      next => cases h
    next => cases h
  · rintro ⟨u, v, rfl, rfl⟩
    simp only [take2, (ha _ u).2 rfl, (hb _ v).2 rfl]

theorem take3_eq_ok_iff {f : α → β → γ → Instr} (ha : Reads a wa) (hb : Reads b wb) (hc : Reads c wc) :
    take3 a b c f l = .ok i ↔ ∃ u v w, l = [wa u, wb v, wc w] ∧ f u v w = i := by
  constructor
  · intro h
    unfold take3 at h
    split at h
    next x y z =>
      split at h
      next u v w hu hv hw =>
        exact ⟨u, v, w, by rw [(ha x u).1 hu, (hb y v).1 hv, (hc z w).1 hw], Except.ok.inj h⟩
      next => cases h
    next => cases h
  · rintro ⟨u, v, w, rfl, rfl⟩
    simp only [take3, (ha _ u).2 rfl, (hb _ v).2 rfl, (hc _ w).2 rfl]

/-! ## Rows of the opcode map (R77) -/

/-- At the row of the opcode map that holds the command, decoding and encoding are inverse to each other. -/
structure RoundTrips (i : Instr) : Prop where
  decode_encode : decode (encode i) = .ok i
  encode_decode : ∀ l k, decode ⟨i.opcode, l⟩ = .ok k → encode k = ⟨i.opcode, l⟩

theorem RoundTrips.of_take0 (hd : ∀ l, decode ⟨i.opcode, l⟩ = take0 i l) (he : encode i = ⟨i.opcode, []⟩) :
    RoundTrips i where
  decode_encode := by rw [he, hd, take0_eq_ok_iff]; exact ⟨rfl, rfl⟩
  encode_decode l k h := by
    rw [hd, take0_eq_ok_iff] at h
    obtain ⟨rfl, rfl⟩ := h
    exact he

theorem RoundTrips.of_take1 {f : α → Instr} (ha : Reads a wa) (u : α) (hd : ∀ l, decode ⟨(f u).opcode, l⟩ = take1 a f l)
    (he : ∀ u', encode (f u') = ⟨(f u).opcode, [wa u']⟩) : RoundTrips (f u) where
  decode_encode := by rw [he, hd, take1_eq_ok_iff ha]; exact ⟨u, rfl, rfl⟩
  encode_decode l k h := by
    rw [hd, take1_eq_ok_iff ha] at h
    obtain ⟨u', rfl, rfl⟩ := h
    exact he u'

theorem RoundTrips.of_take2 {f : α → β → Instr} (ha : Reads a wa) (hb : Reads b wb) (u : α) (v : β)
    (hd : ∀ l, decode ⟨(f u v).opcode, l⟩ = take2 a b f l)
    (he : ∀ u' v', encode (f u' v') = ⟨(f u v).opcode, [wa u', wb v']⟩) : RoundTrips (f u v) where
  decode_encode := by rw [he, hd, take2_eq_ok_iff ha hb]; exact ⟨u, v, rfl, rfl⟩
  encode_decode l k h := by
    rw [hd, take2_eq_ok_iff ha hb] at h
    obtain ⟨u', v', rfl, rfl⟩ := h
    exact he u' v'

theorem RoundTrips.of_take3 {f : α → β → γ → Instr} (ha : Reads a wa) (hb : Reads b wb) (hc : Reads c wc)
    (u : α) (v : β) (w : γ) (hd : ∀ l, decode ⟨(f u v w).opcode, l⟩ = take3 a b c f l)
    (he : ∀ u' v' w', encode (f u' v' w') = ⟨(f u v w).opcode, [wa u', wb v', wc w']⟩) : RoundTrips (f u v w) where
  decode_encode := by rw [he, hd, take3_eq_ok_iff ha hb hc]; exact ⟨u, v, w, rfl, rfl⟩
  encode_decode l k h := by
    rw [hd, take3_eq_ok_iff ha hb hc] at h
    obtain ⟨u', v', w', rfl, rfl⟩ := h
    exact he u' v' w'

end Records

/-- The row of each command names the operand types (R77); that the row's opcode decodes and encodes by them is the
definition of both. -/
theorem roundTrips (i : Instr) : RoundTrips i := by
  cases i with
  | toneGetFs t => exact .of_take1 toInt?_reads t (fun _ => rfl) fun _ => rfl
  | toneSetFreq t f => exact .of_take2 toInt?_reads toRat?_reads t f (fun _ => rfl) fun _ _ => rfl
  | toneGetFreq t => exact .of_take1 toInt?_reads t (fun _ => rfl) fun _ => rfl
  | toneSetPhase t phi => exact .of_take2 toInt?_reads toRat?_reads t phi (fun _ => rfl) fun _ _ => rfl
  | toneGetPhase t ch => exact .of_take2 toInt?_reads toSymbol?_reads t ch (fun _ => rfl) fun _ _ => rfl
  | toneSetAmp t a => exact .of_take2 toInt?_reads toRat?_reads t a (fun _ => rfl) fun _ _ => rfl
  | toneGetAmp t => exact .of_take1 toInt?_reads t (fun _ => rfl) fun _ => rfl
  | toneState t sw => exact .of_take2 toInt?_reads toSymbol?_reads t sw (fun _ => rfl) fun _ _ => rfl
  | toneStatus t => exact .of_take1 toInt?_reads t (fun _ => rfl) fun _ => rfl
  | ddsSetAmp d1 d2 => exact .of_take2 toOptRat?_reads toOptRat?_reads d1 d2 (fun _ => rfl) fun _ _ => rfl
  | ddsSetFreq f1 f2 => exact .of_take2 toRat?_reads toOptRat?_reads f1 f2 (fun _ => rfl) fun _ _ => rfl
  | ddsSetPhase p1 p2 => exact .of_take2 toRat?_reads toOptRat?_reads p1 p2 (fun _ => rfl) fun _ _ => rfl
  | ddsIsOff => exact .of_take0 (fun _ => rfl) rfl
  | ddsStatus k => exact .of_take1 toInt?_reads k (fun _ => rfl) fun _ => rfl
  | ddsState sw => exact .of_take1 toSymbol?_reads sw (fun _ => rfl) fun _ => rfl
  | firEncode v => exact .of_take1 toInt?_reads v (fun _ => rfl) fun _ => rfl
  | firDecode hi lo => exact .of_take2 toInt?_reads toInt?_reads hi lo (fun _ => rfl) fun _ _ => rfl
  | firSetBit i w sw =>
    exact .of_take3 toInt?_reads toInt?_reads toSymbol?_reads i w sw (fun _ => rfl) fun _ _ _ => rfl
  | firBuildCfg path taps gain =>
    exact .of_take3 toSymbol?_reads toInt?_reads toRat?_reads path taps gain (fun _ => rfl) fun _ _ _ => rfl
  | firWriteTx c taps gain =>
    exact .of_take3 toVec?_reads toInt?_reads toRat?_reads c taps gain (fun _ => rfl) fun _ _ _ => rfl
  | firWriteRx c taps gain =>
    exact .of_take3 toVec?_reads toInt?_reads toRat?_reads c taps gain (fun _ => rfl) fun _ _ _ => rfl
  | firReadTx => exact .of_take0 (fun _ => rfl) rfl
  | firReadRx => exact .of_take0 (fun _ => rfl) rfl
  | firLoadFile name => exact .of_take1 toName?_reads name (fun _ => rfl) fun _ => rfl

/-- Settles O1: the row of the command round trips. -/
theorem decodeOfEncode : Obligations.DecodeOfEncode := fun i => (roundTrips i).decode_encode

/-! ## Reserved opcodes (R78) -/

/-- One command of each row of R77; the operands do not matter. -/
def commandOfEachRow : List Instr :=
  [.toneGetFs 1, .toneSetFreq 1 0, .toneGetFreq 1, .toneSetPhase 1 0, .toneGetPhase 1 .I, .toneSetAmp 1 0, .toneGetAmp 1,
    .toneState 1 .on, .toneStatus 1, .ddsSetAmp none none, .ddsSetFreq 0 none, .ddsSetPhase 0 none, .ddsIsOff,
    .ddsStatus 1, .ddsState .on, .firEncode 0, .firDecode 0 0, .firSetBit 0 0 .on, .firBuildCfg .TX 128 0,
    .firWriteTx [] 128 0, .firWriteRx [] 128 0, .firReadTx, .firReadRx, .firLoadFile ""]

/-- A header byte of a row is the opcode of that row's command. -/
theorem exists_opcode_of_toNat {opc : Byte} {n : Nat} (hn : opc.toNat = n)
    (hrow : BitVec.ofNat 8 n ∈ commandOfEachRow.map Instr.opcode) : ∃ i : Instr, i.opcode = opc := by
  subst hn
  rw [BitVec.ofNat_toNat, BitVec.setWidth_eq, List.mem_map] at hrow
  obtain ⟨i, -, hi⟩ := hrow
  exact ⟨i, hi⟩

/-- Settles O3: `decode` answers otherwise only at the header bytes of its 24 rows, and each of those is the opcode of
a command. -/
theorem reservedOpcodesRejected : Obligations.ReservedOpcodesRejected := by
  intro c hc
  have hrow : ∀ n, BitVec.ofNat 8 n ∈ commandOfEachRow.map Instr.opcode → c.opc.toNat ≠ n := fun n hn hopc =>
    let ⟨i, hi⟩ := exists_opcode_of_toNat hopc hn
    hc i hi
  unfold decode
  split
  case h_25 => rfl
  all_goals next hn => exact absurd hn (hrow _ (by decide))

/-- Settles O2: what decodes has the opcode of some command (O3), and that command's row round trips. -/
theorem encodeOfDecode : Obligations.EncodeOfDecode := by
  intro c i h
  by_cases hopc : ∃ j : Instr, j.opcode = c.opc
  · obtain ⟨opc, l⟩ := c
    obtain ⟨j, rfl⟩ := hopc
    exact (roundTrips j).encode_decode l i h
  · rw [reservedOpcodesRejected c fun j hj => hopc ⟨j, hj⟩] at h
    cases h

/-! ## Commands written out by hand (95_test_vectors P1 to P5) -/

/-- Settles O4: the legal ones are the encodings of what they stand for (O1), the type error is read off the row of
0x11, and 0x0A is the opcode of no command (O3). -/
theorem handWrittenCommandsDecode : Obligations.HandWrittenCommandsDecode :=
  ⟨decodeOfEncode (.toneState 1 .off), decodeOfEncode (.ddsSetFreq 1 (some (-2))), rfl,
    decodeOfEncode (.firBuildCfg .TX 64 (-6)), decodeOfEncode (.firWriteRx [0, -2, 0, 300, 0] 16 (-12)),
    reservedOpcodesRejected ⟨0x0A, []⟩ fun i => by cases i <;> nofun⟩

end Sys2Proof
end

section
/-! PROOFS. The statements of 40_dds_tone: the index check (R110), the tone commands on a transport that does not fail
and their errors (R100 to R109), what one command sets and a later one reads back (R107, R111), and the complex tone that
derived phases give (R124). -/

namespace Sys2Proof.Machine

section ToneFamily

variable {α : Type} {s : State} {t : Tone}

/-! ## The check of the index (R110) -/

/-- Every command with a tone index checks it first. -/
theorem exec_checks_index {i : Instr} {z : Int} (h : toneIndexOf i = some z) :
    ∃ f : Tone → Cmd Value, ∀ s, exec i s = run (checkTone z >>= f) s := by
  cases i with
  | toneGetFs | toneSetFreq | toneGetFreq | toneSetPhase | toneGetPhase | toneSetAmp | toneGetAmp | toneState
  | toneStatus | ddsStatus =>
    obtain rfl := Option.some.inj h
    exact ⟨_, fun _ => rfl⟩
  | ddsSetAmp | ddsSetFreq | ddsSetPhase | ddsIsOff | ddsState | firEncode | firDecode | firSetBit | firBuildCfg
  | firWriteTx | firWriteRx | firReadTx | firReadRx | firLoadFile => exact nomatch h

/-- A command whose operation raises ends with that error. -/
theorem run_bind_error {c : Cmd α} {f : α → Cmd Value} {e : Failure} {u : State} (h : c s.begin = .error e u) :
    run (c >>= f) s = .next (u.respond (.err e.kind e.info)) := by
  refine run_error ?_
  rw [Cmd.bind_apply, h]

/-- Settles O11: a command with an index checks it first, and the check of any other than 1 and 2 raises. -/
theorem toneIndexChecked : Obligations.ToneIndexChecked := by
  intro i z s hi h1 h2
  obtain ⟨f, hf⟩ := exec_checks_index hi
  exact (hf s).trans (run_bind_error (checkTone_illegal h1 h2 s.begin))

/-! ## A command on a legal index -/

/-- A check that passes leaves the rest of the command to run from the same start. -/
theorem run_bind_passed {c : Cmd α} {f : α → Cmd Value} {a : α} (h : c s.begin = .ok a s.begin) :
    run (c >>= f) s = run (f a) s := by
  simp only [run, State.complete, Cmd.bind_apply, h]

theorem run_checkTone (t : Tone) (f : Tone → Cmd Value) (s : State) :
    run (checkTone t.index >>= f) s = run (f t) s :=
  run_bind_passed (checkTone_index t s.begin)

theorem run_checkSwitch (on : Bool) (f : Bool → Cmd Value) (s : State) :
    run (checkSwitch (switchSymbol on) >>= f) s = run (f on) s :=
  run_bind_passed (checkSwitch_legal on s.begin)

theorem run_checkChan (c : Chan) (f : Chan → Cmd Value) (s : State) :
    run (checkChan (chanSymbol c) >>= f) s = run (f c) s :=
  run_bind_passed (checkChan_legal c s.begin)

/-- A command that answers with what its operation ended with. -/
theorem run_answer {c : Cmd α} {g : α → Value} {a : α} {u : State} (h : c s.begin = .ok a u) :
    run (c >>= fun x => pure (g x)) s = .next (u.respond (.ok (g a))) := by
  refine run_ok ?_
  rw [Cmd.bind_apply, h]
  rfl

/-! ## The commands of one read (R100, R104, R106) -/

/-- A command that answers with one read of a channel. -/
def readAnswer (ch : ChanId) (a : Attr) : Cmd Value := attrGet ch a >>= fun x => pure (.num x)

theorem run_readAnswer_done (h : s.perfect 1) (ch : ChanId) (a : Attr) :
    run (readAnswer ch a) s
      = .next ((s.issued [.attrGet ch a]).respond (.ok (.num ((s.channel ch).get a)))) := by
  rw [← State.begin_ran]
  exact run_answer (attrGet_done (s := s.begin) h ch a)

theorem run_readAnswer_failed {b : Bool} {rest : List Draw} (h : s.transport = .failed b :: rest) (ch : ChanId)
    (a : Attr) :
    run (readAnswer ch a) s
      = .next ((s.issued [.attrGet ch a]).respond (.err .transport (.transaction (.attrGet ch a)))) := by
  rw [← State.begin_ran]
  exact run_bind_error (attrGet_failed (s := s.begin) h ch a)

theorem exec_toneGetFs (t : Tone) (s : State) : exec (.toneGetFs t.index) s = run (readAnswer ⟨t, .i⟩ .fs) s :=
  run_checkTone t _ s

theorem exec_toneGetAmp (t : Tone) (s : State) : exec (.toneGetAmp t.index) s = run (readAnswer ⟨t, .i⟩ .scale) s :=
  run_checkTone t _ s

theorem exec_toneGetPhase (t : Tone) (c : Chan) (s : State) :
    exec (.toneGetPhase t.index (chanSymbol c)) s = run (readAnswer ⟨t, c⟩ .phase) s :=
  (run_checkTone t _ s).trans (run_checkChan c _ s)

/-- Settles O12: one read of the I channel's sampling frequency, after the check of the index. -/
theorem toneGetFsReadsRate : Obligations.ToneGetFsReadsRate := by
  refine ⟨fun t s h => ?_, fun t s b rest h => ?_, fun z s h1 h2 => ?_⟩
  · exact (exec_toneGetFs t s).trans (run_readAnswer_done h _ _)
  · exact (exec_toneGetFs t s).trans (run_readAnswer_failed h _ _)
  · exact toneIndexChecked _ z s rfl h1 h2

/-- Settles O16: one read of the phase of the channel named, after the checks of the index and of the symbol. -/
theorem toneGetPhaseReadsChannel : Obligations.ToneGetPhaseReadsChannel := by
  refine ⟨fun t c s h => ?_, fun t c s b rest h => ?_, fun t x s hI hQ => ?_, fun z x s h1 h2 => ?_⟩
  · exact (exec_toneGetPhase t c s).trans (run_readAnswer_done h _ _)
  · exact (exec_toneGetPhase t c s).trans (run_readAnswer_failed h _ _)
  · exact (run_checkTone t _ s).trans (run_bind_error (checkChan_illegal hI hQ s.begin))
  · exact toneIndexChecked _ z s rfl h1 h2

/-- Settles O18: one read of the I channel's scale, after the check of the index. -/
theorem toneGetAmpReadsScale : Obligations.ToneGetAmpReadsScale := by
  refine ⟨fun t s h => ?_, fun t s b rest h => ?_, fun z s h1 h2 => ?_⟩
  · exact (exec_toneGetAmp t s).trans (run_readAnswer_done h _ _)
  · exact (exec_toneGetAmp t s).trans (run_readAnswer_failed h _ _)
  · exact toneIndexChecked _ z s rfl h1 h2

/-! ## The commands of several reads (R108, R109) -/

theorem shownFreq_eq (x : PerChan Channel) :
    shownFreq x = if normalizePhase (x.i.phase - x.q.phase) < 180 then x.i.freq else -x.i.freq := by
  unfold shownFreq shownSideband
  split
  · exact one_mul _
  · exact neg_one_mul _

theorem exec_toneGetFreq_done (h : s.perfect 3) :
    exec (.toneGetFreq t.index) s
      = .next ((s.issued (getFreqTrace t)).respond (.ok (.num (shownFreq (s.dds.get t))))) := by
  rw [← State.begin_ran]
  exact (run_checkTone t _ s).trans (run_answer (getFreq_done (s := s.begin) h))

/-- Settles O14: the sign that the shown sideband gives the magnitude is the test of R108. -/
theorem toneGetFreqReadsSign : Obligations.ToneGetFreqReadsSign := by
  intro t s h
  rw [← shownFreq_eq]
  exact exec_toneGetFreq_done h

/-- Settles O21: the five reads of `getStatus`, after the check of the index. -/
theorem toneStatusReadsAll : Obligations.ToneStatusReadsAll := by
  intro t s h
  rw [← State.begin_ran]
  exact (run_checkTone t _ s).trans
    (run_answer (g := fun x => .status x.1 x.2.1 x.2.2) (getStatus_done (s := s.begin) h))

/-! ## The commands that set (R101, R103, R105, R107) -/

/-- The state after a tone command that issued `xs`, left `x` and `r` on its tone and answered `v`. -/
def State.toneSet (s : State) (t : Tone) (xs : List Transaction) (x : PerChan Channel) (r : ToneRegs) (v : Value) :
    State :=
  ((s.issued xs).withTone t x r).respond (.ok v)

section ToneSet

variable (xs : List Transaction) (x : PerChan Channel) (r : ToneRegs) (v : Value)

@[simp] theorem State.toneSet_resp : (s.toneSet t xs x r v).resp = some (.ok v) := rfl

@[simp] theorem State.toneSet_trace : (s.toneSet t xs x r v).trace = xs := rfl

@[simp] theorem State.toneSet_setup : (s.toneSet t xs x r v).setup = s.setup := rfl

@[simp] theorem State.toneSet_channels : (s.toneSet t xs x r v).dds.get t = x := by simp [State.toneSet]

@[simp] theorem State.toneSet_regs : (s.toneSet t xs x r v).tones.get t = r := by simp [State.toneSet]

theorem State.toneSet_perfect {k : Nat} (h : s.perfect (xs.length + k)) : (s.toneSet t xs x r v).perfect k := by
  have hran : (s.begin.ran xs).perfect k := State.perfect_ran h
  rw [State.begin_ran] at hran
  exact hran

end ToneSet

/-- A tone command whose operation succeeds ends in the state of `State.toneSet`. -/
theorem run_toneSet {c : Cmd α} {g : α → Value} {a : α} {xs : List Transaction} {x : PerChan Channel} {r : ToneRegs}
    (h : c s.begin = .ok a ((s.begin.ran xs).withTone t x r)) :
    run (c >>= fun y => pure (g y)) s = .next (s.toneSet t xs x r (g a)) := by
  rw [State.begin_ran] at h
  exact run_answer h

theorem exec_toneSetFreq_within {f : Rat} (h : s.perfect 6) (hb : |f| ≤ (s.dds.get t).i.fs / 2) :
    exec (.toneSetFreq t.index f) s
      = .next (s.toneSet t (freqTrace t (s.dds.get t) f) (freqChannels s.setup.coercion (s.dds.get t) f)
          { s.tones.get t with sb := sidebandOf f } (.num ((sidebandOf f).sign * coerce s.setup.coercion .freq |f|))) :=
  (run_checkTone t _ s).trans (run_toneSet (setFreq_within (s := s.begin) h hb))

theorem exec_toneSetAmp_within {a : Rat} (h : s.perfect 2) (h0 : 0 ≤ a) (h1 : a ≤ 1) :
    exec (.toneSetAmp t.index a) s
      = .next (s.toneSet t (ampTrace t a) (ampChannels s.setup.coercion (s.dds.get t) a)
          { s.tones.get t with muted := false } .unit) :=
  (run_checkTone t _ s).trans (run_toneSet (g := fun _ => .unit) (setAmp_done (s := s.begin) h h0 h1))

theorem exec_toneState_done {on : Bool} (h : s.perfect (switchTrace t (s.tones.get t) on).length) :
    exec (.toneState t.index (switchSymbol on)) s
      = .next (s.toneSet t (switchTrace t (s.tones.get t) on)
          (switchChannels s.setup.coercion (s.dds.get t) (s.tones.get t) on)
          (switchRegs (s.dds.get t) (s.tones.get t) on) .unit) :=
  (run_checkTone t _ s).trans ((run_checkSwitch on _ s).trans
    (run_toneSet (g := fun _ => .unit) (setState_done (s := s.begin) h)))

/-- Settles O13: `setFreq` within the bound does all its writes; beyond it, it raises after its first read. -/
theorem toneSetFreqChecksAndSets : Obligations.ToneSetFreqChecksAndSets := by
  refine ⟨fun t f s h hb => exec_toneSetFreq_within h hb, fun t f s h hb => ?_⟩
  rw [← State.begin_ran]
  exact (run_checkTone t _ s).trans (run_bind_error (setFreq_beyond (s := s.begin) h hb))

/-- Settles O15: the three transactions of `setPhase`, after the check of the index. -/
theorem toneSetPhaseWraps : Obligations.ToneSetPhaseWraps := fun t _ s h =>
  (run_checkTone t _ s).trans (run_toneSet (g := fun _ => .unit) (setPhase_done (s := s.begin) h))

/-- Settles O17: `setAmp` writes an amplitude in [0, 1], and raises on any other before it writes. -/
theorem toneSetAmpWritesBoth : Obligations.ToneSetAmpWritesBoth := by
  refine ⟨fun t a s h h0 h1 => exec_toneSetAmp_within h h0 h1, fun t a s h => ?_⟩
  exact (run_checkTone t _ s).trans (run_bind_error (setAmp_beyond (s := s.begin) h))

/-- Settles O19: `setState` in each case of switch and MUTED; any other symbol fails the check of the switch. -/
theorem toneStateMutesAndRestores : Obligations.ToneStateMutesAndRestores := by
  refine ⟨fun t on s h => exec_toneState_done h, fun t x s hon hoff => ?_⟩
  exact (run_checkTone t _ s).trans (run_bind_error (checkSwitch_illegal hon hoff s.begin))

/-! ## Muting (R107) -/

section Muting

/-- `off` on a tone that is not muted: the amplitude is cached, and 0 is written. -/
theorem exec_toneState_mutes (hm : (s.tones.get t).muted = false) (h : s.perfect 3) :
    exec (.toneState t.index .off) s
      = .next (s.toneSet t (.attrGet ⟨t, .i⟩ .scale :: ampTrace t 0) (ampChannels s.setup.coercion (s.dds.get t) 0)
          { s.tones.get t with cache := (s.dds.get t).i.scale, muted := true } .unit) := by
  have hdone := exec_toneState_done (s := s) (t := t) (on := false)
  simp only [switchTrace, switchChannels, switchRegs, hm] at hdone
  exact hdone h

/-- `off` on a muted tone: nothing is issued, and the tone is left as it is. -/
theorem exec_toneState_stays_muted (hm : (s.tones.get t).muted = true) :
    exec (.toneState t.index .off) s = .next (s.toneSet t [] (s.dds.get t) (s.tones.get t) .unit) := by
  have hdone := exec_toneState_done (s := s) (t := t) (on := false)
  simp only [switchTrace, switchChannels, switchRegs, hm] at hdone
  exact hdone rfl

/-- `on` on a muted tone: the cached amplitude is written. -/
theorem exec_toneState_restores (hm : (s.tones.get t).muted = true) (h : s.perfect 2) :
    exec (.toneState t.index .on) s
      = .next (s.toneSet t (ampTrace t (s.tones.get t).cache)
          (ampChannels s.setup.coercion (s.dds.get t) (s.tones.get t).cache)
          { s.tones.get t with muted := false } .unit) := by
  have hdone := exec_toneState_done (s := s) (t := t) (on := true)
  simp only [switchTrace, switchChannels, switchRegs, hm] at hdone
  exact hdone h

/-- Settles O20: the first mute caches the amplitude that was set, the second finds the tone muted and leaves the cache
alone, and the restore writes the cache back. Seven transactions are used: two, three, none and two. -/
theorem repeatedMuteRestoresAmplitude : Obligations.RepeatedMuteRestoresAmplitude := by
  intro t a s hideal hp h0 h1
  have hp2 : s.perfect 2 := State.perfect_mono hp (by decide)
  refine ⟨_, _, _, _, exec_toneSetAmp_within hp2 h0 h1, exec_toneState_mutes ?unmuted ?three,
    exec_toneState_stays_muted ?muted, exec_toneState_restores ?still_muted ?two, ?_, ?_, ?_, ?_, ?_, ?_⟩
  case unmuted => simp
  case muted => simp
  case still_muted => simp
  case three => exact State.perfect_mono (State.toneSet_perfect (k := 5) _ _ _ _ hp) (by decide)
  case two =>
    exact State.toneSet_perfect (xs := []) _ _ _
      (State.toneSet_perfect (k := 2) _ _ _ _ (State.toneSet_perfect (k := 5) _ _ _ _ hp))
  all_goals simp [ampChannels, coerce, hideal]

end Muting

/-! ## The frequency read back (R111) -/

theorem sidebandOf_sign_mul_abs (f : Rat) : (sidebandOf f).sign * |f| = f := by
  unfold sidebandOf
  split
  next hneg => rw [abs_of_neg hneg, Sideband.sign, neg_one_mul, neg_neg]
  next hpos => rw [abs_of_nonneg (not_lt.mp hpos), Sideband.sign, one_mul]

/-- Under ideal coercion the phases show the sideband that the Q phase was derived with, so the tone shows `f`. -/
theorem shownFreq_freqChannels (x : PerChan Channel) (f : Rat) : shownFreq (freqChannels .ideal x f) = f := by
  simp only [shownFreq, freqChannels, coerce, shownSideband_deriveQPhase, sidebandOf_sign_mul_abs]

/-- Settles O26: six transactions set the channels that show `f`, and three more read them. -/
theorem getFreqReturnsSetFreq : Obligations.GetFreqReturnsSetFreq := by
  intro t f s hideal hp hb
  have hp6 : s.perfect 6 := State.perfect_mono hp (by decide)
  refine ⟨_, _, exec_toneSetFreq_within hp6 hb,
    exec_toneGetFreq_done (State.toneSet_perfect (k := 3) _ _ _ _ hp), ?_, ?_⟩
  · rw [State.toneSet_resp, hideal, coerce, sidebandOf_sign_mul_abs]
  · rw [State.respond_resp, State.toneSet_channels, hideal, shownFreq_freqChannels]

/-! ## The complex tone (R124) -/

/-- The derived Q phase is a quarter turn off the I phase, up to whole turns; so is the angle. -/
theorem ncoAngle_deriveQPhase {x : PerChan Channel} {sb : Sideband} (hf : x.q.freq = x.i.freq)
    (hp : x.q.phase = deriveQPhase x.i.phase sb) (fs : Rat) (n : Nat) :
    ∃ k : Int, ncoAngle x.q fs n = ncoAngle x.i fs n - (sb.sign : ℝ) * (Real.pi / 2) - k * (2 * Real.pi) := by
  obtain ⟨k, hk⟩ : ∃ k : Int, x.q.phase = x.i.phase - sb.sign * 90 - 360 * k := ⟨_, hp⟩
  refine ⟨k, ?_⟩
  rw [ncoAngle, ncoAngle, hf, hk]
  push_cast
  ring

theorem cos_sub_sign_mul_pi_div_two (θ : ℝ) (sb : Sideband) :
    Real.cos (θ - (sb.sign : ℝ) * (Real.pi / 2)) = (sb.sign : ℝ) * Real.sin θ := by
  cases sb with
  | plus => simp [Sideband.sign, Real.cos_sub_pi_div_two]
  | minus => simp [Sideband.sign, Real.cos_add_pi_div_two]

/-- Euler's formula with the sign of a sideband. -/
theorem exp_I_mul_sign_mul (θ : ℝ) (sb : Sideband) :
    Complex.exp (Complex.I * (sb.sign : ℂ) * (θ : ℂ))
      = (Real.cos θ : ℂ) + Complex.I * ((sb.sign : ℂ) * (Real.sin θ : ℂ)) := by
  rw [show Complex.I * (sb.sign : ℂ) * (θ : ℂ) = (((sb.sign : ℝ) * θ : ℝ) : ℂ) * Complex.I by push_cast; ring,
    Complex.exp_mul_I, ← Complex.ofReal_cos, ← Complex.ofReal_sin]
  cases sb with
  | plus => simp [Sideband.sign, mul_comm]
  | minus => simp [Sideband.sign, mul_comm]

/-- Settles O27: the Q channel's cosine is the sine of the I angle with the sideband's sign, and the sum is Euler's
formula. -/
theorem derivedPhasesGiveComplexTone : Obligations.DerivedPhasesGiveComplexTone := by
  intro x fs sb n hscale hfreq hphase
  obtain ⟨k, hk⟩ := ncoAngle_deriveQPhase hfreq hphase fs n
  have hq : ncoTerm Real.cos x.q fs n = (x.i.scale : ℝ) * ((sb.sign : ℝ) * Real.sin (ncoAngle x.i fs n)) := by
    rw [ncoTerm, hscale, hk, Real.cos_sub_int_mul_two_pi, cos_sub_sign_mul_pi_div_two]
  rw [hq, ncoTerm, exp_I_mul_sign_mul]
  push_cast
  ring

end ToneFamily

end Sys2Proof.Machine
end

section
/-! PROOFS. The statements of 41_dual_tone: the commands that set both tones as tone 1's turn and then tone 2's, with
the first refusal ending them (R130 to R132, R135, R136), and the level that DDS.STATUS reports (R134). -/

namespace Sys2Proof.Machine

section DualTone

variable {α β : Type} {s : State} {t : Tone} {xs ys : List Transaction} {x y : PerChan Channel} {r r' : ToneRegs}

/-! ## Tone 1's turn, then tone 2's (R136) -/

/-- Where tone 2's turn starts: tone 1's issued `xs` and left `x` and `r` on tone 1. -/
def State.toneOneSet (s : State) (xs : List Transaction) (x : PerChan Channel) (r : ToneRegs) : State :=
  (s.begin.ran xs).withTone .one x r

theorem State.toneOneSet_eq (s : State) (xs : List Transaction) (x : PerChan Channel) (r : ToneRegs) :
    s.toneOneSet xs x r = (s.issued xs).withTone .one x r := by
  rw [State.toneOneSet, State.begin_ran]

/-- Tone 2's transactions stand in the trace after tone 1's. -/
theorem State.toneOneSet_ran (s : State) (xs ys : List Transaction) (x : PerChan Channel) (r : ToneRegs) :
    (s.toneOneSet xs x r).ran ys = (s.issued (xs ++ ys)).withTone .one x r := by
  rw [← State.begin_ran, ← State.ran_ran]
  rfl

theorem State.toneOneSet_perfect {k : Nat} (h : s.perfect (xs.length + k)) : (s.toneOneSet xs x r).perfect k :=
  State.perfect_ran (s := s.begin) h

/-- Both turns succeed: the command answers, each tone set. -/
theorem run_bothTones {c₁ : Cmd α} {c₂ : Cmd β} {a : α} {b : β}
    (h₁ : c₁ s.begin = .ok a (s.toneOneSet xs x r))
    (h₂ : c₂ (s.toneOneSet xs x r) = .ok b (((s.toneOneSet xs x r).ran ys).withTone .two y r')) :
    run (c₁ >>= fun _ => c₂ >>= fun _ => pure .unit) s
      = .next ((((s.issued (xs ++ ys)).withTone .one x r).withTone .two y r').respond (.ok .unit)) := by
  rw [← State.toneOneSet_ran]
  refine run_ok ?_
  rw [Cmd.bind_apply, h₁]
  dsimp only
  rw [Cmd.bind_apply, h₂]
  rfl

/-- Tone 2's turn raises: the command ends with its error, tone 1 set. -/
theorem run_secondTone_error {c₁ : Cmd α} {c₂ : Cmd β} {f : β → Cmd Value} {a : α} {e : Failure}
    (h₁ : c₁ s.begin = .ok a (s.toneOneSet xs x r))
    (h₂ : c₂ (s.toneOneSet xs x r) = .error e ((s.toneOneSet xs x r).ran ys)) :
    run (c₁ >>= fun _ => c₂ >>= f) s
      = .next (((s.issued (xs ++ ys)).withTone .one x r).respond (.err e.kind e.info)) := by
  rw [← State.toneOneSet_ran]
  refine run_error ?_
  rw [Cmd.bind_apply, h₁]
  dsimp only
  rw [Cmd.bind_apply, h₂]

/-- Tone 2's operand is omitted: the command answers, tone 1 set (R131, R132). -/
theorem run_firstTone_only {c₁ : Cmd α} {c₂ : Rat → Cmd Unit} {a : α}
    (h₁ : c₁ s.begin = .ok a (s.toneOneSet xs x r)) :
    run (c₁ >>= fun _ => whenGiven none c₂ >>= fun _ => pure .unit) s
      = .next (((s.issued xs).withTone .one x r).respond (.ok .unit)) := by
  rw [← State.toneOneSet_eq]
  refine run_ok ?_
  rw [Cmd.bind_apply, h₁]
  rfl

/-! ## DDS.SETAMP (R130) -/

/-- Settles O28: one turn of R130's loop for each tone. -/
theorem ddsSetAmpSetsLevels : Obligations.DdsSetAmpSetsLevels := by
  intro d1 d2 s hd1 hd2 h
  have h1 := State.perfect_mono h (Nat.le_add_right _ _)
  exact run_bothTones (setLevel_done (s := s.begin) (t := .one) hd1 h1)
    (setLevel_done hd2 (State.toneOneSet_perfect h))

theorem setLevel_positive_issues_none {d : Rat} (hd : 0 < d) :
    setLevel t (some d) s = .error ⟨.range, .bound 0⟩ (s.ran []) := by
  rw [State.ran_nil, setLevel_positive hd]

/-- Settles O29: a positive level raises before the turn's first transaction. -/
theorem ddsSetAmpRefusesPositiveLevel : Obligations.DdsSetAmpRefusesPositiveLevel := by
  refine ⟨fun d d2 s hd => ?_, fun d1 d s hd1 hd h => ?_⟩
  · exact run_bind_error (setLevel_positive (s := s.begin) hd)
  · rw [← List.append_nil (levelTrace .one s.tones.one d1)]
    exact run_secondTone_error (setLevel_done (s := s.begin) (t := .one) hd1 h) (setLevel_positive_issues_none hd)

/-- Settles O30: the laws that the conversion is assumed with. -/
theorem levelConversionExactPoints : Obligations.LevelConversionExactPoints := by
  refine ⟨?_, ?_, fun d hd => ⟨dbToLin_pos hd, dbToLin_le_one hd⟩⟩
  · rw [levelTrace, dbToLin_zero]
  · rw [levelTrace, dbToLin_minus_ten]

/-! ## DDS.SETFREQ (R131) -/

/-- Tone 2's turn of DDS.SETFREQ: the committed frequency is dropped. -/
theorem setFreq_dropped_within {f : Rat} (h : s.perfect 6) (hb : |f| ≤ (s.dds.get t).i.fs / 2) :
    (setFreq t f >>= fun _ => pure ()) s
      = .ok () ((s.ran (freqTrace t (s.dds.get t) f)).withTone t (freqChannels s.setup.coercion (s.dds.get t) f)
          { s.tones.get t with sb := sidebandOf f }) := by
  rw [Cmd.bind_apply, setFreq_within h hb]
  rfl

theorem setFreq_dropped_beyond {f : Rat} (h : s.perfect 1) (hb : (s.dds.get t).i.fs / 2 < |f|) :
    (setFreq t f >>= fun _ => pure ()) s
      = .error ⟨.range, .bound ((s.dds.get t).i.fs / 2)⟩ (s.ran [.attrGet ⟨t, .i⟩ .fs]) := by
  rw [Cmd.bind_apply, setFreq_beyond h hb]

/-- Settles O31: `setFreq` on tone 1 and then on tone 2; a frequency beyond its bound raises after one read. -/
theorem ddsSetFreqDelegates : Obligations.DdsSetFreqDelegates := by
  refine ⟨fun f1 f2 s h hb1 hb2 => ?_, fun f1 s h hb1 => ?_, fun f1 f2 s h hb1 => ?_, fun f1 f2 s h hb1 hb2 => ?_⟩
  · have h6 : s.perfect 6 := State.perfect_mono h (by decide)
    exact run_bothTones (setFreq_within (s := s.begin) (t := .one) h6 hb1)
      (setFreq_dropped_within (State.toneOneSet_perfect h) hb2)
  · exact run_firstTone_only (setFreq_within (s := s.begin) (t := .one) h hb1)
  · rw [← State.begin_ran]
    exact run_bind_error (setFreq_beyond (s := s.begin) (t := .one) h hb1)
  · have h6 : s.perfect 6 := State.perfect_mono h (by decide)
    exact run_secondTone_error (setFreq_within (s := s.begin) (t := .one) h6 hb1)
      (setFreq_dropped_beyond (t := .two) (State.toneOneSet_perfect h) hb2)

/-! ## DDS.SETPHASE (R132) -/

/-- Settles O32: `setPhase` on tone 1 and then, where its phase is given, on tone 2. -/
theorem ddsSetPhaseSetsTones : Obligations.DdsSetPhaseSetsTones := by
  refine ⟨fun p1 p2 s h => ?_, fun p1 s h => ?_⟩
  · have h3 : s.perfect 3 := State.perfect_mono h (by decide)
    exact run_bothTones (setPhase_done (s := s.begin) (t := .one) h3) (setPhase_done (State.toneOneSet_perfect h))
  · exact run_firstTone_only (setPhase_done (s := s.begin) (t := .one) h)

/-! ## DDS.STATUS (R134) -/

theorem levelOf_zero : levelOf 0 = 999 / 10 := if_pos rfl

theorem levelOf_pos {a : Rat} (h : 0 < a) : levelOf a = Config.linToDb a := if_neg h.ne'

theorem linToDb_nonpos {a : Rat} (h0 : 0 < a) (h1 : a ≤ 1) : Config.linToDb a ≤ 0 :=
  Config.decibels.laws.db_nonpos a h0 h1

theorem linToDb_close {a : Rat} (h0 : 0 < a) (h1 : a ≤ 1) :
    |(Config.linToDb a : ℝ) - 10 * Real.logb 10 a| ≤ 1 / 10 ^ 9 :=
  Config.decibels.laws.db_close a h0 h1

/-- Settles O34: the five reads of `getStatus`, and the level of the scale they found. -/
theorem ddsStatusReportsLevel : Obligations.DdsStatusReportsLevel := by
  intro t s h
  refine ⟨levelOf (s.dds.get t).i.scale, ?_, fun h0 => ?_, fun h0 h1 => ?_⟩
  · rw [← State.begin_ran]
    exact (run_checkTone t _ s).trans
      (run_answer (g := fun z => .report z.2.1 "MHz" z.2.2 (levelOf z.1) "dB") (getStatus_done (s := s.begin) h))
  · rw [h0, levelOf_zero]
  · rw [levelOf_pos h0]
    exact ⟨linToDb_nonpos h0 h1, linToDb_close h0 h1⟩

/-! ## DDS.STATE (R135) -/

/-- Settles O35: after the check of the switch, `setState` on tone 1 and then on tone 2. -/
theorem ddsStateSwitchesBoth : Obligations.DdsStateSwitchesBoth := by
  refine ⟨fun on s h => ?_, fun z s hon hoff => ?_⟩
  · have h1 := State.perfect_mono h (Nat.le_add_right _ _)
    exact (run_checkSwitch on _ s).trans (run_bothTones (setState_done (s := s.begin) (t := .one) h1)
      (setState_done (State.toneOneSet_perfect h)))
  · exact run_bind_error (checkSwitch_illegal hon hoff s.begin)

end DualTone

end Sys2Proof.Machine
end

section
/-! PROOFS. The statements of 42_fir_codec: the tap codec as arithmetic on bytes (R150, R151) and its round trips
(R154), the bit of a word that FIR.SETBIT sets (R152, R155), and the configuration word with its gain code (R153). -/

namespace Sys2Proof.Machine

/-! ## A command that only checks its operands and answers -/

theorem run_pure (v : Value) (s : State) : run (pure v) s = .next (s.begin.respond (.ok v)) := rfl

theorem checkRange_within {v lo hi : Int} (h0 : lo ≤ v) (h1 : v ≤ hi) (s : State) :
    checkRange v lo hi s = .ok () s := by
  rw [checkRange, if_neg (by omega), Cmd.pure_apply]

theorem checkRange_outside {v lo hi : Int} (h : v < lo ∨ hi < v) (s : State) :
    checkRange v lo hi s = .error ⟨.validation, .int v⟩ s := by
  rw [checkRange, if_pos (by omega), raise_apply]

theorem run_checkRange {v lo hi : Int} (h0 : lo ≤ v) (h1 : v ≤ hi) (f : Unit → Cmd Value) (s : State) :
    run (checkRange v lo hi >>= f) s = run (f ()) s :=
  run_bind_passed (checkRange_within h0 h1 s.begin)

theorem run_checkPath (p : Path) (f : Path → Cmd Value) (s : State) :
    run (checkPath (pathSymbol p) >>= f) s = run (f p) s :=
  run_bind_passed (checkPath_legal p s.begin)

/-- A command answers one value. -/
theorem answer_unique {i : Instr} {s t u : State} {v w : Value} (h : exec i s = .next (u.respond (.ok v)))
    (he : exec i s = .next t) (hr : t.resp = some (.ok w)) : v = w := by
  rw [h] at he
  cases he
  simpa using hr

/-! ## The bytes of a tap (R150, R151) -/

/-- The two bytes of a tap, in arithmetic. -/
theorem encodeTap_eq (v : Int) :
    encodeTap v = (BitVec.ofInt 8 (v % 65536 / 256), BitVec.ofInt 8 (v % 65536 % 256)) := by
  apply Prod.ext <;> apply BitVec.eq_of_toNat_eq <;>
    simp only [encodeTap, BitVec.extractLsb'_toNat, BitVec.toNat_ofInt, Nat.shiftRight_eq_div_pow] <;> omega

theorem toNat_join (h l : Byte) : (h ++ l : Tap).toNat = 256 * h.toNat + l.toNat := by
  rw [BitVec.toNat_append, ← Nat.shiftLeft_add_eq_or_of_lt l.isLt, Nat.shiftLeft_eq]
  omega

/-- The tap of two bytes, in arithmetic: the sign is bit 7 of the high byte. -/
theorem decodeTap_eq (h l : Byte) :
    decodeTap h l = 256 * (h.toNat : Int) + l.toNat - if (h.toNat : Int) ≥ 128 then 65536 else 0 := by
  have hl := l.isLt
  rw [decodeTap, BitVec.toInt_eq_toNat_cond, toNat_join]
  split <;> split <;> omega

theorem decodeTap_bounds (h l : Byte) : -32768 ≤ decodeTap h l ∧ decodeTap h l ≤ 32767 :=
  ⟨BitVec.le_toInt (h ++ l : Tap), Int.le_of_lt_add_one (BitVec.toInt_lt (x := (h ++ l : Tap)))⟩

theorem encodeTap_decodeTap (h l : Byte) : encodeTap (decodeTap h l) = (h, l) := by
  rw [encodeTap, decodeTap, BitVec.ofInt_toInt]
  exact Prod.ext BitVec.extractLsb'_append_eq_left BitVec.extractLsb'_append_eq_right

/-- A byte operand in its range is the number of its byte. -/
theorem toNat_ofInt_byte {v : Int} (h0 : 0 ≤ v) (h1 : v ≤ 255) : ((BitVec.ofInt 8 v).toNat : Int) = v := by
  rw [BitVec.toNat_ofInt]
  omega

theorem ofInt_toNat_byte (b : Byte) : BitVec.ofInt 8 (b.toNat : Int) = b := by
  rw [BitVec.ofInt_natCast, BitVec.ofNat_toNat, BitVec.setWidth_eq]

/-! ## FIR.ENCODE and FIR.DECODE -/

theorem exec_firEncode_within {v : Int} (h0 : -32768 ≤ v) (h1 : v ≤ 32767) (s : State) :
    exec (.firEncode v) s = .next (s.begin.respond (.ok (.bytes (encodeTap v).1 (encodeTap v).2))) :=
  (run_checkRange h0 h1 _ s).trans (run_pure _ s)

theorem exec_firDecode_within {hi lo : Int} (h0 : 0 ≤ hi) (h1 : hi ≤ 255) (l0 : 0 ≤ lo) (l1 : lo ≤ 255) (s : State) :
    exec (.firDecode hi lo) s
      = .next (s.begin.respond (.ok (.int (decodeTap (BitVec.ofInt 8 hi) (BitVec.ofInt 8 lo))))) :=
  (run_checkRange h0 h1 _ s).trans ((run_checkRange l0 l1 _ s).trans (run_pure _ s))

theorem exec_firDecode_bytes (h l : Byte) (s : State) :
    exec (.firDecode h.toNat l.toNat) s = .next (s.begin.respond (.ok (.int (decodeTap h l)))) := by
  have hh := h.isLt
  have hl := l.isLt
  rw [exec_firDecode_within (by omega) (by omega) (by omega) (by omega), ofInt_toNat_byte, ofInt_toNat_byte]

/-- Settles O37: the range check, and the two bytes of `encodeTap` in arithmetic. -/
theorem firEncodeSplitsTap : Obligations.FirEncodeSplitsTap := by
  refine ⟨fun v s h0 h1 => ?_, fun v s h => ?_⟩
  · rw [exec_firEncode_within h0 h1, encodeTap_eq]
    rfl
  · exact run_bind_error (checkRange_outside h s.begin)

/-- Settles O38: the two range checks in their order, and `decodeTap` in arithmetic. -/
theorem firDecodeJoinsBytes : Obligations.FirDecodeJoinsBytes := by
  refine ⟨fun hi lo s h0 h1 l0 l1 => ?_, fun hi lo s h => ?_, fun hi lo s h0 h1 h => ?_⟩
  · rw [exec_firDecode_within h0 h1 l0 l1, decodeTap_eq, toNat_ofInt_byte h0 h1, toNat_ofInt_byte l0 l1]
    rfl
  · exact run_bind_error (checkRange_outside h s.begin)
  · exact (run_checkRange h0 h1 _ s).trans (run_bind_error (checkRange_outside h s.begin))

/-- Settles O39: `encodeTap` and `decodeTap` are inverse to each other, and every decoded value is an int16. -/
theorem codecRoundTrip : Obligations.CodecRoundTrip := by
  refine ⟨fun v h l s t h0 h1 he hr => ?_, fun h l v s t he hr => ?_⟩
  · obtain ⟨rfl, rfl⟩ : (encodeTap v).1 = h ∧ (encodeTap v).2 = l := by
      simpa using answer_unique (exec_firEncode_within h0 h1 s) he hr
    rw [exec_firDecode_bytes, decodeTap_encodeTap h0 h1]
    rfl
  · obtain rfl : decodeTap h l = v := by
      simpa using answer_unique (exec_firDecode_bytes h l s) he hr
    obtain ⟨h0, h1⟩ := decodeTap_bounds h l
    rw [exec_firEncode_within h0 h1, encodeTap_decodeTap]
    rfl

/-! ## FIR.SETBIT (R152, R155) -/

theorem setBit_false (i : Nat) (w : Byte) : setBit i w false = w &&& ~~~((1 : Byte) <<< i) := by
  rw [setBit, show (0xFF : Byte) = BitVec.allOnes 8 from rfl, BitVec.allOnes_and]
  rfl

theorem setBit_true (i : Nat) (w : Byte) : setBit i w true = setBit i w false ||| (1 : Byte) <<< i := rfl

theorem getLsbD_one_shiftLeft {i j : Nat} (hj : j < 8) : ((1 : Byte) <<< i).getLsbD j = decide (j = i) := by
  rw [show (1 : Byte) <<< i = BitVec.twoPow 8 i from rfl, BitVec.getLsbD_twoPow, ← Bool.decide_and, decide_eq_decide]
  omega

/-- The bit set is as commanded, and the others are the word's. -/
theorem getLsbD_setBit {i j : Nat} (hj : j < 8) (w : Byte) (on : Bool) :
    (setBit i w on).getLsbD j = if j = i then on else w.getLsbD j := by
  have hclear : (setBit i w false).getLsbD j = (w.getLsbD j && !decide (j = i)) := by
    rw [setBit_false, BitVec.getLsbD_and, BitVec.getLsbD_not, getLsbD_one_shiftLeft hj, decide_eq_true hj,
      Bool.true_and]
  cases on with
  | true =>
    rw [setBit_true, BitVec.getLsbD_or, getLsbD_one_shiftLeft hj, hclear]
    by_cases h : j = i <;> simp [h]
  | false =>
    rw [hclear]
    by_cases h : j = i <;> simp [h]

/-- Only the last of two settings of one bit counts. -/
theorem setBit_setBit (i : Nat) (w : Byte) (a b : Bool) : setBit i (setBit i w a) b = setBit i w b := by
  apply BitVec.eq_of_getLsbD_eq
  intro j hj
  rw [getLsbD_setBit hj, getLsbD_setBit hj, getLsbD_setBit hj]
  split <;> rfl

theorem exec_firSetBit_legal {i w : Int} (h0 : 0 ≤ i) (h1 : i ≤ 7) (w0 : 0 ≤ w) (w1 : w ≤ 255) (on : Bool) (s : State) :
    exec (.firSetBit i w (switchSymbol on)) s
      = .next (s.begin.respond (.ok (.byte (setBit i.toNat (BitVec.ofInt 8 w) on)))) :=
  (run_checkRange h0 h1 _ s).trans ((run_checkRange w0 w1 _ s).trans ((run_checkSwitch on _ s).trans (run_pure _ s)))

/-- Settles O40: the three checks in their order, and the bits of `setBit`. -/
theorem firSetBitChangesOneBit : Obligations.FirSetBitChangesOneBit := by
  refine ⟨fun i w on s hi hw => ⟨setBit i (BitVec.ofNat 8 w) on, ?_, fun j hj => ?_⟩, fun i w x s h => ?_,
    fun i w x s h0 h1 h => ?_, fun i w x s h0 h1 w0 w1 hon hoff => ?_⟩
  · rw [exec_firSetBit_legal (by omega) (by omega) (by omega) (by omega), Int.toNat_natCast, BitVec.ofInt_natCast]
    rfl
  · rw [getLsbD_setBit hj, BitVec.getLsbD_ofNat, decide_eq_true hj, Bool.true_and]
  · exact run_bind_error (checkRange_outside h s.begin)
  · exact (run_checkRange h0 h1 _ s).trans (run_bind_error (checkRange_outside h s.begin))
  · exact (run_checkRange h0 h1 _ s).trans ((run_checkRange w0 w1 _ s).trans
      (run_bind_error (checkSwitch_illegal hon hoff s.begin)))

/-- Settles O41: clearing bit i after setting it is clearing it. -/
theorem setBitLaw : Obligations.SetBitLaw := fun i w _ => by
  rw [setBit_setBit, setBit_false]

/-! ## FIR.BUILDCFG (R153, 30_encoding R72, R73) -/

/-- The fields of the configuration word do not overlap, so the word is their sum (R72). -/
theorem configWord_eq {taps : Int} (h : 16 ≤ taps) {gm : Nat} (hg : gm < 8) :
    configWord taps gm = BitVec.ofInt 8 ((taps / 16 - 1) * 32 + 24 + gm) := by
  have hlow : 0b11 <<< 3 ||| gm = 24 + gm := (Nat.shiftLeft_add_eq_or_of_lt (i := 3) hg 3).symm
  have hsum : tapClass taps <<< 5 ||| 0b11 <<< 3 ||| gm = tapClass taps * 32 + 24 + gm := by
    rw [Nat.or_assoc, hlow, ← Nat.shiftLeft_add_eq_or_of_lt (i := 5) (by omega), Nat.shiftLeft_eq]
    omega
  rw [configWord, hsum, ← BitVec.ofInt_natCast, tapClass]
  congr 1
  omega

theorem txGainBit_cast (gain : Rat) : (txGainBit gain : Int) = if gain = -6 then 1 else 0 := by
  rw [txGainBit]
  split <;> rfl

/-- The RX gain code counts steps of 6 dB from -12 dB (R73). -/
theorem rxGainCode_of_steps {gain : Rat} {k : Int} (h : gain = 6 * k - 12) : rxGainCode gain = BitVec.ofInt 2 k := by
  rw [rxGainCode, h, show (6 * (k : Rat) - 12 + 12) / 6 = k by ring, Rat.floor_intCast]

theorem rxGainCode_legal {gain : Rat} (h : gain ∈ legalGains .rx) :
    rxGainCode gain = if gain = -12 then 0 else if gain = -6 then 1 else if gain = 0 then 2 else 3 := by
  obtain rfl | rfl | rfl | rfl : gain = -12 ∨ gain = -6 ∨ gain = 0 ∨ gain = 6 := by simpa [legalGains] using h
  · exact rxGainCode_of_steps (k := 0) (by norm_num)
  · exact rxGainCode_of_steps (k := 1) (by norm_num)
  · exact rxGainCode_of_steps (k := 2) (by norm_num)
  · exact rxGainCode_of_steps (k := 3) (by norm_num)

/-- Settles O42: the checks of the path and of `buildConfig` in their order, and its two fields in arithmetic. -/
theorem firBuildCfgPacksWord : Obligations.FirBuildCfgPacksWord := by
  refine ⟨fun p taps gain s h0 h1 h2 hg => ?_, fun x taps gain s htx hrx => ?_, fun p taps gain s h => ?_,
    fun p taps gain s h0 h1 h2 hg => ?_⟩
  · refine (run_checkPath p _ s).trans ((run_answer (g := fun z => .config z.1 z.2)
      (buildConfig_legal h0 h1 h2 hg s.begin)).trans ?_)
    cases p with
    | tx =>
      rw [← txGainBit_cast, ← configWord_eq h0 (by unfold txGainBit; split <;> omega)]
      rfl
    | rx =>
      have hcfg : configWord taps 0 = BitVec.ofInt 8 ((taps / 16 - 1) * 32 + 24) := by
        simpa using configWord_eq h0 (gm := 0) (by decide)
      rw [← rxGainCode_legal hg, ← hcfg]
      rfl
  · exact run_bind_error (checkPath_illegal htx hrx s.begin)
  · exact (run_checkPath p _ s).trans (run_bind_error (buildConfig_taps h s.begin))
  · exact (run_checkPath p _ s).trans (run_bind_error (buildConfig_gain h0 h1 h2 hg s.begin))

end Sys2Proof.Machine
end

section
/-! PROOFS. The statements of 43_fir_programmer: the upload on the reference device and on any (R171 to R174), its
validation (R170), the readback (R176 to R178) and `trim` (R175), what an upload leaves for a later readback (R181), and
the load of a blob (R182). -/

namespace Sys2Proof.Machine

section FirProgrammer

variable {P : State → State → Prop} {s t u : State} {p q : Path} {c : List Int} {taps : Int} {gain : Rat}

/-! ## The upload (R171 to R174) -/

/-- A legal upload on a transport that does not fail, on any FIR device. -/
theorem exec_upload_done (hl : LegalUpload p c taps gain) (hp : s.perfect (uploadCount p)) :
    exec (uploadInstr p c taps gain) s = .next ((s.begin.uploaded p c taps gain).blur.respond (.ok .unit)) := by
  rw [exec_upload]
  exact run_ok (onPaths_ok (firWrite_done hl (State.perfect_begin hp)))

/-- The FIR device after a legal upload, where it is the reference device (20_memory R58). -/
theorem State.uploaded_fir_reference (hl : LegalUpload p c taps gain) (hd : s.setup.firDevice = .reference) :
    (s.uploaded p c taps gain).fir = uploadedFir s.fir p c (configWord taps (gainBit p gain)) gain := by
  simp only [State.uploaded]
  rw [hd, uploadWrites_reference p c _ gain _ (configWord_bits hl)]
  rfl

/-- Settles O43: an upload issues its sequence, and the reference device then holds what `uploadedFir` says. -/
theorem uploadProgramsReferenceDevice : Obligations.UploadProgramsReferenceDevice := by
  intro p c taps gain s hl hd hp
  rw [exec_upload_done hl hp, ← State.begin_ran, ← State.uploaded_fir_reference (s := s) hl hd]
  rfl

/-- Settles O44: the sequence does not depend on the device, and `blur` leaves FIR_EN alone once no path is
indeterminate. -/
theorem uploadSequenceMandatory : Obligations.UploadSequenceMandatory := by
  intro p c taps gain s hl hp
  have htrace : (s.begin.uploaded p c taps gain).trace = uploadTrace p c (configWord taps (gainBit p gain)) gain := rfl
  refine ⟨_, exec_upload_done hl hp, rfl, ?_, ?_, ?_, ?_, fun hother => ?_⟩
  · rw [State.respond_trace, State.blur_trace, htrace]
  · rw [State.respond_trace, State.blur_trace, htrace, uploadTrace_length]
  · rw [State.respond_indet, State.blur_indet]
    rfl
  · rw [State.respond_seq, State.blur_seq]
    rfl
  · have hdet : ∀ q, (s.begin.uploaded p c taps gain).indet.get q = false := by
      intro q
      by_cases hq : q = p <;> simp [State.uploaded, hq, hother]
    rw [State.respond_fir, State.blur_eq_self _ hdet]
    rfl

/-! ## The validation of an upload (R170) -/

/-- An upload whose validation raises makes no transaction and leaves its path determinate. -/
theorem exec_upload_invalid {e : Failure} (h : validateWrite p c taps gain s.begin = .error e s.begin)
    (he : e.kind ≠ .transport) :
    exec (uploadInstr p c taps gain) s = .next { s with trace := [], resp := some (.err e.kind e.info) } := by
  have hw : firWrite p c taps gain s.begin = .error e s.begin := by rw [firWrite, Cmd.bind_apply, h]
  rw [exec_upload]
  exact run_error (onPaths_error hw he)

theorem validateWrite_taps (h : taps < 16 ∨ 128 < taps ∨ taps % 16 ≠ 0) (s : State) :
    validateWrite p c taps gain s = .error ⟨.validation, .int taps⟩ s := by
  rw [validateWrite, Cmd.bind_apply, buildConfig_taps h]

theorem validateWrite_gain (h0 : 16 ≤ taps) (h1 : taps ≤ 128) (h2 : taps % 16 = 0) (hg : gain ∉ legalGains p)
    (s : State) : validateWrite p c taps gain s = .error ⟨.range, .legal (legalGains p)⟩ s := by
  rw [validateWrite, Cmd.bind_apply, buildConfig_gain h0 h1 h2 hg]

theorem validateWrite_length (h0 : 16 ≤ taps) (h1 : taps ≤ 128) (h2 : taps % 16 = 0) (hg : gain ∈ legalGains p)
    (hlen : 128 < c.length) (s : State) :
    validateWrite p c taps gain s = .error ⟨.validation, .int c.length⟩ s := by
  rw [validateWrite, Cmd.bind_apply, buildConfig_legal h0 h1 h2 hg]
  dsimp only
  rw [if_pos hlen, raise_apply]

theorem validateWrite_tap (h0 : 16 ≤ taps) (h1 : taps ≤ 128) (h2 : taps % 16 = 0) (hg : gain ∈ legalGains p)
    {a b : List Int} {v : Int} (hlen : (a ++ v :: b).length ≤ 128) (ha : ∀ x ∈ a, -32768 ≤ x ∧ x ≤ 32767)
    (hv : v < -32768 ∨ 32767 < v) (s : State) :
    validateWrite p (a ++ v :: b) taps gain s = .error ⟨.validation, .int v⟩ s := by
  rw [validateWrite, Cmd.bind_apply, buildConfig_legal h0 h1 h2 hg]
  dsimp only
  rw [if_neg (not_lt.mpr hlen), Cmd.bind_apply, checkTapValues_illegal ha hv]

/-- Settles O46: the checks of `validateWrite` in their order, each before the first transaction. -/
theorem uploadValidatesBeforeTraffic : Obligations.UploadValidatesBeforeTraffic := by
  intro p c taps gain s
  refine ⟨fun htaps => ?_, fun h0 h1 h2 => ⟨fun hg => ?_, fun hg => ⟨fun hlen => ?_, ?_⟩⟩⟩
  · exact exec_upload_invalid (validateWrite_taps htaps s.begin) ErrKind.noConfusion
  · exact exec_upload_invalid (validateWrite_gain h0 h1 h2 hg s.begin) ErrKind.noConfusion
  · exact exec_upload_invalid (validateWrite_length h0 h1 h2 hg hlen s.begin) ErrKind.noConfusion
  · rintro hlen a v b rfl ha hv
    exact exec_upload_invalid (validateWrite_tap h0 h1 h2 hg hlen ha hv s.begin) ErrKind.noConfusion

/-! ## The readback (R176 to R178) -/

theorem exec_readback (p : Path) (s : State) : exec (readbackInstr p) s = run (onPaths [p] (firRead p)) s := by
  cases p <;> rfl

/-- Settles O47: `firRead` on a determinate path of the reference device, and the `blur` that ends a FIR command. -/
theorem readbackReturnsTrimmedBank : Obligations.ReadbackReturnsTrimmedBank := by
  intro p s hd hdet hp
  rw [exec_readback, ← State.begin_ran]
  exact run_ok (onPaths_ok (firRead_done (s := s.begin) hd hdet (State.perfect_begin hp)))

/-! ## `trim` (R175) -/

/-- A list is its run of zeros at the start and the rest. -/
theorem exists_replicate_append_dropWhile_zero (l : List Int) :
    ∃ m, List.replicate m 0 ++ l.dropWhile (· = 0) = l := by
  have hzeros : l.takeWhile (· = 0) = List.replicate (l.takeWhile (· = 0)).length 0 :=
    List.eq_replicate_of_mem fun v hv => by simpa using List.mem_takeWhile_imp hv
  exact ⟨_, by rw [← hzeros, List.takeWhile_append_dropWhile]⟩

theorem head?_dropWhile_zero_ne (l : List Int) : (l.dropWhile (· = 0)).head? ≠ some 0 := by
  intro h
  have hfirst := List.head?_dropWhile_not (fun v : Int => decide (v = 0)) l
  simp [h] at hfirst

/-- Without its zeros at the start, a list is what `trim` leaves of it and zeros. -/
theorem exists_trim_append_replicate (r : List Int) : ∃ n, trim r ++ List.replicate n 0 = r.dropWhile (· = 0) := by
  obtain ⟨n, hn⟩ := exists_replicate_append_dropWhile_zero (r.dropWhile (· = 0)).reverse
  exact ⟨n, by rw [trim, ← List.reverse_replicate, ← List.reverse_append, hn, List.reverse_reverse]⟩

/-- Settles O48: `trim` drops the zeros at the start, and then those at the end of what is left. -/
theorem trimRemovesZeroRuns : Obligations.TrimRemovesZeroRuns := by
  intro r
  obtain ⟨m, hstart⟩ := exists_replicate_append_dropWhile_zero r
  obtain ⟨n, hend⟩ := exists_trim_append_replicate r
  refine ⟨m, n, ?_, fun hhead => head?_dropWhile_zero_ne r ?_, ?_⟩
  · rw [List.append_assoc, hend, hstart]
  · rw [← hend, List.head?_append, hhead, Option.some_or]
  · rw [trim, List.getLast?_reverse]
    exact head?_dropWhile_zero_ne _

/-! ## Commands that are not on a path -/

/-- A command off path `p` keeps every frame that allows the tone operations and the FIR sequences of the other path. -/
theorem CommandFrame.of_off_path (h : CommandFrame P) (ht : ∀ t, ToneFrame P t) (hq : ∀ q, q ≠ p → PathFrame P q)
    {i : Instr} (hi : onFirPath p i = false) (he : exec i s = .next t) : P s t := by
  cases i with
  | firWriteTx c taps gain =>
    have hf := hq .tx (Ne.symm (of_decide_eq_false hi))
    exact h.of_run (hf.onPath (hf.firWrite c taps gain)) he
  | firWriteRx c taps gain =>
    have hf := hq .rx (Ne.symm (of_decide_eq_false hi))
    exact h.of_run (hf.onPath (hf.firWrite c taps gain)) he
  | firReadTx =>
    have hf := hq .tx (Ne.symm (of_decide_eq_false hi))
    exact h.of_run (hf.onPath hf.firRead) he
  | firReadRx =>
    have hf := hq .rx (Ne.symm (of_decide_eq_false hi))
    exact h.of_run (hf.onPath hf.firRead) he
  | firLoadFile => exact nomatch hi
  | firEncode | firDecode | firSetBit | firBuildCfg => exact h.of_codec (ht .one).toReadFrame rfl he
  | toneGetFs | toneSetFreq | toneGetFreq | toneSetPhase | toneGetPhase | toneSetAmp | toneGetAmp | toneState
  | toneStatus | ddsSetAmp | ddsSetFreq | ddsSetPhase | ddsIsOff | ddsStatus | ddsState => exact h.of_dds ht rfl he

/-- Path `p` of the reference device is determinate and holds `x`. -/
structure State.HoldsPath (p : Path) (x : FirPath) (s : State) : Prop where
  reference : s.setup.firDevice = .reference
  determinate : s.indet.get p = false
  path : s.fir.regs.paths.get p = x

variable {x : FirPath}

/-- What a path holds is seen in the FIR subsystem and the launch parameters. -/
theorem State.HoldsPath.congr (h : s.HoldsPath p x) (hf : SameFir s t) (hi : SameInputs s t) : t.HoldsPath p x where
  reference := hi.setup.symm ▸ h.reference
  determinate := hf.indet.symm ▸ h.determinate
  path := hf.fir.symm ▸ h.path

/-- A register write to one path of the reference device leaves the other path alone. -/
theorem FirRegs.refWrite_other_path (r : FirRegs) (reg : WriteReg) (v : Byte) (h : WriteReg.path reg ≠ p) :
    (r.refWrite reg v).paths.get p = r.paths.get p := by
  cases reg with
  | firGain => rfl
  | coeffAddr q | writeLo q | writeHi q | firConfig q =>
    exact (PerPath.get_set _ _ _ _).trans (if_neg (Ne.symm h))

theorem State.HoldsPath.framing : Framing fun s t : State => s.HoldsPath p x → t.HoldsPath p x where
  refl _ := id
  trans _ _ _ h k := k ∘ h

theorem State.HoldsPath.command : CommandFrame fun s t : State => s.HoldsPath p x → t.HoldsPath p x where
  toFraming := State.HoldsPath.framing
  begin s h := h.congr (SameFir.command.begin s) (SameInputs.command.begin s)
  respond s r h := h.congr (SameFir.command.respond s r) (SameInputs.command.respond s r)

theorem State.HoldsPath.tone (t : Tone) : ToneFrame (fun s t : State => s.HoldsPath p x → t.HoldsPath p x) t where
  toFraming := State.HoldsPath.framing
  issue s y h := h.congr ((SameFir.tone t).issue s y) ((SameInputs.tone t).issue s y)
  store s ch a v h := h.congr ((SameFir.tone t).store s ch a v) ((SameInputs.tone t).store s ch a v)
  regs s r h := h.congr ((SameFir.tone t).regs s r) ((SameInputs.tone t).regs s r)

/-- The FIR sequences of one path leave what the other holds; so does `blur`, since the other is determinate. -/
theorem State.HoldsPath.otherPath (hq : q ≠ p) :
    PathFrame (fun s t : State => s.HoldsPath p x → t.HoldsPath p x) q where
  toFraming := State.HoldsPath.framing
  issue _ _ h := ⟨h.reference, h.determinate, h.path⟩
  reg s r v hr h := by
    refine ⟨h.reference, h.determinate, ?_⟩
    rw [State.storeReg_fir, h.reference]
    exact (s.fir.regs.refWrite_other_path r v (hr ▸ hq)).trans h.path
  enable _ _ h := ⟨h.reference, h.determinate, h.path⟩
  seq _ _ h := ⟨h.reference, h.determinate, h.path⟩
  indet s b h := ⟨h.reference, by rw [PerPath.get_set, if_neg (Ne.symm hq), h.determinate], h.path⟩
  blur s h := ⟨by rw [s.blur_setup, h.reference], by rw [s.blur_indet, h.determinate],
    (s.blur_path h.determinate).trans h.path⟩

/-- Commands off a path leave what it holds, however each of them ends. -/
theorem State.HoldsPath.commands {is : List Instr} (h : s.HoldsPath p x) (hi : ∀ i ∈ is, onFirPath p i = false)
    (hc : Commands is s t) : t.HoldsPath p x := by
  induction is generalizing s with
  | nil =>
    obtain rfl : t = s := hc
    exact h
  | cons i is ih =>
    obtain ⟨u, hu, hrest⟩ := hc
    have hkeep : u.HoldsPath p x := State.HoldsPath.command.of_off_path State.HoldsPath.tone
      (fun _ hq => State.HoldsPath.otherPath hq) (hi i List.mem_cons_self) hu h
    exact ih hkeep (fun j hj => hi j (List.mem_cons_of_mem i hj)) hrest

/-! ## What was uploaded reads back (R181) -/

/-- An upload that ends ok on the reference device leaves its path determinate, with the taps in its bank. -/
theorem exec_upload_ok_holds (hd : s.setup.firDevice = .reference) (he : exec (uploadInstr p c taps gain) s = .next t)
    (hr : t.resp = some (.ok .unit)) :
    LegalUpload p c taps gain ∧ t.HoldsPath p (uploadedPath c (configWord taps (gainBit p gain))) := by
  have hsetup := (exec_keeps_inputs he).setup
  rw [exec_upload] at he
  obtain ⟨r, hrun, rfl⟩ := run_answered_ok he hr
  obtain ⟨u, hu, rfl⟩ := onPaths_ok_inv hrun
  obtain ⟨hl, T, rfl⟩ := firWrite_ok hu
  have hdet : ((s.begin.uploaded p c taps gain).withTransport T).indet.get p = false := by
    simp [State.uploaded]
  refine ⟨hl, hsetup.symm ▸ hd, ?_, ?_⟩
  · rw [State.respond_indet, State.blur_indet, hdet]
  · exact (State.blur_path _ hdet).trans (State.uploaded_path_reference hl hd)

/-- The taps of an upload come back trimmed from the bank it leaves (10_state R38). -/
theorem trim_bankTaps_uploadedPath (hl : LegalUpload p c taps gain) (cfg : Byte) :
    trim (bankTaps (uploadedPath c cfg).bank) = trim c := by
  change trim (bankTaps (uploadedBank c)) = trim c
  rw [bankTaps_uploaded hl.length_le hl.values, trim_append_zeros]

/-- Settles O49: the upload's path holds what was uploaded, every command in between leaves it (`HoldsPath.commands`),
and the readback (O47) answers its bank trimmed. -/
theorem uploadThenReadbackTrims : Obligations.UploadThenReadbackTrims := by
  intro p c taps gain between s t u hd he hr hoff hc hp
  obtain ⟨hl, ht⟩ := exec_upload_ok_holds hd he hr
  have hu := ht.commands hoff hc
  refine ⟨_, readbackReturnsTrimmedBank p u hu.reference hu.determinate hp, ?_⟩
  rw [State.respond_resp, hu.path, trim_bankTaps_uploadedPath hl]

/-! ## The load of a blob (R182) -/

theorem attrSetS_done {rest : List Draw} (h : s.transport = .done :: rest) (a : FirAttr) (v : String) :
    attrSetS a v s = .ok () ((s.issue (.attrSetS a v)).storeFirAttr a v) := writeTransaction_done h _ _

/-- The three writes of R182: both paths end determinate, with the registers and banks that the blob gives them. -/
theorem loadBlob_done (b : String) (h : s.perfect 3) :
    loadBlob b s = .ok () { s.ran (loadTrace b) with
      seq := .idle
      indet := ⟨false, false⟩
      fir := { regs := Config.blobEffect b, enable := "1", blob := b } } := by
  obtain ⟨rest, hr⟩ := State.perfect_split h
  simp only [loadBlob, Cmd.bind_apply, setSeq_apply, clearIndet_apply]
  rw [attrSetS_done (by exact hr)]
  dsimp only
  rw [attrSetS_done (by simp [hr]; rfl)]
  dsimp only
  rw [attrSetS_done (by simp [hr]; rfl)]
  simp [State.ran, loadTrace, hr, PerPath.set]

theorem findFile_present {name b : String} (h : s.setup.files.lookup name = some b) :
    findFile name s = .ok b s := by
  simp [findFile, h]

theorem findFile_absent {name : String} (h : s.setup.files.lookup name = none) :
    findFile name s = .error ⟨.notFound, .name name⟩ s := by
  simp [findFile, h]

/-- Settles O50: a load leaves no path indeterminate, so `blur` changes nothing; an absent file raises before the
load. -/
theorem loadFileWritesBlob : Obligations.LoadFileWritesBlob := by
  refine ⟨fun name b s hfile hp => ?_, fun name s hfile => ?_⟩
  · have hload : (do let b ← findFile name; loadBlob b; return Value.unit : Cmd Value) s.begin = .ok .unit
        { s.issued (loadTrace b) with
          seq := .idle
          indet := ⟨false, false⟩
          fir := { regs := Config.blobEffect b, enable := "1", blob := b } } := by
      rw [Cmd.bind_apply, findFile_present (s := s.begin) hfile]
      dsimp only
      rw [Cmd.bind_apply, loadBlob_done b (State.perfect_begin hp), ← State.begin_ran]
      rfl
    refine (run_ok (onPaths_ok hload)).trans ?_
    rw [State.blur_eq_self _ fun q => by cases q <;> rfl]
  · have hload : (do let b ← findFile name; loadBlob b; return Value.unit : Cmd Value) s.begin
        = .error ⟨.notFound, .name name⟩ s.begin := by
      rw [Cmd.bind_apply, findFile_absent (s := s.begin) hfile]
    exact run_error (onPaths_error hload ErrKind.noConfusion)

end FirProgrammer

end Sys2Proof.Machine
end

section
/-! PROOFS. The statements of 60_exceptions, with the inputs of 70_reset that are no commands: the illegal command
(R204), the absent handle (R203), the inputs that run nothing (R211, R230, R242), where a transaction that fails leaves
every command (R205, R207), and what it leaves of a FIR command (R205 item 5). -/

namespace Sys2Proof.Machine

section ExceptionFamily

variable {α β : Type} {s t : State}

/-! ## The illegal command (R204, 30_encoding R78) -/

/-- A header byte and operand record that are no command's encoding do not decode (R70). -/
theorem decode_error_of_not_encoding {c : RawCommand} (h : ∀ i : Instr, encode i ≠ c) : ∃ e, decode c = .error e := by
  cases hd : decode c with
  | error e => exact ⟨e, rfl⟩
  | ok i => exact absurd (encodeOfDecode c i hd) (h i)

theorem accept_illegal {c : RawCommand} {e : DecodeError} (hb : s.boot = .ready) (hd : decode c = .error e) :
    accept c s = .next (s.refuseCommand c.opc) := by
  simp only [accept, hb, hd]

/-- Settles O6: what is no encoding does not decode (O2), and a ready block turns it away. -/
theorem illegalCommandAnswered : Obligations.IllegalCommandAnswered := by
  intro s c rest hb hp hc
  obtain ⟨e, hd⟩ := decode_error_of_not_encoding hc
  calc step s = accept c { s with port := rest } := step_command hp
    _ = .next (({ s with port := rest } : State).refuseCommand c.opc) := accept_illegal hb hd

/-! ## The absent handle (R203, 70_reset R232 item 1) -/

theorem step_reset {rest : List Input} (hp : s.port = .reset :: rest) :
    step s = .next ({ s with port := rest } : State).construct := by
  simp only [step, hp]

theorem accept_absent {c : RawCommand} {h : Handle} (hb : s.boot = .absent h) :
    accept c s = .fault (.notConstructed h) := by
  simp only [accept, hb]

/-- Settles O55: the construction ends before its first transaction, and what waits behind it meets a block that is not
constructed. -/
theorem absentHandleStopsBlock : Obligations.AbsentHandleStopsBlock := by
  refine ⟨fun s rest h hp ha => ?_, fun s c rest h hb hp => ?_⟩
  · rw [step_reset hp, construct_absent (s := { s with port := rest }) ha]
    rfl
  · exact (step_command hp).trans (accept_absent hb)

/-! ## The other inputs (R211, 70_reset R230, R242) -/

theorem State.channel_setChannel (s : State) (ch c : ChanId) (x : Channel) :
    (s.setChannel ch x).channel c = if c = ch then x else s.channel c := by
  obtain ⟨t, d⟩ := ch
  obtain ⟨u, e⟩ := c
  simp only [State.channel, State.setChannel_dds, PerTone.get_set, ChanId.mk.injEq]
  by_cases hu : u = t
  · subst hu
    simp
  · simp [hu]

/-- Settles O57: none of these inputs runs a command; a changed rate is the one value it changes. -/
theorem otherInputs : Obligations.OtherInputs := by
  refine ⟨fun s hp => ?_, fun s rest hp => ?_, fun s rest ch fs hp => ?_⟩
  · simp only [step, hp]
  · simp only [step, hp]
  · refine ⟨({ s with port := rest } : State).changeRate ch fs, by simp only [step, hp], rfl, rfl, ?_, fun c => ?_⟩
    · rw [State.changeRate, State.channel_setChannel, if_pos rfl]
      rfl
    · rw [State.changeRate, State.channel_setChannel]
      split
      case isTrue h => rw [h]; rfl
      case isFalse => rfl

/-! ## Where a command's registers stand at each of its transactions (R205 items 4 and 5) -/

/-- The block's registers while the command `i`, run from `s`, issues its transaction number `k`. -/
def ctlAt (s : State) (i : Instr) (k : Nat) : Ctl := ⟨registersAt s k i, seqAt s k i, s.indet⟩

/-- From `s`, the program `c` has a script, and issues transaction `j` of it while the block's registers stand at
`k j`. -/
def Issues (c : Cmd α) (s : State) (k : Nat → Ctl) : Prop := ∃ xs r, Script c s (steps k xs) r

section Steps

variable {k k₁ k₂ : Nat → Ctl} {xs ys : List Transaction}

theorem steps_append (k : Nat → Ctl) (xs ys : List Transaction) :
    steps k (xs ++ ys) = steps k xs ++ steps (fun j => k (xs.length + j)) ys := by
  simp [steps, List.mapIdx_append, Nat.add_comm]

theorem steps_congr (h : ∀ j < xs.length, k₁ j = k₂ j) : steps k₁ xs = steps k₂ xs := by
  apply List.ext_getElem
  · simp
  · intro j h1 _
    simp [steps, h j (by simpa using h1)]

/-! ### Sequencing -/

variable {c : Cmd α} {f : α → Cmd β} {a : α} {e : Failure} {s1 : State}

theorem Issues.congr (h : Issues c s k₁) (hk : ∀ j, k j = k₁ j) : Issues c s k := by
  obtain rfl : k = k₁ := funext hk
  exact h

theorem Issues.pure (a : α) (s : State) (k : Nat → Ctl) : Issues (pure a) s k := ⟨[], _, .pure a s⟩

/-- A turn that ends with a value, and the turn after it. -/
theorem Issues.turn (h : Script c s (steps k₁ xs) (.ok a s1)) (h1 : ∀ j < xs.length, k j = k₁ j)
    (g : Issues (f a) s1 k₂) (h2 : ∀ j, k (xs.length + j) = k₂ j) : Issues (c >>= f) s k := by
  obtain ⟨ys, r, hy⟩ := g.congr h2
  refine ⟨xs ++ ys, r, ?_⟩
  rw [steps_append, steps_congr h1]
  exact h.bind_ok hy

/-- A turn that raises is the last. -/
theorem Issues.lastTurn (h : Script c s (steps k₁ xs) (.error e s1)) (h1 : ∀ j < xs.length, k j = k₁ j) :
    Issues (c >>= f) s k := by
  rw [← steps_congr h1] at h
  exact ⟨xs, _, h.bind_error⟩

/-- A check that passes. -/
theorem Issues.passed (h : Script c s [] (.ok a s)) (g : Issues (f a) s k) : Issues (c >>= f) s k :=
  .turn (xs := []) (k₁ := k) h (fun _ _ => rfl) g fun j => by rw [List.length_nil, Nat.zero_add]

/-- A check that raises. -/
theorem Issues.refused (h : Script c s [] (.error e s1)) : Issues (c >>= f) s k := ⟨[], _, h.bind_error⟩

/-- A program that answers with what another ended with. -/
theorem Issues.answer {g : α → β} (h : Issues c s k) : Issues (c >>= fun x => Pure.pure (g x)) s k := by
  obtain ⟨xs, r, hx⟩ := h
  cases r with
  | ok a s1 => exact ⟨xs ++ [], _, by rw [steps_append]; exact hx.bind_ok (.pure (g a) s1)⟩
  | error e s1 => exact ⟨xs, _, hx.bind_error⟩

end Steps

/-! ### Operand checks -/

section Checks

variable {k : Nat → Ctl}

theorem Issues.checkTone {z : Int} {f : Tone → Cmd β} (h : ∀ t, toneOf z = some t → Issues (f t) s k) :
    Issues (checkTone z >>= f) s k := by
  unfold Machine.checkTone
  cases hz : toneOf z with
  | none => exact .refused (.raise s ErrKind.noConfusion)
  | some t => exact .passed (.pure t s) (h t hz)

theorem Issues.checkSwitch {x : Symbol} {f : Bool → Cmd β} (h : ∀ on, switchOf x = some on → Issues (f on) s k) :
    Issues (checkSwitch x >>= f) s k := by
  unfold Machine.checkSwitch
  cases hx : switchOf x with
  | none => exact .refused (.raise s ErrKind.noConfusion)
  | some on => exact .passed (.pure on s) (h on hx)

theorem Issues.checkChan {x : Symbol} {f : Chan → Cmd β} (h : ∀ d, Issues (f d) s k) :
    Issues (checkChan x >>= f) s k := by
  unfold Machine.checkChan
  cases chanOf x with
  | none => exact .refused (.raise s ErrKind.noConfusion)
  | some d => exact .passed (.pure d s) (h d)

theorem Issues.checkPath {x : Symbol} {f : Path → Cmd β} (h : ∀ p, Issues (f p) s k) :
    Issues (checkPath x >>= f) s k := by
  unfold Machine.checkPath
  cases pathOf x with
  | none => exact .refused (.raise s ErrKind.noConfusion)
  | some p => exact .passed (.pure p s) (h p)

/-- A check of the FIR family: it makes no transaction and changes nothing. -/
theorem Issues.check {c : Cmd α} {f : α → Cmd β} (h : ∃ r, Script c s [] r ∧ endState r = s)
    (g : ∀ a, Issues (f a) s k) : Issues (c >>= f) s k := by
  obtain ⟨r, hr, hs⟩ := h
  cases r with
  | error e u => exact .refused hr
  | ok a u =>
    obtain rfl : u = s := hs
    exact .passed hr (g a)

theorem Issues.checkRange {v lo hi : Int} {f : Unit → Cmd β} (h : ∀ a, Issues (f a) s k) :
    Issues (checkRange v lo hi >>= f) s k := .check (checkRange_script v lo hi s) h

end Checks

/-! ### Tone operations -/

theorem attrGet_issues (ch : ChanId) (a : Attr) (s : State) : Issues (attrGet ch a) s fun _ => s.ctl :=
  ⟨[.attrGet ch a], _, attrGet_script ch a s⟩

theorem setFreq_issues (s : State) (t : Tone) (f : Rat) :
    Issues (setFreq t f) s fun j => s.ctl.setTone t (freqRegsAt (s.tones.get t) f j) := by
  by_cases hb : |f| ≤ (s.dds.get t).i.fs / 2
  · exact ⟨_, _, setFreq_script hb⟩
  · have h := setFreq_script_beyond (not_le.mp hb)
    rw [steps_congr (k₂ := fun j => s.ctl.setTone t (freqRegsAt (s.tones.get t) f j)) fun j hj => by
      obtain rfl : j = 0 := Nat.lt_one_iff.mp hj
      exact (Ctl.setTone_get s t).symm] at h
    exact ⟨_, _, h⟩

theorem setPhase_issues (s : State) (t : Tone) (phi : Rat) : Issues (setPhase t phi) s fun _ => s.ctl :=
  ⟨_, _, setPhase_script s t phi⟩

theorem setAmp_issues (s : State) (t : Tone) (a : Rat) : Issues (setAmp t a) s fun _ => s.ctl := by
  by_cases h : a < 0 ∨ 1 < a
  · exact ⟨[], _, setAmp_script_beyond h⟩
  · push Not at h
    exact ⟨_, _, setAmp_script h.1 h.2⟩

theorem setState_issues (s : State) (t : Tone) (on : Bool) :
    Issues (setState t on) s fun j => s.ctl.setTone t (switchRegsAt (s.dds.get t) (s.tones.get t) on j) :=
  ⟨_, _, setState_script s t on⟩

/-- An omitted level counts as legal: it mutes the tone (41_dual_tone R130). -/
theorem level_legal_or_positive (d : Option Rat) : (∀ x, d = some x → x ≤ 0) ∨ ∃ x, d = some x ∧ 0 < x := by
  by_cases h : ∃ x, d = some x ∧ 0 < x
  · exact .inr h
  · exact .inl fun x hx => not_lt.mp fun h0 => h ⟨x, hx, h0⟩

theorem setLevel_issues (s : State) (t : Tone) (d : Option Rat) :
    Issues (setLevel t d) s fun j => s.ctl.setTone t (levelRegsAt (s.dds.get t) (s.tones.get t) j d) := by
  rcases level_legal_or_positive d with hd | ⟨x, rfl, hx⟩
  · exact ⟨_, _, setLevel_script hd⟩
  · exact ⟨[], _, setLevel_script_positive hx⟩

theorem getFreq_issues (s : State) (t : Tone) : Issues (getFreq t) s fun _ => s.ctl := ⟨_, _, getFreq_script s t⟩

theorem getStatus_issues (s : State) (t : Tone) : Issues (getStatus t) s fun _ => s.ctl := ⟨_, _, getStatus_script s t⟩

/-! ### FIR sequences -/

theorem firWrite_issues (p : Path) (c : List Int) (taps : Int) (gain : Rat) (s : State) :
    Issues (firWrite p c taps gain) s fun j => s.ctl.atSeq (uploadSeq p j) := by
  by_cases h : LegalUpload p c taps gain
  · obtain ⟨u, hu, -⟩ := firWrite_script h s
    exact ⟨_, _, hu⟩
  · obtain ⟨e, he⟩ := firWrite_script_illegal h s
    exact ⟨[], _, he⟩

theorem firRead_issues (p : Path) (s : State) : Issues (firRead p) s fun j => s.ctl.atSeq (readbackSeq j) := by
  obtain ⟨v, u, hu, -⟩ := firRead_script p s
  exact ⟨_, _, hu⟩

theorem loadFile_issues (name : String) (s : State) :
    Issues (do let b ← findFile name; loadBlob b; return Value.unit) s fun j => s.ctl.atSeq (loadSeq j) := by
  cases h : s.setup.files.lookup name with
  | none => exact .refused (findFile_script_absent h)
  | some b =>
    obtain ⟨u, hu, -⟩ := loadBlob_script b s
    have hload : Issues (loadBlob b) s fun j => s.ctl.atSeq (loadSeq j) := ⟨_, _, hu⟩
    exact .passed (findFile_script h) hload.answer

/-! ### The commands on both tones: tone 1's turn, then tone 2's (41_dual_tone R136) -/

theorem ddsSetAmp_issues (d1 d2 : Option Rat) (s : State) :
    Issues (do setLevel .one d1; setLevel .two d2; return Value.unit) s (ctlAt s (.ddsSetAmp d1 d2)) := by
  have first : ∀ j < (levelTrace .one s.tones.one d1).length, ctlAt s (.ddsSetAmp d1 d2) j
      = s.ctl.setTone .one (levelRegsAt s.dds.one s.tones.one j d1) := fun j hj => by
    simp [ctlAt, registersAt, hj, Ctl.setTone, PerTone.set, State.ctl, seqAt]
  rcases level_legal_or_positive d1 with hd | ⟨x, rfl, hx⟩
  · refine .turn (setLevel_script (t := .one) hd) first (setLevel_issues _ .two d2).answer fun j => ?_
    simp [ctlAt, registersAt, Ctl.setTone, PerTone.set, State.ctl, seqAt, State.ran]
  · exact .refused (setLevel_script_positive hx)

theorem ddsSetFreq_issues (f1 : Rat) (f2 : Option Rat) (s : State) :
    Issues (do
      let _ ← setFreq .one f1
      whenGiven f2 fun f => do
        let _ ← setFreq .two f
      return Value.unit) s (ctlAt s (.ddsSetFreq f1 f2)) := by
  have first : ∀ j < 6, ctlAt s (.ddsSetFreq f1 f2) j
      = s.ctl.setTone .one (freqRegsAt s.tones.one f1 j) := fun j hj => by
    simp [ctlAt, registersAt, hj, Ctl.setTone, PerTone.set, State.ctl, seqAt]
  by_cases hb : |f1| ≤ s.dds.one.i.fs / 2
  · refine .turn (setFreq_script (t := .one) hb) first (Issues.answer ?_) fun _ => rfl
    cases f2 with
    | none => exact .pure _ _ _
    | some f =>
      refine (setFreq_issues _ .two f).answer.congr fun j => ?_
      simp [ctlAt, registersAt, Ctl.setTone, PerTone.set, State.ctl, seqAt, State.ran, freqTrace, freqRegsAt]
  · refine .lastTurn (setFreq_script_beyond (t := .one) (not_le.mp hb)) fun j hj => ?_
    obtain rfl : j = 0 := Nat.lt_one_iff.mp hj
    rw [first 0 (by decide)]
    exact Ctl.setTone_get s .one

theorem ddsSetPhase_issues (p1 : Rat) (p2 : Option Rat) (s : State) :
    Issues (do setPhase .one p1; whenGiven p2 (setPhase .two); return Value.unit) s fun _ => s.ctl := by
  refine .turn (setPhase_script s .one p1) (fun _ _ => rfl) (Issues.answer ?_) fun _ => rfl
  cases p2 with
  | none => exact .pure _ _ _
  | some q =>
    refine (setPhase_issues _ .two q).congr fun j => ?_
    simp [State.ctl, State.ran, PerTone.set]

theorem ddsIsOff_issues (s : State) :
    Issues (do
      let a1 ← attrGet ⟨.one, .i⟩ .scale
      let a2 ← attrGet ⟨.two, .i⟩ .scale
      return Value.bool (a1 = 0 && a2 = 0)) s fun _ => s.ctl :=
  .turn (xs := [.attrGet ⟨.one, .i⟩ .scale]) (k₁ := fun _ => s.ctl) (attrGet_script _ _ s) (fun _ _ => rfl)
    (attrGet_issues _ _ _).answer fun _ => rfl

theorem ddsState_issues {sw : Symbol} {on : Bool} (hon : switchOf sw = some on) (s : State) :
    Issues (do setState .one on; setState .two on; return Value.unit) s (ctlAt s (.ddsState sw)) := by
  refine .turn (setState_script s .one on) (fun j hj => ?_) (setState_issues _ .two on).answer fun j => ?_
  · simp at hj
    simp [ctlAt, registersAt, hon, hj, Ctl.setTone, PerTone.set, State.ctl, seqAt]
  · simp [ctlAt, registersAt, hon, Ctl.setTone, PerTone.set, State.ctl, seqAt, State.ran]

/-! ### Every command -/

/-- A command's program, on the FIR paths the command is on. -/
def onPathsOf (i : Instr) (c : Cmd Value) : Cmd Value := if pathsOf i = [] then c else onPaths (pathsOf i) c

/-- Every command is one program, which issues each of its transactions with the registers where `registersAt` and
`seqAt` put them. -/
theorem exists_program (i : Instr) (s : State) :
    ∃ c, (∀ u, exec i u = run (onPathsOf i c) u) ∧ Issues c s.begin (ctlAt s i) := by
  cases i with
  | toneGetFs z => exact ⟨_, fun _ => rfl, .checkTone fun t _ => (attrGet_issues _ _ _).answer⟩
  | toneSetFreq z f =>
    refine ⟨_, fun _ => rfl, .checkTone fun t hz => (setFreq_issues _ t f).answer.congr fun j => ?_⟩
    simp [ctlAt, registersAt, hz, seqAt, Ctl.setTone, State.ctl]
  | toneGetFreq z => exact ⟨_, fun _ => rfl, .checkTone fun t _ => (getFreq_issues _ t).answer⟩
  | toneSetPhase z q => exact ⟨_, fun _ => rfl, .checkTone fun t _ => (setPhase_issues _ t q).answer⟩
  | toneGetPhase z x => exact ⟨_, fun _ => rfl, .checkTone fun t _ => .checkChan fun d => (attrGet_issues _ _ _).answer⟩
  | toneSetAmp z a => exact ⟨_, fun _ => rfl, .checkTone fun t _ => (setAmp_issues _ t a).answer⟩
  | toneGetAmp z => exact ⟨_, fun _ => rfl, .checkTone fun t _ => (attrGet_issues _ _ _).answer⟩
  | toneState z sw =>
    refine ⟨_, fun _ => rfl, .checkTone fun t hz => .checkSwitch fun on hon =>
      (setState_issues _ t on).answer.congr fun j => ?_⟩
    simp [ctlAt, registersAt, hz, hon, seqAt, Ctl.setTone, State.ctl]
  | toneStatus z => exact ⟨_, fun _ => rfl, .checkTone fun t _ => (getStatus_issues _ t).answer⟩
  | ddsSetAmp d1 d2 => exact ⟨_, fun _ => rfl, ddsSetAmp_issues d1 d2 s.begin⟩
  | ddsSetFreq f1 f2 => exact ⟨_, fun _ => rfl, ddsSetFreq_issues f1 f2 s.begin⟩
  | ddsSetPhase p1 p2 => exact ⟨_, fun _ => rfl, ddsSetPhase_issues p1 p2 s.begin⟩
  | ddsIsOff => exact ⟨_, fun _ => rfl, ddsIsOff_issues s.begin⟩
  | ddsStatus z => exact ⟨_, fun _ => rfl, .checkTone fun t _ => (getStatus_issues _ t).answer⟩
  | ddsState sw => exact ⟨_, fun _ => rfl, .checkSwitch fun on hon => ddsState_issues hon s.begin⟩
  | firEncode v => exact ⟨_, fun _ => rfl, .checkRange fun _ => .pure _ _ _⟩
  | firDecode high low => exact ⟨_, fun _ => rfl, .checkRange fun _ => .checkRange fun _ => .pure _ _ _⟩
  | firSetBit j w sw =>
    exact ⟨_, fun _ => rfl, .checkRange fun _ => .checkRange fun _ => .checkSwitch fun on _ => .pure _ _ _⟩
  | firBuildCfg x taps gain =>
    exact ⟨_, fun _ => rfl, .checkPath fun p => .check (buildConfig_script p taps gain _) fun _ => .pure _ _ _⟩
  | firWriteTx c taps gain => exact ⟨_, fun _ => rfl, firWrite_issues .tx c taps gain s.begin⟩
  | firWriteRx c taps gain => exact ⟨_, fun _ => rfl, firWrite_issues .rx c taps gain s.begin⟩
  | firReadTx => exact ⟨_, fun _ => rfl, firRead_issues .tx s.begin⟩
  | firReadRx => exact ⟨_, fun _ => rfl, firRead_issues .rx s.begin⟩
  | firLoadFile name => exact ⟨_, fun _ => rfl, loadFile_issues name s.begin⟩

/-! ## A command cut short (R205, R207) -/

section CutShort

variable {c : Cmd α} {r : EStateM.Result Failure State α} {k : Nat → Ctl} {xs : List Transaction} {x : Transaction}
  {n : Nat}

/-- A script is one on every transport. -/
theorem Script.withTransport {ys : List (Transaction × Ctl)} (h : Script c s ys r) (T : List Draw) :
    Script c (s.withTransport T) ys r where
  done := h.done
  fails U j x b hx hd hf := by
    rw [State.reached_withTransport]
    exact h.fails U j x b hx hd hf
  raises := h.raises
  ends U := by
    rw [State.reached_withTransport]
    exact h.ends U

theorem endState_rewire_trace (r : EStateM.Result Failure State α) (T : List Draw) :
    (endState (rewire r T)).trace = (endState r).trace := by
  cases r <;> rfl

/-- On any transport, a program with a script issues the first transactions of its script and no others. -/
theorem Script.trace_eq_take (h : Script c s (steps k xs) r) (T : List Draw) :
    ∃ m, (endState (c (s.withTransport T))).trace = s.trace ++ xs.take m := by
  rcases h.withTransport T |>.cases with hc | ⟨j, x, b, -, hc⟩
  · refine ⟨xs.length, ?_⟩
    rw [hc, List.take_length, endState_rewire_trace, h.trace, steps_fst]
  · refine ⟨j + 1, ?_⟩
    rw [hc, List.map_take, steps_fst]
    rfl

/-- Where the transport first fails at transaction `n` of its script, a program ends there: the transactions before it
took effect, and that one if its failing write did. -/
theorem Script.fails_where (h : Script c s (steps k xs) r) (hx : xs[n]? = some x) (b : Bool) (rest : List Draw) :
    c (s.withTransport (List.replicate n .done ++ .failed b :: rest))
      = .error (transportError x) (s.reached (xs.take (if b then n + 1 else n)) (xs.take (n + 1)) (k n) rest) := by
  have hstep : (steps k xs)[n]? = some (x, k n) := by rw [steps_get, hx]; rfl
  have hrest : (List.replicate n Draw.done ++ .failed b :: rest).drop (n + 1) = rest := by simp [List.drop_append]
  have hc := h.fails (List.replicate n .done ++ .failed b :: rest) n _ b hstep (fun _ _ hj _ => drawAt_replicate hj)
    drawAt_failed
  rwa [tookEffect_steps, List.map_take, steps_fst, hrest] at hc

theorem onPaths_trace (ps : List Path) (c : Cmd α) (s : State) :
    (endState (onPaths ps c s)).trace = (endState (c s)).trace := by
  unfold onPaths
  cases c s with
  | ok a u => exact u.blur_trace
  | error e u =>
    change State.trace (if e.kind = .transport then (u.markIndet ps).blur else u) = u.trace
    split
    · exact (u.markIndet ps).blur_trace
    · rfl

theorem onPathsOf_trace (i : Instr) (c : Cmd Value) (s : State) :
    (endState (onPathsOf i c s)).trace = (endState (c s)).trace := by
  unfold onPathsOf
  split
  · rfl
  · exact onPaths_trace _ c s

theorem onPathsOf_transport {c : Cmd Value} {u : State} (i : Instr) (h : c s = .error (transportError x) u) :
    onPathsOf i c s
      = .error (transportError x) (if pathsOf i = [] then u else (u.markIndet (pathsOf i)).blur) := by
  unfold onPathsOf
  split
  · exact h
  · exact onPaths_transport h

theorem run_trace {c : Cmd Value} (he : run c s = .next t) : t.trace = (endState (c s.begin)).trace := by
  obtain rfl : s.complete c = t := by simpa [run] using he
  unfold State.complete
  cases c s.begin <;> rfl

theorem State.begin_performed (s : State) (xs : List Transaction) :
    s.begin.performed xs = { s.performed xs with trace := [] } := by
  obtain ⟨htones, -, hseq, hindet, -, -, -, htransport, hdraws, -⟩ := s.performed_keeps xs
  refine (s.performed_frame s.ctl [] s.transport s.draws xs).trans ?_
  rw [← htransport, ← hdraws]
  simp only [State.ctl, ← htones, ← hseq, ← hindet]

/-- Where transaction `n` of `xs` fails, a program of the command `i` reaches the device, the registers and the trace of
`cutShort`. -/
theorem State.begin_reached (s : State) (i : Instr) (hn : n < xs.length) (e : List Transaction) (rest : List Draw) :
    s.begin.reached e (xs.take (n + 1)) (ctlAt s i n) rest
      = { s.performed e with
          tones := registersAt s n i, seq := seqAt s n i, trace := xs.take (n + 1), transport := rest
          draws := s.draws + n + 1 } := by
  have hlen : (xs.take (n + 1)).length = n + 1 := List.length_take_of_le hn
  obtain ⟨-, -, -, hindet, -⟩ := s.performed_keeps e
  simp only [State.reached, State.begin_performed, hlen, ctlAt, hindet]
  rfl

/-- `cutShort` is the state that a program reaches where transaction `n` of `xs` fails, with the command's paths marked
and the error in RESP. -/
theorem State.cutShort_eq (s : State) (i : Instr) (hx : xs[n]? = some x) (b : Bool) (rest : List Draw) {u : State}
    (hu : u = s.begin.reached (xs.take (if b then n + 1 else n)) (xs.take (n + 1)) (ctlAt s i n) rest) :
    s.cutShort i (xs.take n) x b rest
      = (if pathsOf i = [] then u else (u.markIndet (pathsOf i)).blur).respond (.err .transport (.transaction x)) := by
  obtain ⟨hn, rfl⟩ := List.getElem?_eq_some_iff.mp hx
  have hissued : xs.take n ++ [xs[n]] = xs.take (n + 1) := List.take_concat_get' xs n hn
  have heffects : (if b then xs.take n ++ [xs[n]] else xs.take n) = xs.take (if b then n + 1 else n) := by
    cases b with
    | false => rfl
    | true => exact hissued
  rw [hu, s.begin_reached i hn, State.cutShort, List.length_take_of_le hn.le, heffects, hissued]

/-- Settles O8: the transactions of the run that does not fail are the first of the command's script, which says what
the program leaves where one of them fails. -/
theorem errorsPreciseAtTransaction : Obligations.ErrorsPreciseAtTransaction := by
  intro i s g n x b rest he hx
  obtain ⟨c, hrun, xs, r, hc⟩ := exists_program i s
  rw [hrun] at he
  obtain ⟨m, hm⟩ := hc.trace_eq_take (List.replicate 519 .done)
  have htrace : g.trace = xs.take m := (run_trace he).trans ((onPathsOf_trace i c _).trans hm)
  rw [htrace] at hx ⊢
  obtain ⟨hn, hx'⟩ : n < m ∧ xs[n]? = some x := by
    rw [List.getElem?_take] at hx
    split at hx
    case isTrue h => exact ⟨h, hx⟩
    case isFalse => exact nomatch hx
  rw [List.take_take, Nat.min_eq_left hn.le, s.cutShort_eq i hx' b rest rfl, hrun]
  exact run_error (onPathsOf_transport i (hc.fails_where hx' b rest))

end CutShort

/-! ## A FIR command cut short (R205 item 5, 10_state R25, R26) -/

section FirCutShort

variable {i : Instr} {y : Info} {p : Path} {ps : List Path}

/-- A FIR command that ends with TransportError: its paths are marked, and SEQ stands where it stood at the last
transaction issued. -/
theorem fir_transportError (hp : pathsOf i = p :: ps) (he : exec i s = .next t)
    (hr : t.resp = some (.err .transport y)) :
    t.indet = (s.markIndet (p :: ps)).indet ∧ 0 < t.trace.length ∧ t.seq = seqAt s (t.trace.length - 1) i := by
  obtain ⟨c, hrun, xs, r, hc⟩ := exists_program i s
  have hpaths : exec i s = run (onPaths (p :: ps) c) s := by
    rw [hrun, onPathsOf, hp, if_neg (List.cons_ne_nil p ps)]
  rw [hpaths] at he
  rcases hc.cases with hend | ⟨j, z, b, hz, hstop⟩
  · cases r with
    | ok a u =>
      cases (run_ok (onPaths_ok hend)).symm.trans he
      exact nomatch hr
    | error e u =>
      have hkind := hc.raises e u rfl
      cases (run_error (onPaths_error hend hkind)).symm.trans he
      simp only [State.respond_resp, Option.some.injEq, Response.err.injEq] at hr
      exact absurd hr.1 hkind
  · have hj : j < xs.length := by simpa using (List.getElem?_eq_some_iff.mp hz).1
    rw [steps_get, Option.map_eq_some_iff] at hz
    obtain ⟨x, -, rfl⟩ := hz
    cases (run_error (onPaths_transport hstop)).symm.trans he
    have hissued : min (j + 1) xs.length = j + 1 := Nat.min_eq_left hj
    refine ⟨?_, ?_, ?_⟩
    · rw [State.respond_indet, State.blur_indet]
      rfl
    · simp [State.reached, hissued]
    · simp [State.reached, ctlAt, hissued]

theorem pathsOf_upload (p : Path) (c : List Int) (taps : Int) (gain : Rat) :
    pathsOf (uploadInstr p c taps gain) = [p] := by
  cases p <;> rfl

theorem pathsOf_readback (p : Path) : pathsOf (readbackInstr p) = [p] := by
  cases p <;> rfl

theorem pathsOf_load (name : String) : pathsOf (.firLoadFile name) = [.tx, .rx] := rfl

theorem seqAt_upload (s : State) (n : Nat) (p : Path) (c : List Int) (taps : Int) (gain : Rat) :
    seqAt s n (uploadInstr p c taps gain) = uploadSeq p n := by
  cases p <;> rfl

theorem seqAt_readback (s : State) (n : Nat) (p : Path) : seqAt s n (readbackInstr p) = readbackSeq n := by
  cases p <;> rfl

theorem txUploadSeq_ne_idle (n : Nat) : txUploadSeq n ≠ .idle := by
  unfold txUploadSeq
  split_ifs <;> exact Seq.noConfusion

theorem uploadSeq_ne_idle (p : Path) (n : Nat) : uploadSeq p n ≠ .idle := by
  cases p <;> exact txUploadSeq_ne_idle _

theorem readbackSeq_ne_idle (n : Nat) : readbackSeq n ≠ .idle := by
  unfold readbackSeq
  split_ifs <;> exact Seq.noConfusion

theorem loadSeq_ne_idle (n : Nat) : loadSeq n ≠ .idle := by
  unfold loadSeq
  split_ifs <;> exact Seq.noConfusion

/-- Settles O51: `fir_transportError` for the commands on each path; the sequences leave Idle before their first
transaction and return to it after their last. -/
theorem firTransportErrorMarksIndeterminate : Obligations.FirTransportErrorMarksIndeterminate := by
  refine ⟨fun p c taps gain y s t he hr => ?_, fun p y s t he hr => ?_, fun name y s t he hr => ?_,
    uploadSeq_ne_idle, readbackSeq_ne_idle, loadSeq_ne_idle⟩
  · rw [← seqAt_upload s _ p c taps gain]
    exact fir_transportError (pathsOf_upload p c taps gain) he hr
  · rw [← seqAt_readback s _ p]
    exact fir_transportError (pathsOf_readback p) he hr
  · exact fir_transportError (pathsOf_load name) he hr

end FirCutShort

end ExceptionFamily

end Sys2Proof.Machine
end

section
/-! PROOFS. The statements of 70_reset: what the state after a completed reset holds (R230, R233), the reset input on a
transport that does not fail as tone 1's reset and then tone 2's (R230, R231), and a reset cut short (R232 item 2). -/

namespace Sys2Proof.Machine

section ResetFamily

variable {s : State} {t : Tone}

/-! ## A completed reset (R230, R233) -/

/-- Settles O53: each tone of `State.reset` is what `resetTone` and `resetChannels` make of DEV0. -/
theorem resetTable : Obligations.ResetTable := by
  refine ⟨fun t => ?_, rfl, rfl, rfl, rfl⟩
  cases t <;> exact ⟨rfl, rfl, rfl, rfl, rfl⟩

/-! ## The reset of one tone (R231) -/

/-- The four transactions of the reset of a tone (R231): its phases are read, then scale 0 is written. -/
def toneResetTrace (t : Tone) : List Transaction :=
  [.attrGet ⟨t, .i⟩ .phase, .attrGet ⟨t, .q⟩ .phase] ++ ampTrace t 0

theorem toneResetTrace_append : toneResetTrace .one ++ toneResetTrace .two = resetTrace := rfl

theorem attrSet_done (h : s.perfect 1) (ch : ChanId) (a : Attr) (v : Rat) :
    attrSet ch a v s = .ok () ((s.ran [.attrSet ch a v]).storeAttr ch a v) := by
  obtain ⟨T, hT, -⟩ := State.perfect_succ h
  rw [attrSet, writeTransaction_done hT]
  simp only [State.issue, State.ran, List.length_singleton, List.drop_one]

/-- A stored attribute does not meet the transport. -/
theorem State.storeAttr_ran (s : State) (ch : ChanId) (a : Attr) (v : Rat) (xs : List Transaction) :
    (s.storeAttr ch a v).ran xs = (s.ran xs).storeAttr ch a v := rfl

/-- The two writes of a tone's reset, and the registers set after them. -/
theorem toneReset_writes_done (h : s.perfect 2) :
    (do attrSet ⟨t, .i⟩ .scale 0; attrSet ⟨t, .q⟩ .scale 0; setCache t 0; setMuted t true) s
      = .ok () ((s.ran (ampTrace t 0)).withTone t (resetChannels s.setup.coercion (s.dds.get t))
          { s.tones.get t with cache := 0, muted := true }) := by
  have hq : ((s.ran [.attrSet ⟨t, .i⟩ .scale 0]).storeAttr ⟨t, .i⟩ .scale 0).perfect 1 := State.perfect_ran h
  rw [Cmd.bind_apply, attrSet_done (State.perfect_mono h (by decide))]
  dsimp only
  rw [Cmd.bind_apply, attrSet_done hq, State.storeAttr_ran, State.ran_ran]
  cases t <;> rfl

/-- `tone_reset` (R231): SB from the two phases read, then the writes. -/
theorem toneReset_done (h : s.perfect 4) :
    toneReset t s = .ok () ((s.ran (toneResetTrace t)).withTone t (resetChannels s.setup.coercion (s.dds.get t))
      (resetTone (s.dds.get t))) := by
  have hq : (s.ran [.attrGet ⟨t, .i⟩ .phase]).perfect 3 := State.perfect_ran h
  have hw : (s.ran [.attrGet ⟨t, .i⟩ .phase, .attrGet ⟨t, .q⟩ .phase]).perfect 2 := State.perfect_ran h
  rw [toneReset, Cmd.bind_apply, attrGet_done (State.perfect_mono h (by decide))]
  dsimp only
  rw [Cmd.bind_apply, attrGet_done (State.perfect_mono hq (by decide)), State.ran_ran]
  refine (toneReset_writes_done (s := (s.ran _).setTone t _) hw).trans ?_
  rw [toneResetTrace, ← State.ran_ran s _ (ampTrace t 0)]
  cases t <;> rfl

/-! ## The reset sequence (R230) -/

/-- Tone 1's reset and then tone 2's, on a transport that does not fail. -/
theorem resetTones_done (h : s.perfect 8) :
    resetTones s = .ok () (((s.ran resetTrace).withTone .one (resetChannels s.setup.coercion s.dds.one)
      (resetTone s.dds.one)).withTone .two (resetChannels s.setup.coercion s.dds.two) (resetTone s.dds.two)) := by
  have h2 : (s.ran (toneResetTrace .one)).perfect 4 := State.perfect_ran h
  rw [← toneResetTrace_append, ← State.ran_ran, resetTones, Cmd.bind_apply,
    toneReset_done (State.perfect_mono h (by decide))]
  exact toneReset_done (t := .two) (s := State.withTone _ .one _ _) h2

/-- Settles O54: the construction of a platform that lacks nothing is the reset of tone 1 and then of tone 2. -/
theorem resetSequenceRuns : Obligations.ResetSequenceRuns := by
  intro s rest hp ha h
  rw [step_reset hp, construct_ok (s := { s with port := rest }) ha (resetTones_done h)]
  rfl

/-! ## A reset cut short (R231, R232 item 2, 60_exceptions R205) -/

/-- Where the reset sequence stands after the transactions `issued`, of which `effects` took effect, with the tones'
registers at `r`. -/
theorem State.resetRegisters_reached (s : State) (rest : List Input) (effects issued : List Transaction)
    (r : PerTone ToneRegs) (T : List Draw) :
    ({ s with port := rest } : State).resetRegisters.reached effects issued ⟨r, .idle, ⟨false, false⟩⟩ T
      = { s.performed effects with
          port := rest, tones := r, resp := none, seq := .idle, indet := ⟨false, false⟩, boot := s.boot
          trace := issued, transport := T, draws := s.draws + issued.length } := by
  obtain ⟨hdds, hfir⟩ := State.performed_device (s := ({ s with port := rest } : State).resetRegisters) (t := s)
    rfl rfl rfl effects
  obtain ⟨-, -, -, -, -, -, hsetup, -⟩ := s.performed_keeps effects
  obtain ⟨-, hresp, -, -, hboot, hport, hsetup', -⟩ :=
    ({ s with port := rest } : State).resetRegisters.performed_keeps effects
  exact State.ext_fields rfl hresp rfl rfl hboot hdds hfir hport (hsetup'.trans hsetup.symm) rfl rfl rfl

/-- Settles O56: the script of the reset sequence says where the failing transaction ends it, and the construction adds
the error. -/
theorem failedResetNotReady : Obligations.FailedResetNotReady := by
  intro s rest n x b ds hp ha hx hT
  have hissued : (resetTrace.take (n + 1)).length = n + 1 :=
    List.length_take_of_le (List.getElem?_eq_some_iff.mp hx).1
  obtain ⟨u, hscript⟩ := resetTones_script ({ s with port := rest } : State).resetRegisters
  have hstop := hscript.fails_where hx b ds
  rw [← hT] at hstop
  have hreached := s.resetRegisters_reached rest (resetTrace.take (if b then n + 1 else n)) (resetTrace.take (n + 1))
    ⟨resetRegsAt s.dds.one s.tones.one n, resetRegsAt s.dds.two s.tones.two (n - 4)⟩ ds
  rw [hissued] at hreached
  rw [step_reset hp, construct_error (s := { s with port := rest }) ha (hstop.trans (congrArg _ hreached))]
  rfl

end ResetFamily

end Sys2Proof.Machine
end
